-- ==== Sys2Proof/Word.lean ====
section
/-! DEFINITION. Word.lean: the three operand widths of the command formats (spec/30_encoding.md R111). Every
value of the spec is unsigned (spec/00_scope.md R9), so a width is a plain `BitVec`. -/

namespace Sys2Proof

/-- A byte: the unit of the buffer, of a command and of a response (R11, R60). -/
abbrev Byte := BitVec 8

/-- A `u16` operand: an offset, a length, a count or an index (R111). -/
abbrev Half := BitVec 16

/-- A `u32` operand: the value of a setter (R111). -/
abbrev Word := BitVec 32

end Sys2Proof
end

