-- ==== Sys2Proof/Machine/Bytes.lean ====
section
/-! DEFINITION. Machine/Bytes.lean: byte order and byte strings (spec/00_scope.md R9, R11; spec/20_memory.md R61).
Everything is big-endian; no value is signed. -/

namespace Sys2Proof.Machine

/-- `be16` of R11 on two bytes: the byte at the lower offset is the high one. -/
def be16 (hi lo : Byte) : Half := hi ++ lo

/-- `be32` of R11 on four bytes. -/
def be32 (b0 b1 b2 b3 : Byte) : Word := b0 ++ b1 ++ b2 ++ b3

/-- One byte holding `v mod 2^8`. -/
def bytes8 (v : Nat) : List Byte := [BitVec.ofNat 8 v]

/-- `bytes16` of R11: the two big-endian bytes of `v mod 2^16`. -/
def bytes16 (v : Nat) : List Byte := [BitVec.ofNat 8 (v / 2 ^ 8), BitVec.ofNat 8 v]

/-- `bytes32` of R11: the four big-endian bytes of `v mod 2^32`. -/
def bytes32 (v : Nat) : List Byte :=
  [BitVec.ofNat 8 (v / 2 ^ 24), BitVec.ofNat 8 (v / 2 ^ 16), BitVec.ofNat 8 (v / 2 ^ 8), BitVec.ofNat 8 v]

/-- `zeros` of R11. -/
def zeros (n : Nat) : List Byte := List.replicate n 0

/-- The response payload `bytes` of R117: a `u16` length, then the bytes. -/
def payloadBytes (s : List Byte) : List Byte := bytes16 s.length ++ s

/-- The low `n` bytes of a number, least significant first: how spec/opcode_table.json numbers a command's bits. -/
def littleEndianBytes : Nat → Nat → List Byte
  | 0, _ => []
  | n + 1, w => BitVec.ofNat 8 w :: littleEndianBytes n (w / 256)

end Sys2Proof.Machine
end

