-- ==== Sys2Proof/Syntax.lean ====
section
/-! DEFINITION. Syntax.lean: the 69 commands of spec/30_encoding.md R112 (spec/opcode_table.json), one constructor
a row, in the table's order. An operand has the width its format gives it (R111): illegal operand VALUES are
well-formed syntax (R115) and are answered by the command. The context number is no operand: it is the frame's (R110). -/

namespace Sys2Proof

/-- A decoded command. -/
inductive Instr where
  -- Field codec primitives (41_fields.md)
  /-- `BUF_LOAD`, opcode 0x01, format D (R141). -/
  | bufLoad (data : List Byte)
  /-- `BUF_SETLEN`, opcode 0x02, format I (R142). -/
  | bufSetlen (n : Half)
  /-- `BUF_GETLEN`, opcode 0x03, format N (R143). -/
  | bufGetlen
  /-- `FLD_GET_U8`, opcode 0x04, format O (R144). -/
  | fldGetU8 (off : Half)
  /-- `FLD_GET_U16`, opcode 0x05, format O (R145). -/
  | fldGetU16 (off : Half)
  /-- `FLD_GET_U32`, opcode 0x06, format O (R146). -/
  | fldGetU32 (off : Half)
  /-- `FLD_SET_U8`, opcode 0x07, format OV (R147). -/
  | fldSetU8 (off : Half) (v : Word)
  /-- `FLD_SET_U16`, opcode 0x08, format OV (R148). -/
  | fldSetU16 (off : Half) (v : Word)
  /-- `FLD_SET_U32`, opcode 0x09, format OV (R149). -/
  | fldSetU32 (off : Half) (v : Word)
  /-- `FLD_GET_BITS`, opcode 0x0A, format OSW (R150). -/
  | fldGetBits (off : Half) (sh w : Byte)
  /-- `FLD_SET_BITS`, opcode 0x0B, format OSWV (R151). -/
  | fldSetBits (off : Half) (sh w : Byte) (v : Word)
  /-- `FLD_GET_BYTES`, opcode 0x0C, format ON (R152). -/
  | fldGetBytes (off n : Half)
  /-- `FLD_SET_BYTES`, opcode 0x0D, format OD (R153). -/
  | fldSetBytes (off : Half) (data : List Byte)
  -- Checksum engine (42_checksum.md)
  /-- `CTX_SET_SRC`, opcode 0x10, format A (R175). -/
  | ctxSetSrc (addr : List Byte)
  /-- `CTX_SET_DST`, opcode 0x11, format A (R176). -/
  | ctxSetDst (addr : List Byte)
  /-- `CSUM_COMPUTE`, opcode 0x12, format LP (R177). -/
  | csumCompute (len : Half) (p : Byte)
  /-- `CSUM_VERIFY`, opcode 0x13, format LP (R178). -/
  | csumVerify (len : Half) (p : Byte)
  /-- `CSUM_WRITE`, opcode 0x14, format LP (R179). -/
  | csumWrite (len : Half) (p : Byte)
  -- Time-code converter (43_timecode.md)
  /-- `TC8_DECODE`, opcode 0x18, format T (R194). -/
  | tc8Decode (code : Byte)
  /-- `TC8_ENCODE`, opcode 0x19, format V (R195). -/
  | tc8Encode (v : Word)
  /-- `TC16_DECODE`, opcode 0x1A, format H (R196). -/
  | tc16Decode (code : Half)
  /-- `TC16_ENCODE`, opcode 0x1B, format V (R197). -/
  | tc16Encode (v : Word)
  -- Group record codec (44_group_record.md)
  /-- `GR_NEW`, opcode 0x20, format FT (R212). -/
  | grNew (fam rtype : Byte)
  /-- `GR_GET_TYPE`, opcode 0x21, format N (R213). -/
  | grGetType
  /-- `GR_SET_TYPE`, opcode 0x22, format T (R214). -/
  | grSetType (rtype : Byte)
  /-- `GR_GET_GROUP`, opcode 0x23, format N (R215). -/
  | grGetGroup
  /-- `GR_SET_GROUP`, opcode 0x24, format A (R216). -/
  | grSetGroup (addr : List Byte)
  /-- `GR_GET_NSRC`, opcode 0x25, format N (R217). -/
  | grGetNsrc
  /-- `GR_GET_SRC`, opcode 0x26, format I (R218). -/
  | grGetSrc (i : Half)
  /-- `GR_ADD_SRC`, opcode 0x27, format A (R219). -/
  | grAddSrc (addr : List Byte)
  /-- `GR_CLEAR_SRC`, opcode 0x28, format N (R220). -/
  | grClearSrc
  /-- `GR_GET_AUXLEN`, opcode 0x29, format N (R221). -/
  | grGetAuxlen
  /-- `GR_GET_AUX`, opcode 0x2A, format N (R222). -/
  | grGetAux
  /-- `GR_SET_AUX`, opcode 0x2B, format D (R223). -/
  | grSetAux (data : List Byte)
  /-- `GR_LENGTH`, opcode 0x2C, format N (R224). -/
  | grLength
  /-- `GR_DECODE`, opcode 0x2D, format OF (R226). -/
  | grDecode (off : Half) (fam : Byte)
  /-- `GR_ENCODE`, opcode 0x2E, format O (R228). -/
  | grEncode (off : Half)
  /-- `GR_PEEK_LENGTH`, opcode 0x2F, format OF (R230). -/
  | grPeekLength (off : Half) (fam : Byte)
  -- Message variants (45_message.md)
  /-- `MSG_NEW`, opcode 0x30, format T (R243). -/
  | msgNew (variant : Byte)
  /-- `MSG_GET_VARIANT`, opcode 0x31, format N (R244). -/
  | msgGetVariant
  /-- `MSG_GET_GROUP`, opcode 0x32, format N (R245). -/
  | msgGetGroup
  /-- `MSG_SET_GROUP`, opcode 0x33, format A (R246). -/
  | msgSetGroup (addr : List Byte)
  /-- `MSG_GET_MAXRESP_CODE`, opcode 0x34, format N (R247). -/
  | msgGetMaxrespCode
  /-- `MSG_SET_MAXRESP_CODE`, opcode 0x35, format V (R248). -/
  | msgSetMaxrespCode (v : Word)
  /-- `MSG_GET_MAXRESP_TIME`, opcode 0x36, format N (R249). -/
  | msgGetMaxrespTime
  /-- `MSG_SET_MAXRESP_TIME`, opcode 0x37, format V (R250). -/
  | msgSetMaxrespTime (ms : Word)
  /-- `MSG_GET_S`, opcode 0x38, format N (R251). -/
  | msgGetS
  /-- `MSG_SET_S`, opcode 0x39, format V (R252). -/
  | msgSetS (v : Word)
  /-- `MSG_GET_QRV`, opcode 0x3A, format N (R253). -/
  | msgGetQrv
  /-- `MSG_SET_QRV`, opcode 0x3B, format V (R254). -/
  | msgSetQrv (v : Word)
  /-- `MSG_GET_QQIC`, opcode 0x3C, format N (R255). -/
  | msgGetQqic
  /-- `MSG_SET_QQIC`, opcode 0x3D, format V (R256). -/
  | msgSetQqic (v : Word)
  /-- `MSG_GET_QQI`, opcode 0x3E, format N (R257). -/
  | msgGetQqi
  /-- `MSG_SET_QQI`, opcode 0x3F, format V (R258). -/
  | msgSetQqi (v : Word)
  /-- `MSG_GET_NSRC`, opcode 0x40, format N (R259). -/
  | msgGetNsrc
  /-- `MSG_GET_SRC`, opcode 0x41, format I (R260). -/
  | msgGetSrc (i : Half)
  /-- `MSG_ADD_SRC`, opcode 0x42, format A (R261). -/
  | msgAddSrc (addr : List Byte)
  /-- `MSG_CLEAR_SRC`, opcode 0x43, format N (R262). -/
  | msgClearSrc
  /-- `MSG_GET_NREC`, opcode 0x44, format N (R263). -/
  | msgGetNrec
  /-- `MSG_GET_REC`, opcode 0x45, format I (R264). -/
  | msgGetRec (i : Half)
  /-- `MSG_ADD_REC`, opcode 0x46, format N (R265). -/
  | msgAddRec
  /-- `MSG_CLEAR_REC`, opcode 0x47, format N (R266). -/
  | msgClearRec
  /-- `MSG_LENGTH`, opcode 0x48, format N (R267). -/
  | msgLength
  /-- `MSG_ENCODE`, opcode 0x49, format I (R268). -/
  | msgEncode (cap : Half)
  -- Parser registry and parse (46_registry.md)
  /-- `REG_REGISTER`, opcode 0x50, format FTD (R292). -/
  | regRegister (fam tag dec : Byte)
  /-- `REG_LOOKUP`, opcode 0x51, format FT (R293). -/
  | regLookup (fam tag : Byte)
  /-- `REG_BUILD`, opcode 0x52, format N (R294). -/
  | regBuild
  /-- `REG_SEAL`, opcode 0x53, format N (R295). -/
  | regSeal
  /-- `PARSE`, opcode 0x54, format F (R301). -/
  | parse (fam : Byte)
deriving DecidableEq, Repr

end Sys2Proof
end

