-- ==== Sys2Proof/WellFormed.lean ====
section
/-! DEFINITION. WellFormed.lean: which commands have an encoding. The operand widths are in the types of Syntax.lean;
what is left is that a byte string fits its length prefix (spec/30_encoding.md R111): `n:u16` in formats D and OD,
`n:u8` in format A. -/

namespace Sys2Proof

/-- The longest byte string a `u16` prefix declares (formats D and OD, R111). -/
def maxData : Nat := 65535

/-- The longest byte string a `u8` prefix declares (format A, R111). -/
def maxAddr : Nat := 255

/-- A byte string that formats D and OD can carry. -/
def dataFits (data : List Byte) : Bool := decide (data.length ≤ maxData)

/-- A byte string that format A can carry. -/
def addrFits (addr : List Byte) : Bool := decide (addr.length ≤ maxAddr)

/-- The command has an encoding (R111, R113). -/
def Instr.wf : Instr → Bool
  | .bufLoad data => dataFits data
  | .bufSetlen _ => true
  | .bufGetlen => true
  | .fldGetU8 _ => true
  | .fldGetU16 _ => true
  | .fldGetU32 _ => true
  | .fldSetU8 _ _ => true
  | .fldSetU16 _ _ => true
  | .fldSetU32 _ _ => true
  | .fldGetBits _ _ _ => true
  | .fldSetBits _ _ _ _ => true
  | .fldGetBytes _ _ => true
  | .fldSetBytes _ data => dataFits data
  | .ctxSetSrc addr => addrFits addr
  | .ctxSetDst addr => addrFits addr
  | .csumCompute _ _ => true
  | .csumVerify _ _ => true
  | .csumWrite _ _ => true
  | .tc8Decode _ => true
  | .tc8Encode _ => true
  | .tc16Decode _ => true
  | .tc16Encode _ => true
  | .grNew _ _ => true
  | .grGetType => true
  | .grSetType _ => true
  | .grGetGroup => true
  | .grSetGroup addr => addrFits addr
  | .grGetNsrc => true
  | .grGetSrc _ => true
  | .grAddSrc addr => addrFits addr
  | .grClearSrc => true
  | .grGetAuxlen => true
  | .grGetAux => true
  | .grSetAux data => dataFits data
  | .grLength => true
  | .grDecode _ _ => true
  | .grEncode _ => true
  | .grPeekLength _ _ => true
  | .msgNew _ => true
  | .msgGetVariant => true
  | .msgGetGroup => true
  | .msgSetGroup addr => addrFits addr
  | .msgGetMaxrespCode => true
  | .msgSetMaxrespCode _ => true
  | .msgGetMaxrespTime => true
  | .msgSetMaxrespTime _ => true
  | .msgGetS => true
  | .msgSetS _ => true
  | .msgGetQrv => true
  | .msgSetQrv _ => true
  | .msgGetQqic => true
  | .msgSetQqic _ => true
  | .msgGetQqi => true
  | .msgSetQqi _ => true
  | .msgGetNsrc => true
  | .msgGetSrc _ => true
  | .msgAddSrc addr => addrFits addr
  | .msgClearSrc => true
  | .msgGetNrec => true
  | .msgGetRec _ => true
  | .msgAddRec => true
  | .msgClearRec => true
  | .msgLength => true
  | .msgEncode _ => true
  | .regRegister _ _ _ => true
  | .regLookup _ _ => true
  | .regBuild => true
  | .regSeal => true
  | .parse _ => true

end Sys2Proof
end

