-- ==== Sys2Proof/Decode.lean ====
section
/-! DEFINITION. Decode.lean: the command decoder (spec/30_encoding.md R111 to R114), and after it the encoder. Both
are written from the tables of R111 and R112. -/

namespace Sys2Proof

open Sys2Proof.Machine

/-- Why a byte string is no well-formed command (R113). Each is answered by the fault IllegalCommand (R322). -/
inductive Reject where
  /-- No opcode byte. -/
  | emptyCommand
  /-- The opcode is not in the map of R112 (R114). -/
  | unassignedOpcode
  /-- Too short to hold its length prefix. -/
  | prefixCutShort
  /-- The length is not the computed length. -/
  | wrongLength
deriving DecidableEq, Repr

/-- The command formats of R111, each with the command it builds from its operands. -/
inductive Shape where
  | N (i : Instr)
  | O (k : Half → Instr)
  | OV (k : Half → Word → Instr)
  | OSW (k : Half → Byte → Byte → Instr)
  | OSWV (k : Half → Byte → Byte → Word → Instr)
  | ON (k : Half → Half → Instr)
  | OD (k : Half → List Byte → Instr)
  | D (k : List Byte → Instr)
  | A (k : List Byte → Instr)
  | V (k : Word → Instr)
  | H (k : Half → Instr)
  | T (k : Byte → Instr)
  | I (k : Half → Instr)
  | LP (k : Half → Byte → Instr)
  | F (k : Byte → Instr)
  | FT (k : Byte → Byte → Instr)
  | FTD (k : Byte → Byte → Byte → Instr)
  | OF (k : Half → Byte → Instr)

/-- The opcode map of R112: opcode, format and command; `none` for the unassigned opcodes of R114. -/
def shapeOf (op : Byte) : Option Shape :=
  match op.toNat with
  | 0x01 => some (.D .bufLoad)
  | 0x02 => some (.I .bufSetlen)
  | 0x03 => some (.N .bufGetlen)
  | 0x04 => some (.O .fldGetU8)
  | 0x05 => some (.O .fldGetU16)
  | 0x06 => some (.O .fldGetU32)
  | 0x07 => some (.OV .fldSetU8)
  | 0x08 => some (.OV .fldSetU16)
  | 0x09 => some (.OV .fldSetU32)
  | 0x0A => some (.OSW .fldGetBits)
  | 0x0B => some (.OSWV .fldSetBits)
  | 0x0C => some (.ON .fldGetBytes)
  | 0x0D => some (.OD .fldSetBytes)
  | 0x10 => some (.A .ctxSetSrc)
  | 0x11 => some (.A .ctxSetDst)
  | 0x12 => some (.LP .csumCompute)
  | 0x13 => some (.LP .csumVerify)
  | 0x14 => some (.LP .csumWrite)
  | 0x18 => some (.T .tc8Decode)
  | 0x19 => some (.V .tc8Encode)
  | 0x1A => some (.H .tc16Decode)
  | 0x1B => some (.V .tc16Encode)
  | 0x20 => some (.FT .grNew)
  | 0x21 => some (.N .grGetType)
  | 0x22 => some (.T .grSetType)
  | 0x23 => some (.N .grGetGroup)
  | 0x24 => some (.A .grSetGroup)
  | 0x25 => some (.N .grGetNsrc)
  | 0x26 => some (.I .grGetSrc)
  | 0x27 => some (.A .grAddSrc)
  | 0x28 => some (.N .grClearSrc)
  | 0x29 => some (.N .grGetAuxlen)
  | 0x2A => some (.N .grGetAux)
  | 0x2B => some (.D .grSetAux)
  | 0x2C => some (.N .grLength)
  | 0x2D => some (.OF .grDecode)
  | 0x2E => some (.O .grEncode)
  | 0x2F => some (.OF .grPeekLength)
  | 0x30 => some (.T .msgNew)
  | 0x31 => some (.N .msgGetVariant)
  | 0x32 => some (.N .msgGetGroup)
  | 0x33 => some (.A .msgSetGroup)
  | 0x34 => some (.N .msgGetMaxrespCode)
  | 0x35 => some (.V .msgSetMaxrespCode)
  | 0x36 => some (.N .msgGetMaxrespTime)
  | 0x37 => some (.V .msgSetMaxrespTime)
  | 0x38 => some (.N .msgGetS)
  | 0x39 => some (.V .msgSetS)
  | 0x3A => some (.N .msgGetQrv)
  | 0x3B => some (.V .msgSetQrv)
  | 0x3C => some (.N .msgGetQqic)
  | 0x3D => some (.V .msgSetQqic)
  | 0x3E => some (.N .msgGetQqi)
  | 0x3F => some (.V .msgSetQqi)
  | 0x40 => some (.N .msgGetNsrc)
  | 0x41 => some (.I .msgGetSrc)
  | 0x42 => some (.A .msgAddSrc)
  | 0x43 => some (.N .msgClearSrc)
  | 0x44 => some (.N .msgGetNrec)
  | 0x45 => some (.I .msgGetRec)
  | 0x46 => some (.N .msgAddRec)
  | 0x47 => some (.N .msgClearRec)
  | 0x48 => some (.N .msgLength)
  | 0x49 => some (.I .msgEncode)
  | 0x50 => some (.FTD .regRegister)
  | 0x51 => some (.FT .regLookup)
  | 0x52 => some (.N .regBuild)
  | 0x53 => some (.N .regSeal)
  | 0x54 => some (.F .parse)
  | _ => none

/-- The fixed length of R111 in bytes, without the data of a length-prefixed byte string. -/
def Shape.fixedLen : Shape → Nat
  | .N _ => 1
  | .O _ => 3
  | .OV _ => 7
  | .OSW _ => 5
  | .OSWV _ => 9
  | .ON _ => 5
  | .OD _ => 5
  | .D _ => 3
  | .A _ => 2
  | .V _ => 5
  | .H _ => 3
  | .T _ => 2
  | .I _ => 3
  | .LP _ => 4
  | .F _ => 2
  | .FT _ => 3
  | .FTD _ => 4
  | .OF _ => 4

/-- The declared length n of the byte string (R111, R113), read from the operand bytes `args` (what follows the
opcode); 0 for a format without one, `none` when the prefix itself is cut short. -/
def Shape.dataLen : Shape → List Byte → Option Nat
  | .OD _, _ :: _ :: n1 :: n0 :: _ => some (be16 n1 n0).toNat
  | .OD _, _ => none
  | .D _, n1 :: n0 :: _ => some (be16 n1 n0).toNat
  | .D _, _ => none
  | .A _, n :: _ => some n.toNat
  | .A _, _ => none
  | _, _ => some 0

/-- The operands, read from the operand bytes at the places R111 gives; `none` when the length does not fit. -/
def Shape.operands : Shape → List Byte → Option Instr
  | .N i, [] => some i
  | .O k, [o1, o0] => some (k (be16 o1 o0))
  | .OV k, [o1, o0, v3, v2, v1, v0] => some (k (be16 o1 o0) (be32 v3 v2 v1 v0))
  | .OSW k, [o1, o0, sh, w] => some (k (be16 o1 o0) sh w)
  | .OSWV k, [o1, o0, sh, w, v3, v2, v1, v0] => some (k (be16 o1 o0) sh w (be32 v3 v2 v1 v0))
  | .ON k, [o1, o0, n1, n0] => some (k (be16 o1 o0) (be16 n1 n0))
  | .OD k, o1 :: o0 :: _ :: _ :: data => some (k (be16 o1 o0) data)
  | .D k, _ :: _ :: data => some (k data)
  | .A k, _ :: addr => some (k addr)
  | .V k, [v3, v2, v1, v0] => some (k (be32 v3 v2 v1 v0))
  | .H k, [v1, v0] => some (k (be16 v1 v0))
  | .T k, [t] => some (k t)
  | .I k, [i1, i0] => some (k (be16 i1 i0))
  | .LP k, [l1, l0, p] => some (k (be16 l1 l0) p)
  | .F k, [fam] => some (k fam)
  | .FT k, [fam, t] => some (k fam t)
  | .FTD k, [fam, tag, dec] => some (k fam tag dec)
  | .OF k, [o1, o0, fam] => some (k (be16 o1 o0) fam)
  | _, _ => none

/-- `DecodeCommand` of R113, total on any byte string. -/
def decode (cmd : List Byte) : Except Reject Instr :=
  match cmd with
  | [] => .error .emptyCommand
  | op :: args =>
    match shapeOf op with
    | none => .error .unassignedOpcode
    | some sh =>
      match sh.dataLen args with
      | none => .error .prefixCutShort
      | some n =>
        if cmd.length = sh.fixedLen + n then
          match sh.operands args with
          | some i => .ok i
          | none => .error .wrongLength
        else .error .wrongLength

/-! The host's reading of a table row (notes/assumptions/11.md). -/

/-- The length R113 computes for the command that starts with these bytes, taking a byte that is not there as 0;
1 for an unassigned opcode. -/
def tableLength (bytes : List Byte) : Nat :=
  match bytes with
  | [] => 1
  | op :: args =>
    match shapeOf op with
    | none => 1
    | some sh => sh.fixedLen + (sh.dataLen (args ++ zeros 4)).getD 0

/-- The command whose bits are `w`, numbered as spec/opcode_table.json numbers them, of which the table gives the
low `nbits`; every other bit is 0. It is as long as R113 says. -/
def tableCommand (nbits w : Nat) : List Byte :=
  let bytes := littleEndianBytes (nbits / 8) w
  let len := tableLength bytes
  (bytes ++ zeros len).take len

/-- What the decoder reads from a table row's bits. -/
def decodeTableWord (nbits w : Nat) : Option Instr := (decode (tableCommand nbits w)).toOption

/-! The encoder, row by row from R112 and R111. -/

/-- A `u16` operand. -/
def encHalf (v : Half) : List Byte := bytes16 v.toNat

/-- A `u32` operand. -/
def encWord (v : Word) : List Byte := bytes32 v.toNat

/-- The bytes of a well-formed command (R111, R112). -/
def encode : Instr → List Byte
  | .bufLoad data => 0x01 :: (bytes16 data.length ++ data)
  | .bufSetlen n => 0x02 :: (encHalf n)
  | .bufGetlen => [0x03]
  | .fldGetU8 off => 0x04 :: (encHalf off)
  | .fldGetU16 off => 0x05 :: (encHalf off)
  | .fldGetU32 off => 0x06 :: (encHalf off)
  | .fldSetU8 off v => 0x07 :: (encHalf off ++ encWord v)
  | .fldSetU16 off v => 0x08 :: (encHalf off ++ encWord v)
  | .fldSetU32 off v => 0x09 :: (encHalf off ++ encWord v)
  | .fldGetBits off sh w => 0x0A :: (encHalf off ++ [sh, w])
  | .fldSetBits off sh w v => 0x0B :: (encHalf off ++ [sh, w] ++ encWord v)
  | .fldGetBytes off n => 0x0C :: (encHalf off ++ encHalf n)
  | .fldSetBytes off data => 0x0D :: (encHalf off ++ bytes16 data.length ++ data)
  | .ctxSetSrc addr => 0x10 :: (bytes8 addr.length ++ addr)
  | .ctxSetDst addr => 0x11 :: (bytes8 addr.length ++ addr)
  | .csumCompute len p => 0x12 :: (encHalf len ++ [p])
  | .csumVerify len p => 0x13 :: (encHalf len ++ [p])
  | .csumWrite len p => 0x14 :: (encHalf len ++ [p])
  | .tc8Decode code => [0x18, code]
  | .tc8Encode v => 0x19 :: (encWord v)
  | .tc16Decode code => 0x1A :: (encHalf code)
  | .tc16Encode v => 0x1B :: (encWord v)
  | .grNew fam rtype => [0x20, fam, rtype]
  | .grGetType => [0x21]
  | .grSetType rtype => [0x22, rtype]
  | .grGetGroup => [0x23]
  | .grSetGroup addr => 0x24 :: (bytes8 addr.length ++ addr)
  | .grGetNsrc => [0x25]
  | .grGetSrc i => 0x26 :: (encHalf i)
  | .grAddSrc addr => 0x27 :: (bytes8 addr.length ++ addr)
  | .grClearSrc => [0x28]
  | .grGetAuxlen => [0x29]
  | .grGetAux => [0x2A]
  | .grSetAux data => 0x2B :: (bytes16 data.length ++ data)
  | .grLength => [0x2C]
  | .grDecode off fam => 0x2D :: (encHalf off ++ [fam])
  | .grEncode off => 0x2E :: (encHalf off)
  | .grPeekLength off fam => 0x2F :: (encHalf off ++ [fam])
  | .msgNew variant => [0x30, variant]
  | .msgGetVariant => [0x31]
  | .msgGetGroup => [0x32]
  | .msgSetGroup addr => 0x33 :: (bytes8 addr.length ++ addr)
  | .msgGetMaxrespCode => [0x34]
  | .msgSetMaxrespCode v => 0x35 :: (encWord v)
  | .msgGetMaxrespTime => [0x36]
  | .msgSetMaxrespTime ms => 0x37 :: (encWord ms)
  | .msgGetS => [0x38]
  | .msgSetS v => 0x39 :: (encWord v)
  | .msgGetQrv => [0x3A]
  | .msgSetQrv v => 0x3B :: (encWord v)
  | .msgGetQqic => [0x3C]
  | .msgSetQqic v => 0x3D :: (encWord v)
  | .msgGetQqi => [0x3E]
  | .msgSetQqi v => 0x3F :: (encWord v)
  | .msgGetNsrc => [0x40]
  | .msgGetSrc i => 0x41 :: (encHalf i)
  | .msgAddSrc addr => 0x42 :: (bytes8 addr.length ++ addr)
  | .msgClearSrc => [0x43]
  | .msgGetNrec => [0x44]
  | .msgGetRec i => 0x45 :: (encHalf i)
  | .msgAddRec => [0x46]
  | .msgClearRec => [0x47]
  | .msgLength => [0x48]
  | .msgEncode cap => 0x49 :: (encHalf cap)
  | .regRegister fam tag dec => [0x50, fam, tag, dec]
  | .regLookup fam tag => [0x51, fam, tag]
  | .regBuild => [0x52]
  | .regSeal => [0x53]
  | .parse fam => [0x54, fam]

end Sys2Proof
end

