-- ==== Sys2Proof/Config.lean ====
section
/-! DEFINITION. Config.lean: the two implementation parameters, N_CTX and BUF_CAP (spec/00_scope.md R7). The spec
leaves both open, so the model takes them as an argument of reset (`Machine.State.resetWith`). And the one free value:
what a u32 answer holds for a length that does not fit it. -/

namespace Sys2Proof.Config

/-- The parameters of one block (R7). Neither has a value in the source; neither ever changes. -/
structure Params where
  /-- `N_CTX`, the number of client contexts. -/
  nCtx : Nat
  /-- `BUF_CAP`, the capacity in bytes of each context's message buffer. -/
  bufCap : Nat
deriving DecidableEq, Repr

/-- The legal ranges of R7: 1 ≤ N_CTX ≤ 256 and 28 ≤ BUF_CAP ≤ 65535. -/
def Params.legal (p : Params) : Bool :=
  decide (1 ≤ p.nCtx ∧ p.nCtx ≤ 256 ∧ 28 ≤ p.bufCap ∧ p.bufCap ≤ 65535)

/-- The values R7 assumes in its examples (N_CTX = 1, BUF_CAP = 65535). DESIGN CHOICE, unsafe: only the fixed
name `State.reset` uses them (notes/assumptions/1.md). -/
def assumed : Params := { nCtx := 1, bufCap := 65535 }

/-- FREE VALUE: the u32 that `MSG_LENGTH` answers for a message of the given length when that is 2^32 or more. R15 says
that no such length occurs, yet R28 and R30 allow it, and no rule states the answer. DESIGN CHOICE, safe as to the value
(notes/assumptions/17.md): nothing in Lean can tell what it is. -/
opaque lengthBeyondU32 : Nat → Word

end Sys2Proof.Config
end

