-- ==== Sys2Proof/Machine/State.lean ====
section
/-! DEFINITION. Machine/State.lean: the state of the block (spec/10_state.md), the host's side of the interface
(spec/60_exceptions.md R330) and reset (spec/70_reset_and_hazards.md R350). Plain data throughout. -/

namespace Sys2Proof.Machine

/-- Why the machine stops with a fault: never. The block's two faults (R322) are sticky state, taken as a NEXT state
by `State.takeFault`, and every error is a response (R320), so no step raises one and the type has no constructor
(safe: notes/assumptions/9.md). -/
inductive Fault where
deriving DecidableEq, Repr

/-- Why the machine gives an instruction no meaning. -/
inductive Refusal where
  /-- Raised only by an arm of `exec` whose instruction has no meaning yet: no arm, at present. Safe: a refused step
  proves nothing about the block. -/
  | notModelled (mnemonic : String)
deriving DecidableEq, Repr

/-- An address family, `fam` of R14. -/
inductive Family where
  /-- 0: IGMP, carried over IPv4. -/
  | igmp
  /-- 1: MLD, carried over IPv6. -/
  | mld
deriving DecidableEq, Repr

/-- The ten message variants of R27, in the order of their ids 0 to 9. -/
inductive Variant where
  | igmpv2Query
  | igmpv3Query
  | igmpv2Report
  | igmpv2Leave
  | igmpv3Report
  | mldv1Query
  | mldv2Query
  | mldv1Report
  | mldv1Done
  | mldv2Report
deriving DecidableEq, Repr

/-- A sparse table of bytes: (address, byte) pairs, addresses strictly rising, no byte equal to 0, which is what an
unlisted address reads as (every byte of `BUF` and every entry of `REG` is 0 at reset, R350). -/
abbrev Memory := List Host.Cell

/-- A group-record value (R30). Its counts are computed, never stored (R32). -/
structure Record where
  /-- The address family, fixed when the record is created. -/
  fam : Family
  /-- The record type, 1 to 6 (R31): the wire byte. -/
  rtype : Byte
  /-- The group address, `AW(fam)` bytes. -/
  group : List Byte
  /-- The source addresses, `AW(fam)` bytes each, in insertion order. -/
  srcs : List (List Byte)
  /-- The auxiliary data, a multiple of 4 bytes. -/
  aux : List Byte
deriving DecidableEq, Repr

/-- A message value (R27, R28). A field its variant does not have (R29) is never read (R240); it holds zero or empty
(notes/assumptions/4.md). No tag, checksum, count or reserved field is stored. -/
structure Message where
  variant : Variant
  /-- `group`: the group or multicast address. -/
  group : List Byte
  /-- `mrc`: the raw max-response code, 8 bits of it for IGMP. -/
  mrc : BitVec 16
  /-- `s`: suppress router-side processing. -/
  sFlag : BitVec 1
  /-- `qrv`: the querier's robustness variable. -/
  qrv : BitVec 3
  /-- `qqic`: the querier's query-interval code. -/
  qqic : BitVec 8
  /-- `srcs`: the source addresses, in insertion order. -/
  srcs : List (List Byte)
  /-- `recs`: the group records, in insertion order. -/
  recs : List Record
deriving DecidableEq, Repr

/-- The private state of one context (R20). -/
structure Context where
  /-- `BUF[c]` (R26). -/
  buf : Memory
  /-- `BUF_LEN[c]` (R26). -/
  bufLen : Nat
  /-- `SRC[c]` (R33): 16 bytes. -/
  src : List Byte
  /-- `DST[c]` (R33): 16 bytes. -/
  dst : List Byte
  /-- `MSG_VALID[c]` (R27, R34). -/
  msgValid : Bool
  /-- `MSG[c]` (R27, R28). -/
  msg : Message
  /-- `GR_VALID[c]` (R30, R34). -/
  grValid : Bool
  /-- `GR[c]` (R30). -/
  gr : Record
deriving DecidableEq, Repr

/-- A host frame (R110): a context number and a command of the length the transport delivers. -/
structure Frame where
  ctx : Byte
  cmd : List Byte
deriving DecidableEq, Repr

/-- What the outside world does to the block: a frame (R330), or the external reset signal (R350). -/
inductive HostInput where
  | frame (f : Frame)
  | reset
deriving DecidableEq, Repr

/-- The whole machine: the block's state (R20) with its BUF_CAP, and the host's side of the interface. -/
structure State where
  /-- `BUF_CAP` (R7): a parameter, which no step changes. -/
  bufCap : Nat
  /-- `REG[0][t]` (R23): the decoder ids of the IGMP tags. -/
  regIgmp : Memory
  /-- `REG[1][t]` (R23): the decoder ids of the MLD tags. -/
  regMld : Memory
  /-- `SEALED` (R24). -/
  isSealed : Bool
  /-- `FAULT` (R25). -/
  fault : Bool
  /-- `FAULT_CAUSE` (R25). -/
  faultCause : Byte
  /-- The N_CTX contexts, in the order of their numbers (R20, R329). -/
  ctxs : List Context
  /-- The MODEL's own: the context number of the frame being executed (R110). -/
  cur : Byte
  /-- The MODEL's own: the host's inputs not yet consumed, the next one first (R69, R330). -/
  inputs : List HostInput
  /-- The MODEL's own: the responses given so far, the oldest first (R117, R330). -/
  responses : List (List Byte)
deriving DecidableEq, Repr

/-- A record register nothing has written. R350 leaves it unspecified and unobservable: DESIGN CHOICE
(notes/assumptions/3.md). -/
def Record.reset : Record :=
  { fam := .igmp, rtype := 1, group := List.replicate 4 0, srcs := [], aux := [] }

/-- A message register nothing has written. R350 leaves it unspecified and unobservable: DESIGN CHOICE
(notes/assumptions/2.md). -/
def Message.reset : Message :=
  { variant := .igmpv2Query, group := List.replicate 4 0, mrc := 0, sFlag := 0, qrv := 0, qqic := 0, srcs := [],
    recs := [] }

/-- One context after reset (R350). -/
def Context.reset : Context :=
  { buf := [], bufLen := 0, src := List.replicate 16 0, dst := List.replicate 16 0, msgValid := false,
    msg := Message.reset, grValid := false, gr := Record.reset }

/-- The block with the given parameters, right after reset (R350), with no input pending. -/
def State.resetWith (p : Config.Params) : State :=
  { bufCap := p.bufCap, regIgmp := [], regMld := [], isSealed := false, fault := false, faultCause := 0,
    ctxs := List.replicate p.nCtx Context.reset, cur := 0, inputs := [], responses := [] }

/-- The machine right after reset, with the parameter values R7 assumes in its examples (notes/assumptions/1.md). -/
def State.reset : State := State.resetWith Config.assumed

end Sys2Proof.Machine
end

