-- ==== Sys2Proof/Machine/Ops.lean ====
section
/-! DEFINITION. Machine/Ops.lean: the named operations every command is built from: the byte table behind `BUF` and
`REG`, the buffer accesses of spec/00_scope.md R12, the outcomes of R13 (respond, raise, fault) and the selection of
the frame's context (spec/30_encoding.md R110). -/

namespace Sys2Proof.Machine

/-! The byte table. -/

/-- The byte at an address; 0 where none is listed (R26, R350). -/
def Memory.read : Memory → Nat → Byte
  | [], _ => 0
  | (k, v) :: rest, a => if a = k then v else Memory.read rest a

/-- Store one byte, keeping the canonical form: storing 0 removes the entry. -/
def Memory.write : Memory → Nat → Byte → Memory
  | [], a, b => if b = 0 then [] else [(a, b)]
  | (k, v) :: rest, a, b =>
    if a < k then (if b = 0 then (k, v) :: rest else (a, b) :: (k, v) :: rest)
    else if a = k then (if b = 0 then rest else (a, b) :: rest)
    else (k, v) :: Memory.write rest a b

/-- The `n` bytes from address `a` up: `s[a..a+n)` of R11. -/
def Memory.readBytes (m : Memory) (a : Nat) : Nat → List Byte
  | 0 => []
  | n + 1 => m.read a :: Memory.readBytes m (a + 1) n

/-- Store a byte string at address `a` and up. -/
def Memory.writeBytes (m : Memory) (a : Nat) : List Byte → Memory
  | [] => m
  | b :: bs => Memory.writeBytes (m.write a b) (a + 1) bs

/-- The table that holds a byte string at address `a` and up, and 0 elsewhere. -/
def Memory.ofBytes (a : Nat) : List Byte → Memory
  | [] => []
  | b :: bs => if b = 0 then Memory.ofBytes (a + 1) bs else (a, b) :: Memory.ofBytes (a + 1) bs

/-- Set the bytes at addresses `lo ≤ k < hi` to 0 (the loop of R142). -/
def Memory.zeroRange (m : Memory) (lo hi : Nat) : Memory :=
  m.filter fun cell => decide (cell.1 < lo ∨ hi ≤ cell.1)

/-- `be16(m, k)` of R11. -/
def Memory.u16 (m : Memory) (k : Nat) : Nat := (m.read k).toNat * 256 + (m.read (k + 1)).toNat

/-- The canonical form from address `lo` up: addresses strictly rising, no listed 0. -/
def Memory.wfFrom (lo : Nat) : Memory → Bool
  | [] => true
  | (k, v) :: rest => decide (lo ≤ k) && decide (v ≠ 0) && Memory.wfFrom (k + 1) rest

/-- The canonical form: equal tables are equal data. -/
def Memory.wf (m : Memory) : Bool := Memory.wfFrom 0 m

/-- Every listed address is below `hi`: every byte from `hi` up is 0 (the zero tail of R26). -/
def Memory.below (m : Memory) (hi : Nat) : Bool := m.all fun cell => decide (cell.1 < hi)

/-! Outcomes. -/

/-- The error statuses (R118, R321). -/
inductive ErrorStatus where
  | bufferTooShort
  | unknownMessageType
  | ambiguousLengthVariant
  | checksumMismatch
  | invalidRecordType
  | invalidAddressFamily
  | invalidAddressLength
  | fieldNotPresent
  | indexOutOfRange
  | countOverflow
  | invalidAuxDataLength
  | invalidOperand
  | noMessage
  | noRecord
  | invalidRegistration
deriving DecidableEq, Repr

/-- The status byte of an error (R118). -/
def ErrorStatus.code : ErrorStatus → Byte
  | .bufferTooShort => 0x01
  | .unknownMessageType => 0x02
  | .ambiguousLengthVariant => 0x03
  | .checksumMismatch => 0x04
  | .invalidRecordType => 0x05
  | .invalidAddressFamily => 0x06
  | .invalidAddressLength => 0x07
  | .fieldNotPresent => 0x10
  | .indexOutOfRange => 0x11
  | .countOverflow => 0x12
  | .invalidAuxDataLength => 0x13
  | .invalidOperand => 0x14
  | .noMessage => 0x15
  | .noRecord => 0x16
  | .invalidRegistration => 0x17

/-- The status byte of success (R118). -/
def statusOk : Byte := 0x00

/-- The status byte of a faulted block (R118, R322). -/
def statusFaulted : Byte := 0xFF

/-- The causes of the sticky fault (R25, R322). -/
inductive FaultCause where
  | registryWriteAfterSeal
  | illegalCommand
deriving DecidableEq, Repr

/-- The code of a cause (R25, R322). -/
def FaultCause.code : FaultCause → Byte
  | .registryWriteAfterSeal => 1
  | .illegalCommand => 2

/-- The outcome of one step of this machine. -/
abbrev StepResult := Host.Outcome State Fault Refusal

/-- Give one response, after those given before (R117, R330). -/
def State.emit (s : State) (r : List Byte) : State := { s with responses := s.responses ++ [r] }

/-- `respond(p)` of R13: status OK and the payload. -/
def State.respond (s : State) (payload : List Byte) : StepResult := .next (s.emit (statusOk :: payload))

/-- `raise E` of R13: the error's status, no payload, no state written (R320). -/
def State.raise (s : State) (e : ErrorStatus) : StepResult := .next (s.emit [e.code])

/-- TAKING A FAULT, `fault(cause)` of R322: set FAULT and FAULT_CAUSE, answer `[FF, cause]`, write nothing else. No
state is saved and control goes nowhere (R326), and there is no return (R327). -/
def State.takeFault (s : State) (cause : FaultCause) : StepResult :=
  .next ({ s with fault := true, faultCause := cause.code }.emit [statusFaulted, cause.code])

/-- The answer of a block that is faulted already (R323): nothing changes. -/
def State.answerFaulted (s : State) : StepResult := .next (s.emit [statusFaulted, s.faultCause])

/-! The frame's context. -/

/-- `N_CTX` (R7). -/
def State.nCtx (s : State) : Nat := s.ctxs.length

/-- The context of the frame being executed (R110), if it exists. -/
def State.ctx? (s : State) : Option Context := s.ctxs[s.cur.toNat]?

/-- Write the private state of the frame's context; every other context keeps its own (R20). -/
def State.setCtx (s : State) (c : Context) : State := { s with ctxs := s.ctxs.set s.cur.toNat c }

/-- What a command that touches only its own context does: an error, or the new private state and the payload. -/
abbrev CmdResult := Except ErrorStatus (Context × List Byte)

/-- Run a command in the frame's context; a context that does not exist is the fault IllegalCommand (R110). -/
def State.inCtx (s : State) (run : Context → StepResult) : StepResult :=
  match s.ctx? with
  | none => s.takeFault .illegalCommand
  | some c => run c

/-- Commit the result of a command: on an error nothing is written (R320). -/
def State.commit (s : State) (r : CmdResult) : StepResult :=
  match r with
  | .error e => s.raise e
  | .ok (c, payload) => (s.setCtx c).respond payload

/-- Run a command that touches only its own context. -/
def State.runCtx (s : State) (rule : Context → CmdResult) : StepResult :=
  s.inCtx fun c => s.commit (rule c)

/-! Buffer accesses (R12, R65). -/

/-- `BufRead(c, off, n)` of R12: needs `off + n ≤ BUF_LEN[c]`. -/
def Context.bufRead (c : Context) (off n : Nat) : Except ErrorStatus (List Byte) :=
  if off + n ≤ c.bufLen then .ok (c.buf.readBytes off n) else .error .bufferTooShort

/-- `BufWrite(c, off, s)` of R12: needs `off + len(s) ≤ BUF_LEN[c]`. -/
def Context.bufWrite (c : Context) (off : Nat) (bytes : List Byte) : Except ErrorStatus Context :=
  if off + bytes.length ≤ c.bufLen then .ok { c with buf := c.buf.writeBytes off bytes }
  else .error .bufferTooShort

/-- Replace the whole buffer: `BUF[c] <- s ++ zeros(BUF_CAP - len(s)); BUF_LEN[c] <- len(s)` (R141, R268). -/
def Context.bufReplace (c : Context) (bytes : List Byte) : Context :=
  { c with buf := Memory.ofBytes 0 bytes, bufLen := bytes.length }

/-- Set the buffer length: `BUF[c][k] <- 0` for `n ≤ k < BUF_LEN[c]`, then `BUF_LEN[c] <- n` (R142). -/
def Context.bufSetLen (c : Context) (n : Nat) : Context :=
  { c with buf := c.buf.zeroRange n c.bufLen, bufLen := n }

/-! The registry table (R23). -/

/-- `REG[f]`, one family's table. -/
def State.regOf (s : State) : Family → Memory
  | .igmp => s.regIgmp
  | .mld => s.regMld

/-- `REG[f][t]`. -/
def State.regRead (s : State) (f : Family) (tag : Byte) : Byte := (s.regOf f).read tag.toNat

/-- `REG[f][t] <- d`. -/
def State.regWrite (s : State) (f : Family) (tag dec : Byte) : State :=
  match f with
  | .igmp => { s with regIgmp := s.regIgmp.write tag.toNat dec }
  | .mld => { s with regMld := s.regMld.write tag.toNat dec }

end Sys2Proof.Machine
end

