-- ==== Sys2Proof/Machine/Operands.lean ====
section
/-! DEFINITION. Machine/Operands.lean: the operand codes of spec/30_encoding.md R115, the constant tables they select
(spec/00_scope.md R8, R14; spec/10_state.md R23, R27, R29) and the truncation of R116. -/

namespace Sys2Proof.Machine

/-! Families. -/

/-- A `fam` operand: 0 IGMP, 1 MLD, else illegal (R115). -/
def familyOf (fam : Byte) : Option Family :=
  match fam.toNat with
  | 0 => some .igmp
  | 1 => some .mld
  | _ => none

/-- The number of a family (R14). -/
def Family.id : Family → Byte
  | .igmp => 0
  | .mld => 1

/-- `AW(fam)` of R14: the address width in bytes. -/
def Family.aw : Family → Nat
  | .igmp => 4
  | .mld => 16

/-- The mantissa width of a family's max-response code (R190, R249): 8-bit codes for IGMP, 16-bit codes for MLD. -/
def Family.mantissa : Family → Nat
  | .igmp => 4
  | .mld => 12

/-- Whether a family's checksum takes the IPv6 pseudo-header (R268, R299): MLD only. -/
def Family.pseudo : Family → Bool
  | .igmp => false
  | .mld => true

/-! Variants. -/

/-- A `variant` operand: 0 to 9, else illegal (R115). -/
def variantOf (variant : Byte) : Option Variant :=
  match variant.toNat with
  | 0 => some .igmpv2Query
  | 1 => some .igmpv3Query
  | 2 => some .igmpv2Report
  | 3 => some .igmpv2Leave
  | 4 => some .igmpv3Report
  | 5 => some .mldv1Query
  | 6 => some .mldv2Query
  | 7 => some .mldv1Report
  | 8 => some .mldv1Done
  | 9 => some .mldv2Report
  | _ => none

/-- The id of a variant (R27). -/
def Variant.id : Variant → Byte
  | .igmpv2Query => 0
  | .igmpv3Query => 1
  | .igmpv2Report => 2
  | .igmpv2Leave => 3
  | .igmpv3Report => 4
  | .mldv1Query => 5
  | .mldv2Query => 6
  | .mldv1Report => 7
  | .mldv1Done => 8
  | .mldv2Report => 9

/-- `FAM(v)` of R27. -/
def Variant.fam : Variant → Family
  | .igmpv2Query | .igmpv3Query | .igmpv2Report | .igmpv2Leave | .igmpv3Report => .igmp
  | .mldv1Query | .mldv2Query | .mldv1Report | .mldv1Done | .mldv2Report => .mld

/-- `TAG(v)` of R27. -/
def Variant.tag : Variant → Byte
  | .igmpv2Query | .igmpv3Query => 0x11
  | .igmpv2Report => 0x16
  | .igmpv2Leave => 0x17
  | .igmpv3Report => 0x22
  | .mldv1Query | .mldv2Query => 0x82
  | .mldv1Report => 0x83
  | .mldv1Done => 0x84
  | .mldv2Report => 0x8F

/-- `FIXED(v)` of R27: the fixed length in bytes. -/
def Variant.fixedLen : Variant → Nat
  | .igmpv2Query | .igmpv2Report | .igmpv2Leave | .igmpv3Report => 8
  | .igmpv3Query => 12
  | .mldv1Query | .mldv1Report | .mldv1Done => 24
  | .mldv2Query => 28
  | .mldv2Report => 8

/-- `HAS_GROUP` of R29. -/
def Variant.hasGroup : Variant → Bool
  | .igmpv3Report | .mldv2Report => false
  | .igmpv2Query | .igmpv3Query | .igmpv2Report | .igmpv2Leave | .mldv1Query | .mldv2Query | .mldv1Report
  | .mldv1Done => true

/-- `QUERY` of R29. -/
def Variant.isQuery : Variant → Bool
  | .igmpv2Query | .igmpv3Query | .mldv1Query | .mldv2Query => true
  | .igmpv2Report | .igmpv2Leave | .igmpv3Report | .mldv1Report | .mldv1Done | .mldv2Report => false

/-- `EXTQ` of R29: the extended queries. -/
def Variant.isExtQuery : Variant → Bool
  | .igmpv3Query | .mldv2Query => true
  | .igmpv2Query | .igmpv2Report | .igmpv2Leave | .igmpv3Report | .mldv1Query | .mldv1Report | .mldv1Done
  | .mldv2Report => false

/-- `REPORT3` of R29: the record-carrying reports. -/
def Variant.isReport3 : Variant → Bool
  | .igmpv3Report | .mldv2Report => true
  | .igmpv2Query | .igmpv3Query | .igmpv2Report | .igmpv2Leave | .mldv1Query | .mldv2Query | .mldv1Report
  | .mldv1Done => false

/-! Decoders. -/

/-- The largest decoder id (R115). -/
def maxDecoder : Nat := 8

/-- `Canon(d)` of R291: the one entry a decoder may be registered at. -/
def canon (dec : Byte) : Option (Family × Byte) :=
  match dec.toNat with
  | 1 => some (.igmp, 0x11)
  | 2 => some (.igmp, 0x16)
  | 3 => some (.igmp, 0x17)
  | 4 => some (.igmp, 0x22)
  | 5 => some (.mld, 0x82)
  | 6 => some (.mld, 0x83)
  | 7 => some (.mld, 0x84)
  | 8 => some (.mld, 0x8F)
  | _ => none

/-- `DecVariant(d)` of R291, for the decoders that yield one variant. -/
def decVariant (dec : Byte) : Option Variant :=
  match dec.toNat with
  | 2 => some .igmpv2Report
  | 3 => some .igmpv2Leave
  | 4 => some .igmpv3Report
  | 6 => some .mldv1Report
  | 7 => some .mldv1Done
  | 8 => some .mldv2Report
  | _ => none

/-! Other operands. -/

/-- A `p` operand: 0 no pseudo-header, 1 the IPv6 pseudo-header, else illegal (R115). -/
def pseudoOf (p : Byte) : Option Bool :=
  match p.toNat with
  | 0 => some false
  | 1 => some true
  | _ => none

/-- A bit-field descriptor is legal iff 1 ≤ w ≤ 8 and sh + w ≤ 8 (R115). -/
def bitsLegal (sh w : Byte) : Bool := decide (1 ≤ w.toNat ∧ w.toNat ≤ 8 ∧ sh.toNat + w.toNat ≤ 8)

/-- A record type is one of 1 to 6 (R31, R106). -/
def rtypeLegal (rtype : Byte) : Bool := decide (1 ≤ rtype.toNat ∧ rtype.toNat ≤ 6)

/-- The most entries a `u16` count can declare (R28, R30). -/
def maxCount : Nat := 65535

end Sys2Proof.Machine
end

