-- ==== Sys2Proof/Machine/Flags.lean ====
section
/-! DEFINITION. Machine/Flags.lean: the four flags of spec/10_state.md R34, who sets each, and the checks that read
`MSG_VALID` and `GR_VALID` (spec/45_message.md R240, spec/44_group_record.md R210). `FAULT` is set by
`State.takeFault` (Ops.lean) and read by `runFrame` (Frame.lean). No command clears a flag. -/

namespace Sys2Proof.Machine

/-- `SEALED <- 1` (R24, R295, R301). -/
def State.seal (s : State) : State := { s with isSealed := true }

/-- `MSG[c] <- m; MSG_VALID[c] <- 1` (R243, R301). -/
def Context.loadMsg (c : Context) (m : Message) : Context := { c with msg := m, msgValid := true }

/-- `GR[c] <- g; GR_VALID[c] <- 1` (R212, R226, R264). -/
def Context.loadRec (c : Context) (g : Record) : Context := { c with gr := g, grValid := true }

/-- The checks of R240, in its order: a message is held, and its variant has the field. -/
def Context.withMsg (c : Context) (present : Variant → Bool) (run : Message → CmdResult) : CmdResult :=
  if c.msgValid = false then .error .noMessage
  else if present c.msg.variant = false then .error .fieldNotPresent
  else run c.msg

/-- The check of R210: a record is held. -/
def Context.withRec (c : Context) (run : Record → CmdResult) : CmdResult :=
  if c.grValid = false then .error .noRecord else run c.gr

end Sys2Proof.Machine
end

