-- ==== Sys2Proof/Machine/Checksum.lean ====
section
/-! DEFINITION. Machine/Checksum.lean: the checksum engine (spec/42_checksum.md R170 to R180). -/

namespace Sys2Proof.Machine

/-- The sum of the big-endian 16-bit words of a byte string; an odd last byte is the high byte of a word whose low
byte is 0 (R170, R172). -/
def wordSum : List Byte → Nat
  | [] => 0
  | [hi] => hi.toNat * 256
  | hi :: lo :: rest => hi.toNat * 256 + lo.toNat + wordSum rest

/-- Carry folding, `fuel` times at most (R171). -/
def foldUpTo : Nat → Nat → Nat
  | 0, acc => acc
  | fuel + 1, acc => if acc < 2 ^ 16 then acc else foldUpTo fuel (acc % 2 ^ 16 + acc / 2 ^ 16)

/-- Carry folding until no carry is left (R171). A fold of an accumulator of 2^16 or more makes it smaller, so the
accumulator itself bounds the number of folds. -/
def foldCarries (acc : Nat) : Nat := foldUpTo acc acc

/-- The checksum field, bytes 2 and 3, summed as zero whatever it holds; bytes beyond the end are not there (R173). -/
def zeroChecksumField (d : List Byte) : List Byte := (d.set 2 0).set 3 0

/-- The 40 bytes of the IPv6 pseudo-header for a span of `len` bytes (R174). -/
def pseudoHeader (src dst : List Byte) (len : Nat) : List Byte := src ++ dst ++ bytes32 len ++ [0, 0, 0, 58]

/-- The word sum that the pseudo-header adds when `p` selects it (R170). -/
def pseudoSum (src dst : List Byte) (len : Nat) (p : Bool) : Nat :=
  if p then wordSum (pseudoHeader src dst len) else 0

/-- The checksum of a byte string, with or without the pseudo-header (R170). -/
def checksumOf (src dst d : List Byte) (p : Bool) : Nat :=
  0xFFFF - foldCarries (pseudoSum src dst d.length p + wordSum (zeroChecksumField d))

/-- `Csum(c, len, p)` of R170: a function of the first `len` bytes of the buffer and, for p = 1, of SRC and DST. It
writes no state. -/
def Context.csum (c : Context) (len : Nat) (p : Bool) : Nat := checksumOf c.src c.dst (c.buf.readBytes 0 len) p

/-- Store a checksum in the checksum field, offset 2 (R179, R268). -/
def Context.storeChecksum (c : Context) (v : Nat) : Context := { c with buf := c.buf.writeBytes 2 (bytes16 v) }

/-- `CTX_SET_SRC addr` (R175). -/
def execCtxSetSrc (addr : List Byte) (s : State) : StepResult :=
  s.runCtx fun c => if addr.length ≠ 16 then .error .invalidAddressLength else .ok ({ c with src := addr }, [])

/-- `CTX_SET_DST addr` (R176). -/
def execCtxSetDst (addr : List Byte) (s : State) : StepResult :=
  s.runCtx fun c => if addr.length ≠ 16 then .error .invalidAddressLength else .ok ({ c with dst := addr }, [])

/-- `CSUM_COMPUTE len, p` (R177). -/
def execCsumCompute (len : Half) (p : Byte) (s : State) : StepResult :=
  s.runCtx fun c =>
    match pseudoOf p with
    | none => .error .invalidOperand
    | some ph =>
      if c.bufLen < len.toNat then .error .bufferTooShort
      else .ok (c, bytes16 (c.csum len.toNat ph))

/-- `CSUM_VERIFY len, p` (R178): a mismatch is the answer 0, no error. -/
def execCsumVerify (len : Half) (p : Byte) (s : State) : StepResult :=
  s.runCtx fun c =>
    match pseudoOf p with
    | none => .error .invalidOperand
    | some ph =>
      if c.bufLen < len.toNat ∨ c.bufLen < 4 then .error .bufferTooShort
      else .ok (c, bytes8 (if c.csum len.toNat ph = c.buf.u16 2 then 1 else 0))

/-- `CSUM_WRITE len, p` (R179). -/
def execCsumWrite (len : Half) (p : Byte) (s : State) : StepResult :=
  s.runCtx fun c =>
    match pseudoOf p with
    | none => .error .invalidOperand
    | some ph =>
      if c.bufLen < len.toNat ∨ c.bufLen < 4 then .error .bufferTooShort
      else .ok (c.storeChecksum (c.csum len.toNat ph), bytes16 (c.csum len.toNat ph))

end Sys2Proof.Machine
end

