-- ==== Sys2Proof/Machine/Fields.lean ====
section
/-! DEFINITION. Machine/Fields.lean: the field codec primitives (spec/41_fields.md R140 to R154). Every command of the
family touches only `BUF[c]` and `BUF_LEN[c]`; a setter stores the low bits of its operand (R140). -/

namespace Sys2Proof.Machine

/-- A get of `n` bytes at `off`: the payload is the bytes in buffer order, which is the big-endian value (R61). -/
def Context.getField (c : Context) (off n : Nat) : CmdResult :=
  match c.bufRead off n with
  | .error e => .error e
  | .ok bytes => .ok (c, bytes)

/-- A set of the bytes at `off`; no payload. -/
def Context.setField (c : Context) (off : Nat) (bytes : List Byte) : CmdResult :=
  match c.bufWrite off bytes with
  | .error e => .error e
  | .ok c' => .ok (c', [])

/-- The field of bits `sh+w-1` down to `sh` of a byte (R62, R150). -/
def bitsOf (b sh w : Nat) : Nat := (b >>> sh) &&& (2 ^ w - 1)

/-- A byte with its bits `sh+w-1` down to `sh` replaced by the low `w` bits of `v` (R151). -/
def bitsInto (b sh w v : Nat) : Nat :=
  let m := (2 ^ w - 1) <<< sh
  (b &&& (0xFF - m)) ||| ((v <<< sh) &&& m)

/-- `BUF_LOAD data` (R141). -/
def execBufLoad (data : List Byte) (s : State) : StepResult :=
  s.runCtx fun c =>
    if s.bufCap < data.length then .error .bufferTooShort else .ok (c.bufReplace data, [])

/-- `BUF_SETLEN n` (R142). -/
def execBufSetlen (n : Half) (s : State) : StepResult :=
  s.runCtx fun c =>
    if s.bufCap < n.toNat then .error .bufferTooShort else .ok (c.bufSetLen n.toNat, [])

/-- `BUF_GETLEN` (R143). -/
def execBufGetlen (s : State) : StepResult :=
  s.runCtx fun c => .ok (c, bytes16 c.bufLen)

/-- `FLD_GET_U8 off` (R144). -/
def execFldGetU8 (off : Half) (s : State) : StepResult := s.runCtx fun c => c.getField off.toNat 1

/-- `FLD_GET_U16 off` (R145). -/
def execFldGetU16 (off : Half) (s : State) : StepResult := s.runCtx fun c => c.getField off.toNat 2

/-- `FLD_GET_U32 off` (R146). -/
def execFldGetU32 (off : Half) (s : State) : StepResult := s.runCtx fun c => c.getField off.toNat 4

/-- `FLD_SET_U8 off, v` (R147). -/
def execFldSetU8 (off : Half) (v : Word) (s : State) : StepResult :=
  s.runCtx fun c => c.setField off.toNat (bytes8 v.toNat)

/-- `FLD_SET_U16 off, v` (R148). -/
def execFldSetU16 (off : Half) (v : Word) (s : State) : StepResult :=
  s.runCtx fun c => c.setField off.toNat (bytes16 v.toNat)

/-- `FLD_SET_U32 off, v` (R149). -/
def execFldSetU32 (off : Half) (v : Word) (s : State) : StepResult :=
  s.runCtx fun c => c.setField off.toNat (bytes32 v.toNat)

/-- `FLD_GET_BITS off, sh, w` (R150): the descriptor is checked first. -/
def execFldGetBits (off : Half) (sh w : Byte) (s : State) : StepResult :=
  s.runCtx fun c =>
    if bitsLegal sh w = false then .error .invalidOperand
    else
      match c.bufRead off.toNat 1 with
      | .error e => .error e
      | .ok _ => .ok (c, bytes8 (bitsOf (c.buf.read off.toNat).toNat sh.toNat w.toNat))

/-- `FLD_SET_BITS off, sh, w, v` (R151): one atomic read-modify-write (R72). -/
def execFldSetBits (off : Half) (sh w : Byte) (v : Word) (s : State) : StepResult :=
  s.runCtx fun c =>
    if bitsLegal sh w = false then .error .invalidOperand
    else c.setField off.toNat (bytes8 (bitsInto (c.buf.read off.toNat).toNat sh.toNat w.toNat v.toNat))

/-- `FLD_GET_BYTES off, n` (R152). -/
def execFldGetBytes (off n : Half) (s : State) : StepResult :=
  s.runCtx fun c =>
    match c.bufRead off.toNat n.toNat with
    | .error e => .error e
    | .ok bytes => .ok (c, payloadBytes bytes)

/-- `FLD_SET_BYTES off, data` (R153). -/
def execFldSetBytes (off : Half) (data : List Byte) (s : State) : StepResult :=
  s.runCtx fun c => c.setField off.toNat data

end Sys2Proof.Machine
end

