-- ==== Sys2Proof/Machine/GroupRecord.lean ====
section
/-! DEFINITION. Machine/GroupRecord.lean: the group record codec (spec/44_group_record.md R210 to R231; wire layout
spec/30_encoding.md R96, R100, R101). -/

namespace Sys2Proof.Machine

/-- `RecLen(fam, N, A)` of R101. -/
def recLen (fam : Family) (n a : Nat) : Nat := 4 + fam.aw + fam.aw * n + 4 * a

/-- `aux_data_len`, computed (R32). -/
def Record.auxLen (g : Record) : Nat := g.aux.length / 4

/-- `GrLen(g)` of R211. -/
def Record.len (g : Record) : Nat := recLen g.fam g.srcs.length g.auxLen

/-- The record `GR_NEW` makes (R212). -/
def Record.new (fam : Family) (rtype : Byte) : Record :=
  { fam := fam, rtype := rtype, group := zeros fam.aw, srcs := [], aux := [] }

/-- The most auxiliary data an 8-bit `aux_data_len` can declare, 255 * 4 bytes (R223). -/
def maxAux : Nat := 1020

/-- Auxiliary data padded with zero bytes to whole 32-bit words (R223). -/
def padAux (data : List Byte) : List Byte := data ++ zeros ((4 - data.length % 4) % 4)

/-- The `n` addresses of `aw` bytes that start at offset `p` (R225, R300). -/
def Memory.readAddrs (b : Memory) (p aw : Nat) : Nat → List (List Byte)
  | 0 => []
  | n + 1 => b.readBytes p aw :: Memory.readAddrs b (p + aw) aw n

/-- `DecodeRecord(b, off, fam, lim)` of R225: both length checks come before the type check. -/
def decodeRecord (b : Memory) (off : Nat) (fam : Family) (lim : Nat) : Except ErrorStatus (Record × Nat) :=
  if lim < off + 4 + fam.aw then .error .bufferTooShort
  else
    let t := b.read off
    let a := (b.read (off + 1)).toNat
    let n := b.u16 (off + 2)
    let l := recLen fam n a
    if lim < off + l then .error .bufferTooShort
    else if rtypeLegal t = false then .error .invalidRecordType
    else
      let p := off + 4 + fam.aw
      .ok ({ fam := fam, rtype := t, group := b.readBytes (off + 4) fam.aw, srcs := b.readAddrs p fam.aw n,
             aux := b.readBytes (p + fam.aw * n) (4 * a) }, off + l)

/-- `EncodeRecord(g)` of R227: the counts are written from the live fields. -/
def encodeRecord (g : Record) : List Byte :=
  [g.rtype, BitVec.ofNat 8 g.auxLen] ++ bytes16 g.srcs.length ++ g.group ++ g.srcs.flatten ++ g.aux

/-- `PeekRecordLength(b, off, fam, lim)` of R229. -/
def peekRecordLength (b : Memory) (off : Nat) (fam : Family) (lim : Nat) : Except ErrorStatus Nat :=
  if lim < off + 4 then .error .bufferTooShort
  else .ok (recLen fam (b.u16 (off + 2)) (b.read (off + 1)).toNat)

/-- `GR_NEW fam, rtype` (R212). -/
def execGrNew (fam rtype : Byte) (s : State) : StepResult :=
  s.runCtx fun c =>
    match familyOf fam with
    | none => .error .invalidOperand
    | some f => if rtypeLegal rtype = false then .error .invalidRecordType else .ok (c.loadRec (Record.new f rtype), [])

/-- `GR_GET_TYPE` (R213). -/
def execGrGetType (s : State) : StepResult := s.runCtx fun c => c.withRec fun g => .ok (c, [g.rtype])

/-- `GR_SET_TYPE rtype` (R214). -/
def execGrSetType (rtype : Byte) (s : State) : StepResult :=
  s.runCtx fun c => c.withRec fun g =>
    if rtypeLegal rtype = false then .error .invalidRecordType else .ok ({ c with gr := { g with rtype := rtype } }, [])

/-- `GR_GET_GROUP` (R215). -/
def execGrGetGroup (s : State) : StepResult := s.runCtx fun c => c.withRec fun g => .ok (c, payloadBytes g.group)

/-- `GR_SET_GROUP addr` (R216). -/
def execGrSetGroup (addr : List Byte) (s : State) : StepResult :=
  s.runCtx fun c => c.withRec fun g =>
    if addr.length ≠ g.fam.aw then .error .invalidAddressFamily else .ok ({ c with gr := { g with group := addr } }, [])

/-- `GR_GET_NSRC` (R217). -/
def execGrGetNsrc (s : State) : StepResult := s.runCtx fun c => c.withRec fun g => .ok (c, bytes16 g.srcs.length)

/-- `GR_GET_SRC i` (R218). -/
def execGrGetSrc (i : Half) (s : State) : StepResult :=
  s.runCtx fun c => c.withRec fun g =>
    match g.srcs[i.toNat]? with
    | none => .error .indexOutOfRange
    | some addr => .ok (c, payloadBytes addr)

/-- `GR_ADD_SRC addr` (R219): duplicates are kept. -/
def execGrAddSrc (addr : List Byte) (s : State) : StepResult :=
  s.runCtx fun c => c.withRec fun g =>
    if addr.length ≠ g.fam.aw then .error .invalidAddressLength
    else if maxCount ≤ g.srcs.length then .error .countOverflow
    else .ok ({ c with gr := { g with srcs := g.srcs ++ [addr] } }, [])

/-- `GR_CLEAR_SRC` (R220). -/
def execGrClearSrc (s : State) : StepResult :=
  s.runCtx fun c => c.withRec fun g => .ok ({ c with gr := { g with srcs := [] } }, [])

/-- `GR_GET_AUXLEN` (R221). -/
def execGrGetAuxlen (s : State) : StepResult := s.runCtx fun c => c.withRec fun g => .ok (c, bytes8 g.auxLen)

/-- `GR_GET_AUX` (R222). -/
def execGrGetAux (s : State) : StepResult := s.runCtx fun c => c.withRec fun g => .ok (c, payloadBytes g.aux)

/-- `GR_SET_AUX data` (R223). -/
def execGrSetAux (data : List Byte) (s : State) : StepResult :=
  s.runCtx fun c => c.withRec fun g =>
    if maxAux < data.length then .error .invalidAuxDataLength else .ok ({ c with gr := { g with aux := padAux data } }, [])

/-- `GR_LENGTH` (R224). -/
def execGrLength (s : State) : StepResult := s.runCtx fun c => c.withRec fun g => .ok (c, bytes32 g.len)

/-- `GR_DECODE off, fam` (R226). -/
def execGrDecode (off : Half) (fam : Byte) (s : State) : StepResult :=
  s.runCtx fun c =>
    match familyOf fam with
    | none => .error .invalidOperand
    | some f =>
      match decodeRecord c.buf off.toNat f c.bufLen with
      | .error e => .error e
      | .ok (g, nextOff) => .ok (c.loadRec g, bytes32 (nextOff - off.toNat))

/-- `GR_ENCODE off` (R228). -/
def execGrEncode (off : Half) (s : State) : StepResult :=
  s.runCtx fun c => c.withRec fun g =>
    match c.bufWrite off.toNat (encodeRecord g) with
    | .error e => .error e
    | .ok c' => .ok (c', bytes32 (encodeRecord g).length)

/-- `GR_PEEK_LENGTH off, fam` (R230). -/
def execGrPeekLength (off : Half) (fam : Byte) (s : State) : StepResult :=
  s.runCtx fun c =>
    match familyOf fam with
    | none => .error .invalidOperand
    | some f =>
      match peekRecordLength c.buf off.toNat f c.bufLen with
      | .error e => .error e
      | .ok l => .ok (c, bytes32 l)

end Sys2Proof.Machine
end

