-- ==== Sys2Proof/Machine/TimeCode.lean ====
section
/-! DEFINITION. Machine/TimeCode.lean: the time-code converter (spec/43_timecode.md R190 to R199). `M` is the mantissa
width: 4 for the 8-bit code, 12 for the 16-bit code. -/

namespace Sys2Proof.Machine

/-- `T(M)` of R190: a code or value below it is the linear value itself. -/
def tcThreshold (M : Nat) : Nat := 2 ^ (M + 3)

/-- The largest representable value, `(2^(M+1) - 1) << 10` (R191, R193). -/
def tcMax (M : Nat) : Nat := (2 ^ (M + 1) - 1) <<< 10

/-- `TcDecode(M, c)` of R191. -/
def tcDecode (M code : Nat) : Nat :=
  if code < tcThreshold M then code
  else
    let exp := (code >>> M) % 2 ^ 3
    let mant := code % 2 ^ M
    (mant ||| 2 ^ M) <<< (exp + 3)

/-- The smallest `e` from the given one up with `(v >> (e + 3)) < 2^(M+1)`, looking at `fuel` candidates (R192). -/
def tcExponentFrom (M v : Nat) : Nat → Nat → Nat
  | 0, e => e
  | fuel + 1, e => if v >>> (e + 3) < 2 ^ (M + 1) then e else tcExponentFrom M v fuel (e + 1)

/-- The exponent of R192; it is at most 7 for a value that is not above the largest representable one. -/
def tcExponent (M v : Nat) : Nat := tcExponentFrom M v 8 0

/-- `TcEncode(M, v)` of R192, rounding toward zero, saturating above the largest representable value (R193). -/
def tcEncode (M v : Nat) : Nat :=
  if v < tcThreshold M then v
  else if tcMax M < v then 2 ^ (M + 4) - 1
  else
    let e := tcExponent M v
    let mant := (v >>> (e + 3)) - 2 ^ M
    2 ^ (M + 3) ||| (e <<< M) ||| mant

/-- `TC8_DECODE code` (R194). -/
def execTc8Decode (code : Byte) (s : State) : StepResult :=
  s.runCtx fun c => .ok (c, bytes32 (tcDecode 4 code.toNat))

/-- `TC8_ENCODE v` (R195). -/
def execTc8Encode (v : Word) (s : State) : StepResult :=
  s.runCtx fun c => .ok (c, bytes8 (tcEncode 4 v.toNat))

/-- `TC16_DECODE code` (R196). -/
def execTc16Decode (code : Half) (s : State) : StepResult :=
  s.runCtx fun c => .ok (c, bytes32 (tcDecode 12 code.toNat))

/-- `TC16_ENCODE v` (R197). -/
def execTc16Encode (v : Word) (s : State) : StepResult :=
  s.runCtx fun c => .ok (c, bytes16 (tcEncode 12 v.toNat))

end Sys2Proof.Machine
end

