-- ==== Sys2Proof/Machine/Message.lean ====
section
/-! DEFINITION. Machine/Message.lean: the message variants (spec/45_message.md R240 to R269; wire layouts
spec/30_encoding.md R91 to R99, R102, R105). -/

namespace Sys2Proof.Machine

/-- The message `MSG_NEW` makes: every field zero or empty (R243). -/
def Message.new (v : Variant) : Message :=
  { variant := v, group := zeros v.fam.aw, mrc := 0, sFlag := 0, qrv := 0, qqic := 0, srcs := [], recs := [] }

/-- `MsgLen(m) = Span(m)` of R102 and R241, computed from the live lists. -/
def Message.len (m : Message) : Nat :=
  match m.variant with
  | .igmpv2Query | .igmpv2Report | .igmpv2Leave => 8
  | .igmpv3Query => 12 + 4 * m.srcs.length
  | .igmpv3Report => 8 + (m.recs.map Record.len).sum
  | .mldv1Query | .mldv1Report | .mldv1Done => 24
  | .mldv2Query => 28 + 16 * m.srcs.length
  | .mldv2Report => 8 + (m.recs.map Record.len).sum

/-- The query flags byte, `(s << 3) | qrv`, its reserved bits 0 (R94). -/
def queryFlags (sFlag : BitVec 1) (qrv : BitVec 3) : Byte := (0 : BitVec 4) ++ sFlag ++ qrv

/-- What an extended query has after its group address: flags byte, qqic, source count, sources (R93, R98). -/
def Message.queryTail (m : Message) : List Byte :=
  [queryFlags m.sFlag m.qrv, m.qqic] ++ bytes16 m.srcs.length ++ m.srcs.flatten

/-- What a record-carrying report has after its reserved field: record count, records (R95, R99). -/
def Message.reportTail (m : Message) : List Byte := bytes16 m.recs.length ++ (m.recs.map encodeRecord).flatten

/-- `Wire(m)` of R242: the message without its checksum, every reserved field 0 (R105). -/
def Message.wire (m : Message) : List Byte :=
  match m.variant with
  | .igmpv2Query => [0x11, m.mrc.setWidth 8, 0, 0] ++ m.group
  | .igmpv2Report | .igmpv2Leave => [m.variant.tag, 0, 0, 0] ++ m.group
  | .igmpv3Query => [0x11, m.mrc.setWidth 8, 0, 0] ++ m.group ++ m.queryTail
  | .igmpv3Report | .mldv2Report => [m.variant.tag, 0, 0, 0, 0, 0] ++ m.reportTail
  | .mldv1Query => [0x82, 0, 0, 0] ++ bytes16 m.mrc.toNat ++ [0, 0] ++ m.group
  | .mldv1Report | .mldv1Done => [m.variant.tag, 0, 0, 0, 0, 0, 0, 0] ++ m.group
  | .mldv2Query => [0x82, 0, 0, 0] ++ bytes16 m.mrc.toNat ++ [0, 0] ++ m.group ++ m.queryTail

/-- The raw max-response code a family stores: the low 8 bits for IGMP, the low 16 bits for MLD (R248). -/
def truncMrc (f : Family) (v : Nat) : BitVec 16 :=
  match f with
  | .igmp => BitVec.ofNat 16 (v % 2 ^ 8)
  | .mld => BitVec.ofNat 16 (v % 2 ^ 16)

/-- The time in milliseconds of a raw max-response code: IGMP codes count tenths of a second (R199, R249). -/
def mrcTime (f : Family) (mrc : Nat) : Nat :=
  match f with
  | .igmp => tcDecode 4 mrc * 100
  | .mld => tcDecode 12 mrc

/-- The raw max-response code of a time in milliseconds (R250). -/
def mrcOfTime (f : Family) (ms : Nat) : Nat :=
  match f with
  | .igmp => tcEncode 4 (ms / 100)
  | .mld => tcEncode 12 ms

/-- `MSG_NEW variant` (R243). -/
def execMsgNew (variant : Byte) (s : State) : StepResult :=
  s.runCtx fun c =>
    match variantOf variant with
    | none => .error .invalidOperand
    | some v => .ok (c.loadMsg (Message.new v), [])

/-- Every variant has the thing read (R244, R267: no `FieldNotPresent`). -/
def anyVariant (_ : Variant) : Bool := true

/-- `MSG_GET_VARIANT` (R244). -/
def execMsgGetVariant (s : State) : StepResult :=
  s.runCtx fun c => c.withMsg anyVariant fun m => .ok (c, [m.variant.id, m.variant.tag])

/-- `MSG_GET_GROUP` (R245). -/
def execMsgGetGroup (s : State) : StepResult :=
  s.runCtx fun c => c.withMsg Variant.hasGroup fun m => .ok (c, payloadBytes m.group)

/-- `MSG_SET_GROUP addr` (R246). -/
def execMsgSetGroup (addr : List Byte) (s : State) : StepResult :=
  s.runCtx fun c => c.withMsg Variant.hasGroup fun m =>
    if addr.length ≠ m.variant.fam.aw then .error .invalidAddressFamily
    else .ok ({ c with msg := { m with group := addr } }, [])

/-- `MSG_GET_MAXRESP_CODE` (R247). -/
def execMsgGetMaxrespCode (s : State) : StepResult :=
  s.runCtx fun c => c.withMsg Variant.isQuery fun m => .ok (c, bytes16 m.mrc.toNat)

/-- `MSG_SET_MAXRESP_CODE v` (R248). -/
def execMsgSetMaxrespCode (v : Word) (s : State) : StepResult :=
  s.runCtx fun c => c.withMsg Variant.isQuery fun m =>
    .ok ({ c with msg := { m with mrc := truncMrc m.variant.fam v.toNat } }, [])

/-- `MSG_GET_MAXRESP_TIME` (R249). -/
def execMsgGetMaxrespTime (s : State) : StepResult :=
  s.runCtx fun c => c.withMsg Variant.isQuery fun m => .ok (c, bytes32 (mrcTime m.variant.fam m.mrc.toNat))

/-- `MSG_SET_MAXRESP_TIME ms` (R250). -/
def execMsgSetMaxrespTime (ms : Word) (s : State) : StepResult :=
  s.runCtx fun c => c.withMsg Variant.isQuery fun m =>
    .ok ({ c with msg := { m with mrc := BitVec.ofNat 16 (mrcOfTime m.variant.fam ms.toNat) } }, [])

/-- `MSG_GET_S` (R251). -/
def execMsgGetS (s : State) : StepResult :=
  s.runCtx fun c => c.withMsg Variant.isExtQuery fun m => .ok (c, bytes8 m.sFlag.toNat)

/-- `MSG_SET_S v` (R252): `v mod 2`. -/
def execMsgSetS (v : Word) (s : State) : StepResult :=
  s.runCtx fun c => c.withMsg Variant.isExtQuery fun m => .ok ({ c with msg := { m with sFlag := v.setWidth 1 } }, [])

/-- `MSG_GET_QRV` (R253). -/
def execMsgGetQrv (s : State) : StepResult :=
  s.runCtx fun c => c.withMsg Variant.isExtQuery fun m => .ok (c, bytes8 m.qrv.toNat)

/-- `MSG_SET_QRV v` (R254): `v mod 8`. -/
def execMsgSetQrv (v : Word) (s : State) : StepResult :=
  s.runCtx fun c => c.withMsg Variant.isExtQuery fun m => .ok ({ c with msg := { m with qrv := v.setWidth 3 } }, [])

/-- `MSG_GET_QQIC` (R255). -/
def execMsgGetQqic (s : State) : StepResult :=
  s.runCtx fun c => c.withMsg Variant.isExtQuery fun m => .ok (c, bytes8 m.qqic.toNat)

/-- `MSG_SET_QQIC v` (R256): `v mod 2^8`. -/
def execMsgSetQqic (v : Word) (s : State) : StepResult :=
  s.runCtx fun c => c.withMsg Variant.isExtQuery fun m => .ok ({ c with msg := { m with qqic := v.setWidth 8 } }, [])

/-- `MSG_GET_QQI` (R257): the 8-bit code for both families, not scaled. -/
def execMsgGetQqi (s : State) : StepResult :=
  s.runCtx fun c => c.withMsg Variant.isExtQuery fun m => .ok (c, bytes32 (tcDecode 4 m.qqic.toNat))

/-- `MSG_SET_QQI v` (R258). -/
def execMsgSetQqi (v : Word) (s : State) : StepResult :=
  s.runCtx fun c => c.withMsg Variant.isExtQuery fun m =>
    .ok ({ c with msg := { m with qqic := BitVec.ofNat 8 (tcEncode 4 v.toNat) } }, [])

/-- `MSG_GET_NSRC` (R259). -/
def execMsgGetNsrc (s : State) : StepResult :=
  s.runCtx fun c => c.withMsg Variant.isExtQuery fun m => .ok (c, bytes16 m.srcs.length)

/-- `MSG_GET_SRC i` (R260). -/
def execMsgGetSrc (i : Half) (s : State) : StepResult :=
  s.runCtx fun c => c.withMsg Variant.isExtQuery fun m =>
    match m.srcs[i.toNat]? with
    | none => .error .indexOutOfRange
    | some addr => .ok (c, payloadBytes addr)

/-- `MSG_ADD_SRC addr` (R261). -/
def execMsgAddSrc (addr : List Byte) (s : State) : StepResult :=
  s.runCtx fun c => c.withMsg Variant.isExtQuery fun m =>
    if addr.length ≠ m.variant.fam.aw then .error .invalidAddressLength
    else if maxCount ≤ m.srcs.length then .error .countOverflow
    else .ok ({ c with msg := { m with srcs := m.srcs ++ [addr] } }, [])

/-- `MSG_CLEAR_SRC` (R262). -/
def execMsgClearSrc (s : State) : StepResult :=
  s.runCtx fun c => c.withMsg Variant.isExtQuery fun m => .ok ({ c with msg := { m with srcs := [] } }, [])

/-- `MSG_GET_NREC` (R263). -/
def execMsgGetNrec (s : State) : StepResult :=
  s.runCtx fun c => c.withMsg Variant.isReport3 fun m => .ok (c, bytes16 m.recs.length)

/-- `MSG_GET_REC i` (R264): a copy into the record register. -/
def execMsgGetRec (i : Half) (s : State) : StepResult :=
  s.runCtx fun c => c.withMsg Variant.isReport3 fun m =>
    match m.recs[i.toNat]? with
    | none => .error .indexOutOfRange
    | some g => .ok (c.loadRec g, [])

/-- `MSG_ADD_REC` (R265): a copy of the record register. -/
def execMsgAddRec (s : State) : StepResult :=
  s.runCtx fun c => c.withMsg Variant.isReport3 fun m => c.withRec fun g =>
    if g.fam ≠ m.variant.fam then .error .invalidAddressFamily
    else if maxCount ≤ m.recs.length then .error .countOverflow
    else .ok ({ c with msg := { m with recs := m.recs ++ [g] } }, [])

/-- `MSG_CLEAR_REC` (R266). -/
def execMsgClearRec (s : State) : StepResult :=
  s.runCtx fun c => c.withMsg Variant.isReport3 fun m => .ok ({ c with msg := { m with recs := [] } }, [])

/-- The u32 payload of a length (R117). For a length of 2^32 or more, which R15 takes to be impossible and no rule
gives an answer, it is a free value: DESIGN CHOICE (notes/assumptions/17.md). -/
def payloadLength (n : Nat) : List Byte :=
  bytes32 (if n < 2 ^ 32 then n else (Config.lengthBeyondU32 n).toNat)

/-- `MSG_LENGTH` (R267). The model's choice: a length of 2^32 or more is answered as a free u32
(`payloadLength`; notes/assumptions/17.md). -/
def execMsgLength (s : State) : StepResult :=
  s.runCtx fun c => c.withMsg anyVariant fun m => .ok (c, payloadLength m.len)

/-- The context after `MSG_ENCODE`: the buffer holds `Wire(m)` with a fresh checksum over it (R268). -/
def Context.encodeMsg (c : Context) (m : Message) : Context :=
  let filled := { c.bufReplace m.wire with bufLen := m.len }
  filled.storeChecksum (filled.csum m.len m.variant.fam.pseudo)

/-- `MSG_ENCODE cap` (R268). -/
def execMsgEncode (cap : Half) (s : State) : StepResult :=
  s.runCtx fun c => c.withMsg anyVariant fun m =>
    if cap.toNat < m.len ∨ s.bufCap < m.len then .error .bufferTooShort
    else .ok (c.encodeMsg m, bytes16 m.len)

end Sys2Proof.Machine
end

