-- ==== Sys2Proof/Machine/Registry.lean ====
section
/-! DEFINITION. Machine/Registry.lean: the parser registry and `PARSE` (spec/46_registry.md R290 to R302). -/

namespace Sys2Proof.Machine

/-- The registry with all eight decoders at their canonical entries (R294). -/
def State.regBuild (s : State) : State :=
  ((((((((s.regWrite .igmp 0x11 1).regWrite .igmp 0x16 2).regWrite .igmp 0x17 3).regWrite .igmp 0x22 4).regWrite .mld
    0x82 5).regWrite .mld 0x83 6).regWrite .mld 0x84 7).regWrite .mld 0x8F 8)

/-- `REG_REGISTER fam, tag, dec` (R292): the operand checks come before the seal check. -/
def execRegRegister (fam tag dec : Byte) (s : State) : StepResult :=
  s.inCtx fun _ =>
    match familyOf fam with
    | none => s.raise .invalidOperand
    | some f =>
      if maxDecoder < dec.toNat then s.raise .invalidOperand
      else if dec ≠ 0 ∧ canon dec ≠ some (f, tag) then s.raise .invalidRegistration
      else if s.isSealed then s.takeFault .registryWriteAfterSeal
      else (s.regWrite f tag dec).respond []

/-- `REG_LOOKUP fam, tag` (R293). -/
def execRegLookup (fam tag : Byte) (s : State) : StepResult :=
  s.inCtx fun _ =>
    match familyOf fam with
    | none => s.raise .invalidOperand
    | some f => s.respond [s.regRead f tag]

/-- `REG_BUILD` (R294). -/
def execRegBuild (s : State) : StepResult :=
  s.inCtx fun _ => if s.isSealed then s.takeFault .registryWriteAfterSeal else s.regBuild.respond []

/-- `REG_SEAL` (R295). -/
def execRegSeal (s : State) : StepResult := s.inCtx fun _ => s.seal.respond []

/-- `SelectVariant(d, n)` of R297, on a decoder id and the buffer length. An id outside 1 to 8 never occurs here
(R23, R296) and is answered as no decoder (notes/assumptions/14.md). -/
def selectVariant (dec : Byte) (n : Nat) : Except ErrorStatus Variant :=
  if dec = 1 then
    if n = 8 then .ok .igmpv2Query
    else if 12 ≤ n then .ok .igmpv3Query
    else .error .ambiguousLengthVariant
  else if dec = 5 then
    if n = 24 then .ok .mldv1Query
    else if 28 ≤ n then .ok .mldv2Query
    else .error .ambiguousLengthVariant
  else
    match decVariant dec with
    | none => .error .unknownMessageType
    | some v => if n < v.fixedLen then .error .bufferTooShort else .ok v

/-- The walk of R298 over the `k` records that start at offset `off`: the offset one past the last. -/
def peekRecords (b : Memory) (fam : Family) (lim : Nat) : Nat → Nat → Except ErrorStatus Nat
  | 0, off => .ok off
  | k + 1, off =>
    match peekRecordLength b off fam lim with
    | .error e => .error e
    | .ok l => if lim < off + l then .error .bufferTooShort else peekRecords b fam lim k (off + l)

/-- `PeekSpan(v, b, n)` of R298. -/
def peekSpan (v : Variant) (b : Memory) (n : Nat) : Except ErrorStatus Nat :=
  if v.isExtQuery then
    let span := v.fixedLen + v.fam.aw * b.u16 (v.fixedLen - 2)
    if n < span then .error .bufferTooShort else .ok span
  else if v.isReport3 then peekRecords b v.fam n (b.u16 6) 8
  else .ok v.fixedLen

/-- The `k` records that start at offset `off` (R300). -/
def decodeRecords (b : Memory) (fam : Family) (lim : Nat) : Nat → Nat → Except ErrorStatus (List Record)
  | 0, _ => .ok []
  | k + 1, off =>
    match decodeRecord b off fam lim with
    | .error e => .error e
    | .ok (g, nextOff) =>
      match decodeRecords b fam lim k nextOff with
      | .error e => .error e
      | .ok gs => .ok (g :: gs)

/-- The group address of a variant that has one: bytes 4 to 7 (IGMP) or 8 to 23 (MLD) (R300). -/
def extractGroup (v : Variant) (b : Memory) : List Byte :=
  match v.fam with
  | .igmp => b.readBytes 4 4
  | .mld => b.readBytes 8 16

/-- The raw max-response code of a query: byte 1 (IGMP) or the u16 at 4 (MLD) (R300). -/
def extractMrc (v : Variant) (b : Memory) : BitVec 16 :=
  match v.fam with
  | .igmp => (b.read 1).setWidth 16
  | .mld => BitVec.ofNat 16 (b.u16 4)

/-- `Extract(v, b, span)` of R300. A field the variant does not have is left as `MSG_NEW` makes it
(notes/assumptions/4.md). -/
def extract (v : Variant) (b : Memory) (span : Nat) : Except ErrorStatus Message :=
  let m0 := Message.new v
  let m1 := if v.hasGroup then { m0 with group := extractGroup v b } else m0
  let m2 := if v.isQuery then { m1 with mrc := extractMrc v b } else m1
  if v.isExtQuery then
    let flags := b.read (v.fixedLen - 4)
    .ok { m2 with sFlag := flags.extractLsb' 3 1, qrv := flags.extractLsb' 0 3, qqic := b.read (v.fixedLen - 3),
                  srcs := b.readAddrs v.fixedLen v.fam.aw (b.u16 (v.fixedLen - 2)) }
  else if v.isReport3 then
    match decodeRecords b v.fam span (b.u16 6) 8 with
    | .error e => .error e
    | .ok gs => .ok { m2 with recs := gs }
  else .ok m2

/-- `ParseMsg(c, fam)` of R296, given `REG[fam]`; it writes no state. -/
def parseMsg (reg : Memory) (fam : Family) (c : Context) : Except ErrorStatus Message :=
  if c.bufLen < 1 then .error .bufferTooShort
  else
    let d := reg.read (c.buf.read 0).toNat
    if d = 0 then .error .unknownMessageType
    else
      match selectVariant d c.bufLen with
      | .error e => .error e
      | .ok v =>
        match peekSpan v c.buf c.bufLen with
        | .error e => .error e
        | .ok span =>
          if c.csum span fam.pseudo ≠ c.buf.u16 2 then .error .checksumMismatch
          else extract v c.buf span

/-- The registers after a parse: the message on success, nothing on an error (R301). -/
def parseInto (reg : Memory) (fam : Family) (c : Context) : CmdResult :=
  match parseMsg reg fam c with
  | .error e => .error e
  | .ok m => .ok (c.loadMsg m, [m.variant.id])

/-- `PARSE fam` (R301): a legal family seals the registry, whether or not the parse then succeeds. -/
def execParse (fam : Byte) (s : State) : StepResult :=
  s.inCtx fun c =>
    match familyOf fam with
    | none => s.raise .invalidOperand
    | some f => s.seal.commit (parseInto (s.regOf f) f c)

end Sys2Proof.Machine
end

