-- ==== Sys2Proof/Machine/Dispatch.lean ====
section
/-! DEFINITION. Machine/Dispatch.lean: one arm per command, each one direct call of its meaning. -/

namespace Sys2Proof.Machine

def exec (i : Instr) (s : State) : Host.Outcome State Fault Refusal :=
  match i with
  | .bufLoad data => Sys2Proof.Machine.execBufLoad data s
  | .bufSetlen n => Sys2Proof.Machine.execBufSetlen n s
  | .bufGetlen => Sys2Proof.Machine.execBufGetlen s
  | .fldGetU8 off => Sys2Proof.Machine.execFldGetU8 off s
  | .fldGetU16 off => Sys2Proof.Machine.execFldGetU16 off s
  | .fldGetU32 off => Sys2Proof.Machine.execFldGetU32 off s
  | .fldSetU8 off v => Sys2Proof.Machine.execFldSetU8 off v s
  | .fldSetU16 off v => Sys2Proof.Machine.execFldSetU16 off v s
  | .fldSetU32 off v => Sys2Proof.Machine.execFldSetU32 off v s
  | .fldGetBits off sh w => Sys2Proof.Machine.execFldGetBits off sh w s
  | .fldSetBits off sh w v => Sys2Proof.Machine.execFldSetBits off sh w v s
  | .fldGetBytes off n => Sys2Proof.Machine.execFldGetBytes off n s
  | .fldSetBytes off data => Sys2Proof.Machine.execFldSetBytes off data s
  | .ctxSetSrc addr => Sys2Proof.Machine.execCtxSetSrc addr s
  | .ctxSetDst addr => Sys2Proof.Machine.execCtxSetDst addr s
  | .csumCompute len p => Sys2Proof.Machine.execCsumCompute len p s
  | .csumVerify len p => Sys2Proof.Machine.execCsumVerify len p s
  | .csumWrite len p => Sys2Proof.Machine.execCsumWrite len p s
  | .tc8Decode code => Sys2Proof.Machine.execTc8Decode code s
  | .tc8Encode v => Sys2Proof.Machine.execTc8Encode v s
  | .tc16Decode code => Sys2Proof.Machine.execTc16Decode code s
  | .tc16Encode v => Sys2Proof.Machine.execTc16Encode v s
  | .grNew fam rtype => Sys2Proof.Machine.execGrNew fam rtype s
  | .grGetType => Sys2Proof.Machine.execGrGetType s
  | .grSetType rtype => Sys2Proof.Machine.execGrSetType rtype s
  | .grGetGroup => Sys2Proof.Machine.execGrGetGroup s
  | .grSetGroup addr => Sys2Proof.Machine.execGrSetGroup addr s
  | .grGetNsrc => Sys2Proof.Machine.execGrGetNsrc s
  | .grGetSrc k => Sys2Proof.Machine.execGrGetSrc k s
  | .grAddSrc addr => Sys2Proof.Machine.execGrAddSrc addr s
  | .grClearSrc => Sys2Proof.Machine.execGrClearSrc s
  | .grGetAuxlen => Sys2Proof.Machine.execGrGetAuxlen s
  | .grGetAux => Sys2Proof.Machine.execGrGetAux s
  | .grSetAux data => Sys2Proof.Machine.execGrSetAux data s
  | .grLength => Sys2Proof.Machine.execGrLength s
  | .grDecode off fam => Sys2Proof.Machine.execGrDecode off fam s
  | .grEncode off => Sys2Proof.Machine.execGrEncode off s
  | .grPeekLength off fam => Sys2Proof.Machine.execGrPeekLength off fam s
  | .msgNew variant => Sys2Proof.Machine.execMsgNew variant s
  | .msgGetVariant => Sys2Proof.Machine.execMsgGetVariant s
  | .msgGetGroup => Sys2Proof.Machine.execMsgGetGroup s
  | .msgSetGroup addr => Sys2Proof.Machine.execMsgSetGroup addr s
  | .msgGetMaxrespCode => Sys2Proof.Machine.execMsgGetMaxrespCode s
  | .msgSetMaxrespCode v => Sys2Proof.Machine.execMsgSetMaxrespCode v s
  | .msgGetMaxrespTime => Sys2Proof.Machine.execMsgGetMaxrespTime s
  | .msgSetMaxrespTime ms => Sys2Proof.Machine.execMsgSetMaxrespTime ms s
  | .msgGetS => Sys2Proof.Machine.execMsgGetS s
  | .msgSetS v => Sys2Proof.Machine.execMsgSetS v s
  | .msgGetQrv => Sys2Proof.Machine.execMsgGetQrv s
  | .msgSetQrv v => Sys2Proof.Machine.execMsgSetQrv v s
  | .msgGetQqic => Sys2Proof.Machine.execMsgGetQqic s
  | .msgSetQqic v => Sys2Proof.Machine.execMsgSetQqic v s
  | .msgGetQqi => Sys2Proof.Machine.execMsgGetQqi s
  | .msgSetQqi v => Sys2Proof.Machine.execMsgSetQqi v s
  | .msgGetNsrc => Sys2Proof.Machine.execMsgGetNsrc s
  | .msgGetSrc k => Sys2Proof.Machine.execMsgGetSrc k s
  | .msgAddSrc addr => Sys2Proof.Machine.execMsgAddSrc addr s
  | .msgClearSrc => Sys2Proof.Machine.execMsgClearSrc s
  | .msgGetNrec => Sys2Proof.Machine.execMsgGetNrec s
  | .msgGetRec k => Sys2Proof.Machine.execMsgGetRec k s
  | .msgAddRec => Sys2Proof.Machine.execMsgAddRec s
  | .msgClearRec => Sys2Proof.Machine.execMsgClearRec s
  | .msgLength => Sys2Proof.Machine.execMsgLength s
  | .msgEncode cap => Sys2Proof.Machine.execMsgEncode cap s
  | .regRegister fam tag dec => Sys2Proof.Machine.execRegRegister fam tag dec s
  | .regLookup fam tag => Sys2Proof.Machine.execRegLookup fam tag s
  | .regBuild => Sys2Proof.Machine.execRegBuild s
  | .regSeal => Sys2Proof.Machine.execRegSeal s
  | .parse fam => Sys2Proof.Machine.execParse fam s

end Sys2Proof.Machine
end

