-- ==== Sys2Proof/Machine/Frame.lean ====
section
/-! DEFINITION. Machine/Frame.lean: what the block does with one host input: the check order of
spec/60_exceptions.md R325 for a frame, and the reset signal of spec/70_reset_and_hazards.md R350. -/

namespace Sys2Proof.Machine

/-- Execute one frame, already taken from the host (R325): a faulted block answers its fault (R323); a context that
does not exist (R110) or an ill-formed command (R113) is the fault IllegalCommand; else the command runs in the
frame's context. -/
def runFrame (f : Frame) (s : State) : StepResult :=
  if s.fault then s.answerFaulted
  else if s.nCtx ≤ f.ctx.toNat then s.takeFault .illegalCommand
  else
    match decode f.cmd with
    | .error _ => s.takeFault .illegalCommand
    | .ok i => exec i { s with cur := f.ctx }

/-- The external reset signal (R350): the whole block, all contexts at once, takes its reset values; the parameters
stay, and what the host still means to send and has received is the host's (notes/assumptions/7.md). -/
def State.applyReset (s : State) : State :=
  { State.resetWith { nCtx := s.nCtx, bufCap := s.bufCap } with inputs := s.inputs, responses := s.responses }

/-- Take the host's next input. With none pending the block does nothing (R324; notes/assumptions/6.md). -/
def runInput (s : State) : StepResult :=
  match s.inputs with
  | [] => .next s
  | .reset :: rest => .next { s with inputs := rest }.applyReset
  | .frame f :: rest => runFrame f { s with inputs := rest }

/-- The frame that stands for a table row's command: context 0, which every block has (R7; notes/assumptions/11.md). -/
def tableFrame (nbits w : Nat) : HostInput := .frame { ctx := 0, cmd := tableCommand nbits w }

end Sys2Proof.Machine
end

