-- ==== Sys2Proof/Machine/Step.lean ====
section
/-! DEFINITION. Machine/Step.lean: one step of the machine is one host input, taken whole (spec/20_memory.md R66,
R69). -/

namespace Sys2Proof.Machine

/-- One step: the host's next input. -/
def step (s : State) : Host.Outcome State Fault Refusal := runInput s

/-- `s` with a table row's command as the host's next frame, so that the next step runs it. -/
def State.withFetchWord (s : State) (nbits w : Nat) : State := { s with inputs := tableFrame nbits w :: s.inputs }

end Sys2Proof.Machine
end

