-- ==== Sys2Proof/Safety.lean ====
section
/-! DEFINITION. Safety.lean: which values the spec allows the registers to hold (spec/10_state.md R23 to R33), the
invariant of the machine made of them, what a safe run is (spec/60_exceptions.md R322), and the terms the statements
are written in. Those terms are written from the spec's tables and layouts, apart from the functions that compute the
same things in the meanings, so that a statement compares the two. -/

namespace Sys2Proof.Machine

/-- A list of addresses of one width that a `u16` count can declare (R28, R30). -/
abbrev addrsLegal (aw : Nat) (l : List (List Byte)) : Prop := l.length ≤ maxCount ∧ ∀ a ∈ l, a.length = aw

/-- The legal values of a group record (R30, R31). -/
abbrev Record.Legal (g : Record) : Prop :=
  rtypeLegal g.rtype = true ∧ g.group.length = g.fam.aw ∧ addrsLegal g.fam.aw g.srcs ∧ g.aux.length % 4 = 0 ∧
    g.aux.length ≤ maxAux

/-- The legal values of a message (R28), a field its variant does not have being as `MSG_NEW` makes it (R29;
notes/assumptions/4.md). -/
abbrev Message.Legal (m : Message) : Prop :=
  m.group.length = m.variant.fam.aw ∧
  (m.variant.hasGroup = false → m.group = zeros m.variant.fam.aw) ∧
  (m.variant.fam = .igmp → m.mrc.toNat < 2 ^ 8) ∧
  (m.variant.isQuery = false → m.mrc = 0) ∧
  addrsLegal m.variant.fam.aw m.srcs ∧
  (m.variant.isExtQuery = false → m.sFlag = 0 ∧ m.qrv = 0 ∧ m.qqic = 0 ∧ m.srcs = []) ∧
  m.recs.length ≤ maxCount ∧
  (∀ g ∈ m.recs, g.Legal ∧ g.fam = m.variant.fam) ∧
  (m.variant.isReport3 = false → m.recs = [])

/-- The buffer of a context: canonical, its length within the capacity, every byte from its length up 0 (R26). -/
abbrev Context.BufLegal (bufCap : Nat) (c : Context) : Prop :=
  c.buf.wf = true ∧ c.buf.below c.bufLen = true ∧ c.bufLen ≤ bufCap

/-- The legal values of a context's registers (R26 to R33). -/
abbrev Context.Legal (bufCap : Nat) (c : Context) : Prop :=
  c.BufLegal bufCap ∧ c.src.length = 16 ∧ c.dst.length = 16 ∧ (c.msgValid = true → c.msg.Legal) ∧
    (c.grValid = true → c.gr.Legal)

/-- The legal contents of one registry table: tags below 256, each entry the decoder whose own entry it is (R23,
R291). -/
abbrev regLegal (f : Family) (reg : Memory) : Prop :=
  reg.wf = true ∧ ∀ cell ∈ reg, cell.1 < 256 ∧ canon cell.2 = some (f, BitVec.ofNat 8 cell.1)

/-- The fault registers: a cause is recorded exactly when the block has faulted, and cause 1 only once the registry is
sealed (R25, R322). -/
abbrev State.FaultLegal (s : State) : Prop :=
  (s.fault = false → s.faultCause = 0) ∧
  (s.fault = true → s.faultCause = 1 ∨ s.faultCause = 2) ∧
  (s.faultCause = 1 → s.isSealed = true)

/-- The parameters of a block are within the ranges of R7. -/
abbrev State.ParamsLegal (s : State) : Prop := 1 ≤ s.nCtx ∧ s.nCtx ≤ 256 ∧ 28 ≤ s.bufCap ∧ s.bufCap ≤ 65535

/-- THE INVARIANT of the machine: parameters in range, and every register at a value the spec allows it. -/
abbrev State.Inv (s : State) : Prop :=
  s.ParamsLegal ∧ regLegal .igmp s.regIgmp ∧ regLegal .mld s.regMld ∧ s.FaultLegal ∧
    ∀ c ∈ s.ctxs, c.Legal s.bufCap

/-- A safe state: the block has not faulted (R322: a fault is "the run went wrong"). -/
abbrev State.Safe (s : State) : Prop := s.fault = false

/-- The run from `s` over its next `n` inputs meets only safe states. -/
def State.SafeRun : Nat → State → Prop
  | 0, s => s.Safe
  | n + 1, s => s.Safe ∧ match step s with
    | .next t => State.SafeRun n t
    | .fault _ => False
    | .refused _ => False

/-! Terms of the statements: tables. -/

/-- The queries (`QUERY` of R29). -/
abbrev queries : List Variant := [.igmpv2Query, .igmpv3Query, .mldv1Query, .mldv2Query]

/-- The extended queries (`EXTQ` of R29). -/
abbrev extQueries : List Variant := [.igmpv3Query, .mldv2Query]

/-- The record-carrying reports (`REPORT3` of R29), which are also the variants without a group address. -/
abbrev reports : List Variant := [.igmpv3Report, .mldv2Report]

/-- The canonical decoders of R23 and R291: decoder id, family, tag. -/
abbrev canonicalEntries : List (Byte × Family × Byte) :=
  [(1, .igmp, 0x11), (2, .igmp, 0x16), (3, .igmp, 0x17), (4, .igmp, 0x22), (5, .mld, 0x82), (6, .mld, 0x83),
   (7, .mld, 0x84), (8, .mld, 0x8F)]

/-- The opcodes that R114 leaves unassigned. -/
abbrev unassignedOpcode (op : Nat) : Prop :=
  op = 0x00 ∨ op = 0x0E ∨ op = 0x0F ∨ (0x15 ≤ op ∧ op ≤ 0x17) ∨ (0x1C ≤ op ∧ op ≤ 0x1F) ∨ (0x4A ≤ op ∧ op ≤ 0x4F) ∨
    (0x55 ≤ op ∧ op ≤ 0xFF)

/-! Terms of the statements: bytes in the buffer. -/

/-- `b'` is `b` with a byte string stored at `off`: every other byte reads as before. -/
abbrev StoredAt (b : Memory) (off : Nat) (bytes : List Byte) (b' : Memory) : Prop :=
  b'.wf = true ∧ ∀ a, b'.read a = if off ≤ a ∧ a < off + bytes.length then bytes.getD (a - off) 0 else b.read a

/-- The length that the record at `off` declares (R96, R100, R101): `8 + 4N + 4A` or `20 + 16N + 4A`. -/
def recordSize (b : Memory) (fam : Family) (off : Nat) : Nat :=
  4 + fam.aw + fam.aw * b.u16 (off + 2) + 4 * (b.read (off + 1)).toNat

/-- The bytes from `off` up are those of the record `g`, laid out as R96 and R100 say. -/
abbrev RecordAt (b : Memory) (fam : Family) (off : Nat) (g : Record) : Prop :=
  g.fam = fam ∧ g.rtype = b.read off ∧ g.group = b.readBytes (off + 4) fam.aw ∧ g.srcs.length = b.u16 (off + 2) ∧
  (∀ i < g.srcs.length, g.srcs[i]? = some (b.readBytes (off + 4 + fam.aw + fam.aw * i) fam.aw)) ∧
  g.aux = b.readBytes (off + 4 + fam.aw + fam.aw * g.srcs.length) (4 * (b.read (off + 1)).toNat)

/-- The offset of record `i` of a report whose records stand back to back from offset 8 up (R95, R99). -/
def recordOffset (b : Memory) (fam : Family) : Nat → Nat
  | 0 => 8
  | i + 1 => recordOffset b fam i + recordSize b fam (recordOffset b fam i)

/-- The span that a message's own fields declare (R102): its fixed length, its sources, its records. -/
def declaredSpan (v : Variant) (b : Memory) : Nat :=
  if v ∈ extQueries then v.fixedLen + v.fam.aw * b.u16 (v.fixedLen - 2)
  else if v ∈ reports then recordOffset b v.fam (b.u16 6)
  else v.fixedLen

/-- The bytes from 0 up hold the fields of the message `m`, laid out as R91 to R100 say. -/
abbrev MessageAt (b : Memory) (m : Message) : Prop :=
  (m.variant ∉ reports → m.group = if m.variant.fam = .igmp then b.readBytes 4 4 else b.readBytes 8 16) ∧
  (m.variant ∈ queries → m.mrc.toNat = if m.variant.fam = .igmp then (b.read 1).toNat else b.u16 4) ∧
  (m.variant ∈ extQueries →
    let fixed := if m.variant.fam = .igmp then 12 else 28
    m.sFlag.toNat = (b.read (fixed - 4)).toNat / 8 % 2 ∧ m.qrv.toNat = (b.read (fixed - 4)).toNat % 8 ∧
    m.qqic = b.read (fixed - 3) ∧ m.srcs.length = b.u16 (fixed - 2) ∧
    ∀ i < m.srcs.length, m.srcs[i]? = some (b.readBytes (fixed + m.variant.fam.aw * i) m.variant.fam.aw)) ∧
  (m.variant ∈ reports → m.recs.length = b.u16 6 ∧
    ∀ i < m.recs.length, ∃ g, m.recs[i]? = some g ∧ RecordAt b m.variant.fam (recordOffset b m.variant.fam i) g)

/-- The reserved fields of R105 of the variant are 0. -/
abbrev ReservedZero (b : Memory) (v : Variant) : Prop :=
  (v.fam = .igmp → v ∉ queries → b.read 1 = 0) ∧ (v.fam = .mld → b.read 1 = 0) ∧
  (v.fam = .mld → v ∉ reports → b.u16 6 = 0) ∧ (v.fam = .mld → v ∉ queries → b.u16 4 = 0) ∧
  (v ∈ reports → b.u16 4 = 0) ∧ (v = .igmpv3Query → (b.read 8).toNat < 16) ∧
  (v = .mldv2Query → (b.read 24).toNat < 16)

/-! Terms of the statements: checksums. -/

/-- Byte `k` as the checksum of the span [0, len) sums it: bytes 2 and 3 as 0 (R173), a pad byte as 0 (R172). -/
def spanByte (b : Memory) (len k : Nat) : Nat := if k < len ∧ k ≠ 2 ∧ k ≠ 3 then (b.read k).toNat else 0

/-- The sum of the big-endian words of the span [0, len) (R170). -/
def spanSum (b : Memory) (len : Nat) : Nat :=
  ((List.range ((len + 1) / 2)).map fun k => spanByte b len (2 * k) * 256 + spanByte b len (2 * k + 1)).sum

/-- The sum of the eight words of a 16-byte address. -/
def addrSum (addr : List Byte) : Nat :=
  ((List.range 8).map fun k => (addr.getD (2 * k) 0).toNat * 256 + (addr.getD (2 * k + 1) 0).toNat).sum

/-- The sum of the words of the pseudo-header of a span of `len` < 2^32 bytes (R174): the two addresses, the length as a
u32, and the next header 58. -/
def headerSum (src dst : List Byte) (len : Nat) : Nat := addrSum src + addrSum dst + len / 65536 + len % 65536 + 58

/-- `v` is the checksum that goes with a word sum (R171): its one's complement is the sum with all carries folded back,
which is 16 bits wide, congruent to the sum modulo 0xFFFF, and 0 only for a sum of 0. -/
def IsChecksumOf (sum v : Nat) : Prop :=
  v ≤ 0xFFFF ∧ (0xFFFF - v) % 0xFFFF = sum % 0xFFFF ∧ (v = 0xFFFF ↔ sum = 0)

/-! Terms of the statements: what one part of the state can tell of another. -/

/-- Two states agree on the shared part and the parameter (R20). -/
abbrev SharedEq (s s' : State) : Prop :=
  s.bufCap = s'.bufCap ∧ s.regIgmp = s'.regIgmp ∧ s.regMld = s'.regMld ∧ s.isSealed = s'.isSealed ∧
    s.fault = s'.fault ∧ s.faultCause = s'.faultCause

/-- A context with the contents of its invalid registers forgotten. -/
def Context.forget (c : Context) : Context :=
  { c with msg := if c.msgValid then c.msg else Message.reset, gr := if c.grValid then c.gr else Record.reset }

/-- A state with the contents of every invalid register forgotten. -/
def State.observable (s : State) : State := { s with ctxs := s.ctxs.map Context.forget }

end Sys2Proof.Machine
end

