-- ==== Sys2Proof/Certificates/Slice0/Obligations.lean ====
section
/-! DEFINITION. Certificates/Slice0/Obligations.lean: the statements for the provers. In every one, `exec i s = .next
(...)` is a whole equation between states: whatever the right side does not name is as it was. `s.emit r` is `s` with
the response `r` given; status 0x00 is OK, 0xFF is Faulted, the others are the errors of R118. `s.ctx? = some c` says
that the context the frame names exists and holds `c` (R110). -/

open Sys2Proof Sys2Proof.Machine

/-! The machine. -/

/-- R350: the reset signal sets the shared part and every context to the table's values. The machine's own start,
`State.reset`, is such a state too. That the signal is a host input which leaves the parameters, the inputs still to
come and the responses given is the model's choice (notes/assumptions/1.md, 5.md and 7.md). -/
def Obligations.ResetState : Prop :=
  (∀ (s : State) (rest : List HostInput), s.inputs = .reset :: rest → ∃ t, step s = .next t ∧
    (∀ f tag, t.regRead f tag = 0) ∧ t.isSealed = false ∧ t.fault = false ∧ t.faultCause = 0 ∧
    t.nCtx = s.nCtx ∧ t.bufCap = s.bufCap ∧ t.inputs = rest ∧ t.responses = s.responses ∧
    ∀ c ∈ t.ctxs, (∀ k, c.buf.read k = 0) ∧ c.bufLen = 0 ∧ c.src = zeros 16 ∧ c.dst = zeros 16 ∧
      c.msgValid = false ∧ c.grValid = false) ∧
  (∀ f tag, State.reset.regRead f tag = 0) ∧ State.reset.isSealed = false ∧ State.reset.fault = false ∧
  State.reset.faultCause = 0 ∧
  ∀ c ∈ State.reset.ctxs, (∀ k, c.buf.read k = 0) ∧ c.bufLen = 0 ∧ c.src = zeros 16 ∧ c.dst = zeros 16 ∧
    c.msgValid = false ∧ c.grValid = false

/-- The invariant holds right after reset, for every choice of the parameters that R7 allows. -/
def Obligations.ResetSatisfiesInvariant : Prop :=
  State.reset.Inv ∧ ∀ p : Config.Params, p.legal = true → (State.resetWith p).Inv

/-- From every state whose registers hold values the spec allows (R23 to R33), every step leaves such a state: legal
record types and widths, counts a u16 can declare, the zero tail of the buffer, canonical decoders, legal causes.
That a field a message's variant does not have holds zero or empty is the model's choice (notes/assumptions/4.md). -/
def Obligations.StepKeepsInvariant : Prop :=
  ∀ s t : State, s.Inv → step s = .next t → t.Inv

/-- Decode and encode agree: the bytes of every well-formed command decode to that command, for all 69 commands, with
every operand at every value its format admits. -/
def Obligations.DecodeOfEncode : Prop :=
  ∀ i : Instr, i.wf = true → decode (encode i) = .ok i

/-- Every command has one encoding (R113): bytes that decode to a command are the bytes of that command. -/
def Obligations.EncodeOfDecode : Prop :=
  ∀ (cmd : List Byte) (i : Instr), decode cmd = .ok i → i.wf = true ∧ encode i = cmd

/-- Words written out from R111 and R112, one of each family. -/
def Obligations.WordsDecodeRight : Prop :=
  decode [0x0B, 0x00, 0x08, 0x00, 0x03, 0x00, 0x00, 0x00, 0x02] = .ok (.fldSetBits 8 0 3 2) ∧
  decode [0x0D, 0x01, 0x02, 0x00, 0x02, 0xAA, 0xBB] = .ok (.fldSetBytes 0x0102 [0xAA, 0xBB]) ∧
  decode [0x12, 0x00, 0x18, 0x01] = .ok (.csumCompute 24 1) ∧
  decode [0x1A, 0x98, 0x6A] = .ok (.tc16Decode 0x986A) ∧
  decode [0x2D, 0x00, 0x10, 0x00] = .ok (.grDecode 16 0) ∧
  decode [0x33, 0x04, 0xE0, 0x01, 0x02, 0x03] = .ok (.msgSetGroup [0xE0, 0x01, 0x02, 0x03]) ∧
  decode [0x49, 0x00, 0x0C] = .ok (.msgEncode 12) ∧
  decode [0x50, 0x00, 0x16, 0x02] = .ok (.regRegister 0 0x16 2) ∧
  decode [0x54, 0x01] = .ok (.parse 1)

/-- A step runs the decoded command (R110, R325): an unfaulted block whose next input is a frame for a context that
exists, with a well-formed command, does exactly what `exec` does in that context, the frame being taken from the
queue. With no input pending a step changes nothing (the model's choice, notes/assumptions/6.md). -/
def Obligations.StepRunsDecodedCommand : Prop :=
  (∀ (s : State) (f : Frame) (rest : List HostInput) (i : Instr), s.inputs = .frame f :: rest → s.fault = false →
    f.ctx.toNat < s.nCtx → decode f.cmd = .ok i →
    step s = exec i { s with inputs := rest, cur := f.ctx } ∧
    ∃ c, s.ctxs[f.ctx.toNat]? = some c ∧ ({ s with inputs := rest, cur := f.ctx } : State).ctx? = some c) ∧
  ∀ s : State, s.inputs = [] → step s = .next s

/-- R110, R113, R114 and R322, cause 2: a frame for a context that does not exist, or whose bytes are no command (none
at all, an unassigned opcode, or any bytes that are not the encoding of a command), faults the block. -/
def Obligations.IllegalFramesFault : Prop :=
  ∀ (s : State) (f : Frame) (rest : List HostInput), s.inputs = .frame f :: rest → s.fault = false →
    (s.nCtx ≤ f.ctx.toNat ∨ f.cmd = [] ∨ (∃ op args, f.cmd = op :: args ∧ unassignedOpcode op.toNat) ∨
      (∀ i : Instr, i.wf = true → encode i ≠ f.cmd)) →
    step s = .next ({ s with inputs := rest, fault := true, faultCause := 2 }.emit [0xFF, 2])

/-- R323: a faulted block answers every frame with Faulted and the cause, and changes nothing; only the reset signal
clears the fault. -/
def Obligations.FaultedBlockOnlyAnswers : Prop :=
  ∀ (s : State) (f : Frame) (rest : List HostInput), s.fault = true →
    (s.inputs = .frame f :: rest → step s = .next ({ s with inputs := rest }.emit [0xFF, s.faultCause])) ∧
    (s.inputs = .reset :: rest → ∃ t, step s = .next t ∧ t.fault = false ∧ t.faultCause = 0)

/-- R330 and R117: a step always has a next state (the model's reading of R326, notes/assumptions/9.md), and a frame is
answered by exactly one response, after all earlier ones, whose first byte is a status of R118; an error carries no
payload, and Faulted carries the cause the block then holds. -/
def Obligations.OneResponsePerFrame : Prop :=
  ∀ s : State, ∃ t, step s = .next t ∧
    ∀ (f : Frame) (rest : List HostInput), s.inputs = .frame f :: rest →
      t.inputs = rest ∧ ∃ (status : Byte) (payload : List Byte), t.responses = s.responses ++ [status :: payload] ∧
        (status = 0x00 ∨
         (status ∈ ([1, 2, 3, 4, 5, 6, 7, 0x10, 0x11, 0x12, 0x13, 0x14, 0x15, 0x16, 0x17] : List Byte) ∧ payload = []) ∨
         (status = 0xFF ∧ payload = [t.faultCause]))

/-- R320: a command that answers an error has written nothing; `PARSE` alone keeps the seal it sets before decoding. -/
def Obligations.ErrorsWriteNothing : Prop :=
  ∀ (i : Instr) (s t : State) (status : Byte), exec i s = .next t → t.responses = s.responses ++ [[status]] →
    status ≠ 0x00 → t = s.emit [status] ∨ ((∃ fam, i = .parse fam) ∧ t = s.seal.emit [status])

/-- R20: a command reads and writes the shared part and its own context's private part: every other context, the number
of contexts and the capacity are as they were. -/
def Obligations.CommandKeepsOtherContexts : Prop :=
  ∀ (i : Instr) (s t : State), exec i s = .next t →
    t.ctxs.length = s.ctxs.length ∧ t.bufCap = s.bufCap ∧ t.cur = s.cur ∧ t.inputs = s.inputs ∧
    ∀ k, k ≠ s.cur.toNat → t.ctxs[k]? = s.ctxs[k]?

/-- R70: contexts share REG, SEALED, FAULT and FAULT_CAUSE and nothing else: two blocks that agree on the shared part
and on the context a command runs in answer the command alike and agree on both afterwards, whatever the other contexts
hold. -/
def Obligations.ContextsDoNotInterfere : Prop :=
  ∀ (i : Instr) (s s' : State), SharedEq s s' → s.ctx? = s'.ctx? → s.ctx? ≠ none →
    ∃ t t' r, exec i s = .next t ∧ exec i s' = .next t' ∧ SharedEq t t' ∧ t.ctx? = t'.ctx? ∧
      t.responses = s.responses ++ [r] ∧ t'.responses = s'.responses ++ [r]

/-- R24 and R354: once sealed, the registry changes by no step but a reset, and the seal stays. -/
def Obligations.SealedRegistryIsReadOnly : Prop :=
  ∀ (s t : State), s.isSealed = true → step s = .next t → (∀ rest, s.inputs ≠ .reset :: rest) →
    t.regIgmp = s.regIgmp ∧ t.regMld = s.regMld ∧ t.isSealed = true

/-- R34: no step but a reset clears a flag, and only the commands R34 names set one. -/
def Obligations.FlagsSetOnlyByTheirCommands : Prop :=
  ∀ (i : Instr) (s t : State) (c : Context), exec i s = .next t → s.ctx? = some c →
    (s.isSealed = true → t.isSealed = true) ∧ (s.fault = true → t.fault = true) ∧
    (t.isSealed ≠ s.isSealed → i = .regSeal ∨ ∃ fam, i = .parse fam) ∧
    (t.fault ≠ s.fault → s.isSealed = true ∧ (i = .regBuild ∨ ∃ fam tag dec, i = .regRegister fam tag dec)) ∧
    ∃ c', t.ctx? = some c' ∧ (c.msgValid = true → c'.msgValid = true) ∧ (c.grValid = true → c'.grValid = true) ∧
      (c'.msgValid ≠ c.msgValid → (∃ v, i = .msgNew v) ∨ ∃ fam, i = .parse fam) ∧
      (c'.grValid ≠ c.grValid →
        (∃ fam ty, i = .grNew fam ty) ∨ (∃ off fam, i = .grDecode off fam) ∨ ∃ k, i = .msgGetRec k)

/-- R27, R30, R350: the contents of a message or record register that is not valid are unobservable: two states that
differ in such contents alone take steps that differ in such contents alone, with equal responses. -/
def Obligations.InvalidRegistersUnobservable : Prop :=
  ∀ s s' : State, s.observable = s'.observable →
    ∃ t t', step s = .next t ∧ step s' = .next t' ∧ t.observable = t'.observable

/-! Field codec primitives. -/

/-- R141: `BUF_LOAD` replaces the whole buffer, every byte past the data being 0, unless the data exceeds BUF_CAP. -/
def Obligations.BufLoad : Prop :=
  ∀ (s : State) (c : Context) (data : List Byte), s.ctx? = some c →
    (data.length ≤ 65535 → decode (0x01 :: (bytes16 data.length ++ data)) = .ok (.bufLoad data)) ∧
    (data.length ≤ s.bufCap → ∃ b : Memory, b.wf = true ∧ (∀ k, b.read k = data.getD k 0) ∧
      exec (.bufLoad data) s = .next ((s.setCtx { c with buf := b, bufLen := data.length }).emit [0x00])) ∧
    (s.bufCap < data.length → exec (.bufLoad data) s = .next (s.emit [0x01]))

/-- R142: `BUF_SETLEN` truncates, clearing the bytes it drops, or extends; beyond BUF_CAP it is an error. -/
def Obligations.BufSetlen : Prop :=
  ∀ (s : State) (c : Context) (n : Half), s.ctx? = some c → c.buf.wf = true →
    decode (0x02 :: bytes16 n.toNat) = .ok (.bufSetlen n) ∧
    (n.toNat ≤ s.bufCap → ∃ b : Memory, b.wf = true ∧
      (∀ k, b.read k = if n.toNat ≤ k ∧ k < c.bufLen then 0 else c.buf.read k) ∧
      exec (.bufSetlen n) s = .next ((s.setCtx { c with buf := b, bufLen := n.toNat }).emit [0x00])) ∧
    (s.bufCap < n.toNat → exec (.bufSetlen n) s = .next (s.emit [0x01]))

/-- R143 to R146: the length and the integer reads, big-endian, unaligned offsets allowed, changing nothing. -/
def Obligations.IntegerReads : Prop :=
  ∀ (s : State) (c : Context) (off : Half), s.ctx? = some c →
    decode [0x03] = .ok .bufGetlen ∧ exec .bufGetlen s = .next (s.emit (0x00 :: bytes16 c.bufLen)) ∧
    decode (0x04 :: bytes16 off.toNat) = .ok (.fldGetU8 off) ∧
    (off.toNat + 1 ≤ c.bufLen → exec (.fldGetU8 off) s = .next (s.emit [0x00, c.buf.read off.toNat])) ∧
    (c.bufLen < off.toNat + 1 → exec (.fldGetU8 off) s = .next (s.emit [0x01])) ∧
    decode (0x05 :: bytes16 off.toNat) = .ok (.fldGetU16 off) ∧
    (off.toNat + 2 ≤ c.bufLen →
      exec (.fldGetU16 off) s = .next (s.emit [0x00, c.buf.read off.toNat, c.buf.read (off.toNat + 1)])) ∧
    (c.bufLen < off.toNat + 2 → exec (.fldGetU16 off) s = .next (s.emit [0x01])) ∧
    decode (0x06 :: bytes16 off.toNat) = .ok (.fldGetU32 off) ∧
    (off.toNat + 4 ≤ c.bufLen →
      exec (.fldGetU32 off) s = .next (s.emit [0x00, c.buf.read off.toNat, c.buf.read (off.toNat + 1),
        c.buf.read (off.toNat + 2), c.buf.read (off.toNat + 3)])) ∧
    (c.bufLen < off.toNat + 4 → exec (.fldGetU32 off) s = .next (s.emit [0x01]))

/-- R147 to R149: the integer writes store the low bytes of the operand, the high one first, and no other byte. -/
def Obligations.IntegerWrites : Prop :=
  ∀ (s : State) (c : Context) (off : Half) (v : Word), s.ctx? = some c → c.buf.wf = true →
    decode (0x07 :: (bytes16 off.toNat ++ bytes32 v.toNat)) = .ok (.fldSetU8 off v) ∧
    (off.toNat + 1 ≤ c.bufLen → ∃ b, StoredAt c.buf off.toNat [v.extractLsb' 0 8] b ∧
      exec (.fldSetU8 off v) s = .next ((s.setCtx { c with buf := b }).emit [0x00])) ∧
    (c.bufLen < off.toNat + 1 → exec (.fldSetU8 off v) s = .next (s.emit [0x01])) ∧
    decode (0x08 :: (bytes16 off.toNat ++ bytes32 v.toNat)) = .ok (.fldSetU16 off v) ∧
    (off.toNat + 2 ≤ c.bufLen → ∃ b, StoredAt c.buf off.toNat [v.extractLsb' 8 8, v.extractLsb' 0 8] b ∧
      exec (.fldSetU16 off v) s = .next ((s.setCtx { c with buf := b }).emit [0x00])) ∧
    (c.bufLen < off.toNat + 2 → exec (.fldSetU16 off v) s = .next (s.emit [0x01])) ∧
    decode (0x09 :: (bytes16 off.toNat ++ bytes32 v.toNat)) = .ok (.fldSetU32 off v) ∧
    (off.toNat + 4 ≤ c.bufLen →
      ∃ b, StoredAt c.buf off.toNat
        [v.extractLsb' 24 8, v.extractLsb' 16 8, v.extractLsb' 8 8, v.extractLsb' 0 8] b ∧
      exec (.fldSetU32 off v) s = .next ((s.setCtx { c with buf := b }).emit [0x00])) ∧
    (c.bufLen < off.toNat + 4 → exec (.fldSetU32 off v) s = .next (s.emit [0x01]))

/-- R150: `FLD_GET_BITS` answers bits sh+w-1 down to sh of the byte; the descriptor is checked before the bounds. -/
def Obligations.BitFieldRead : Prop :=
  ∀ (s : State) (c : Context) (off : Half) (sh w : Byte), s.ctx? = some c →
    decode (0x0A :: (bytes16 off.toNat ++ [sh, w])) = .ok (.fldGetBits off sh w) ∧
    (if w.toNat < 1 ∨ 8 < sh.toNat + w.toNat then exec (.fldGetBits off sh w) s = .next (s.emit [0x14])
     else if c.bufLen < off.toNat + 1 then exec (.fldGetBits off sh w) s = .next (s.emit [0x01])
     else ∃ field : Byte, field.toNat = (c.buf.read off.toNat).toNat / 2 ^ sh.toNat % 2 ^ w.toNat ∧
       exec (.fldGetBits off sh w) s = .next (s.emit [0x00, field]))

/-- R151: `FLD_SET_BITS` replaces bits sh+w-1 down to sh of the byte by the low bits of the operand and preserves every
other bit of the byte and every other byte. -/
def Obligations.BitFieldWrite : Prop :=
  ∀ (s : State) (c : Context) (off : Half) (sh w : Byte) (v : Word), s.ctx? = some c → c.buf.wf = true →
    decode (0x0B :: (bytes16 off.toNat ++ [sh, w] ++ bytes32 v.toNat)) = .ok (.fldSetBits off sh w v) ∧
    (if w.toNat < 1 ∨ 8 < sh.toNat + w.toNat then exec (.fldSetBits off sh w v) s = .next (s.emit [0x14])
     else if c.bufLen < off.toNat + 1 then exec (.fldSetBits off sh w v) s = .next (s.emit [0x01])
     else ∃ (byte : Byte) (b : Memory),
       (∀ k, k < 8 → byte.getLsbD k = if sh.toNat ≤ k ∧ k < sh.toNat + w.toNat then v.getLsbD (k - sh.toNat)
         else (c.buf.read off.toNat).getLsbD k) ∧
       StoredAt c.buf off.toNat [byte] b ∧
       exec (.fldSetBits off sh w v) s = .next ((s.setCtx { c with buf := b }).emit [0x00]))

/-- R152 and R153: the byte-array read answers a u16 count and the bytes, the write stores the bytes in order; neither
grows the buffer. -/
def Obligations.ByteArrays : Prop :=
  ∀ (s : State) (c : Context) (off n : Half) (data : List Byte), s.ctx? = some c → c.buf.wf = true →
    decode (0x0C :: (bytes16 off.toNat ++ bytes16 n.toNat)) = .ok (.fldGetBytes off n) ∧
    (off.toNat + n.toNat ≤ c.bufLen → ∃ bytes : List Byte, bytes.length = n.toNat ∧
      (∀ k, k < n.toNat → bytes[k]? = some (c.buf.read (off.toNat + k))) ∧
      exec (.fldGetBytes off n) s = .next (s.emit (0x00 :: (bytes16 n.toNat ++ bytes)))) ∧
    (c.bufLen < off.toNat + n.toNat → exec (.fldGetBytes off n) s = .next (s.emit [0x01])) ∧
    (data.length ≤ 65535 →
      decode (0x0D :: (bytes16 off.toNat ++ bytes16 data.length ++ data)) = .ok (.fldSetBytes off data)) ∧
    (off.toNat + data.length ≤ c.bufLen → ∃ b, StoredAt c.buf off.toNat data b ∧
      exec (.fldSetBytes off data) s = .next ((s.setCtx { c with buf := b }).emit [0x00])) ∧
    (c.bufLen < off.toNat + data.length → exec (.fldSetBytes off data) s = .next (s.emit [0x01]))

/-- R154, law 1: a get of the field just set answers the operand modulo 2 to the field's width. -/
def Obligations.GetAfterSet : Prop :=
  ∀ (s : State) (c : Context) (off : Half) (v : Word) (sh w : Byte), s.ctx? = some c → c.buf.wf = true →
    (off.toNat + 1 ≤ c.bufLen → ∃ t, exec (.fldSetU8 off v) s = .next t ∧
      exec (.fldGetU8 off) t = .next (t.emit (0x00 :: bytes8 (v.toNat % 2 ^ 8)))) ∧
    (off.toNat + 2 ≤ c.bufLen → ∃ t, exec (.fldSetU16 off v) s = .next t ∧
      exec (.fldGetU16 off) t = .next (t.emit (0x00 :: bytes16 (v.toNat % 2 ^ 16)))) ∧
    (off.toNat + 4 ≤ c.bufLen → ∃ t, exec (.fldSetU32 off v) s = .next t ∧
      exec (.fldGetU32 off) t = .next (t.emit (0x00 :: bytes32 v.toNat))) ∧
    (1 ≤ w.toNat → sh.toNat + w.toNat ≤ 8 → off.toNat + 1 ≤ c.bufLen →
      ∃ t, exec (.fldSetBits off sh w v) s = .next t ∧
        exec (.fldGetBits off sh w) t = .next (t.emit (0x00 :: bytes8 (v.toNat % 2 ^ w.toNat))))

/-- R154, law 3: two sets of disjoint fields commute, the whole state included: byte strings that do not overlap, and
bit-fields of different bytes or of different bits of one byte. An integer set is the set of its big-endian bytes. -/
def Obligations.DisjointSetsCommute : Prop :=
  ∀ (s : State) (c : Context), s.ctx? = some c → c.buf.wf = true →
    (∀ (o1 o2 : Half) (d1 d2 : List Byte), o1.toNat + d1.length ≤ c.bufLen → o2.toNat + d2.length ≤ c.bufLen →
      (o1.toNat + d1.length ≤ o2.toNat ∨ o2.toNat + d2.length ≤ o1.toNat) →
      ∃ t1 t2 t, exec (.fldSetBytes o1 d1) s = .next t1 ∧ exec (.fldSetBytes o2 d2) s = .next t2 ∧
        exec (.fldSetBytes o2 d2) t1 = .next t ∧ exec (.fldSetBytes o1 d1) t2 = .next t) ∧
    (∀ (o1 o2 : Half) (sh1 w1 sh2 w2 : Byte) (v1 v2 : Word), o1.toNat < c.bufLen → o2.toNat < c.bufLen →
      1 ≤ w1.toNat → sh1.toNat + w1.toNat ≤ 8 → 1 ≤ w2.toNat → sh2.toNat + w2.toNat ≤ 8 →
      (o1 ≠ o2 ∨ sh1.toNat + w1.toNat ≤ sh2.toNat ∨ sh2.toNat + w2.toNat ≤ sh1.toNat) →
      ∃ t1 t2 t, exec (.fldSetBits o1 sh1 w1 v1) s = .next t1 ∧ exec (.fldSetBits o2 sh2 w2 v2) s = .next t2 ∧
        exec (.fldSetBits o2 sh2 w2 v2) t1 = .next t ∧ exec (.fldSetBits o1 sh1 w1 v1) t2 = .next t) ∧
    ∀ (off : Half) (v : Word),
      exec (.fldSetU8 off v) s = exec (.fldSetBytes off (bytes8 v.toNat)) s ∧
      exec (.fldSetU16 off v) s = exec (.fldSetBytes off (bytes16 v.toNat)) s ∧
      exec (.fldSetU32 off v) s = exec (.fldSetBytes off (bytes32 v.toNat)) s

/-! Checksum engine. -/

/-- R175 and R176: the two address registers take any 16 bytes and nothing of another length. -/
def Obligations.AddressRegisters : Prop :=
  ∀ (s : State) (c : Context) (addr : List Byte), s.ctx? = some c →
    (addr.length ≤ 255 → decode (0x10 :: (bytes8 addr.length ++ addr)) = .ok (.ctxSetSrc addr) ∧
      decode (0x11 :: (bytes8 addr.length ++ addr)) = .ok (.ctxSetDst addr)) ∧
    (addr.length = 16 → exec (.ctxSetSrc addr) s = .next ((s.setCtx { c with src := addr }).emit [0x00]) ∧
      exec (.ctxSetDst addr) s = .next ((s.setCtx { c with dst := addr }).emit [0x00])) ∧
    (addr.length ≠ 16 → exec (.ctxSetSrc addr) s = .next (s.emit [0x07]) ∧
      exec (.ctxSetDst addr) s = .next (s.emit [0x07]))

/-- R170 to R174: the checksum of a span is the one's complement of the folded sum of the span's big-endian words, the
checksum field and an odd length's pad byte summed as 0, and with the pseudo-header's words added when it is selected. -/
def Obligations.ChecksumValue : Prop :=
  ∀ (c : Context) (len : Nat),
    IsChecksumOf (spanSum c.buf len) (c.csum len false) ∧
    (c.src.length = 16 → c.dst.length = 16 → len < 2 ^ 32 →
      IsChecksumOf (headerSum c.src c.dst len + spanSum c.buf len) (c.csum len true))

/-- R177: `CSUM_COMPUTE` answers the checksum and changes nothing; the pseudo-header operand is checked first. -/
def Obligations.CsumCompute : Prop :=
  ∀ (s : State) (c : Context) (len : Half) (p : Byte), s.ctx? = some c →
    decode (0x12 :: (bytes16 len.toNat ++ [p])) = .ok (.csumCompute len p) ∧
    (if 1 < p.toNat then exec (.csumCompute len p) s = .next (s.emit [0x14])
     else if c.bufLen < len.toNat then exec (.csumCompute len p) s = .next (s.emit [0x01])
     else exec (.csumCompute len p) s = .next (s.emit (0x00 :: bytes16 (c.csum len.toNat (decide (p = 1))))))

/-- R178: `CSUM_VERIFY` answers 1 when the stored checksum is the computed value and 0 when it is not, and changes
nothing; a mismatch is no error. -/
def Obligations.CsumVerify : Prop :=
  ∀ (s : State) (c : Context) (len : Half) (p : Byte), s.ctx? = some c →
    decode (0x13 :: (bytes16 len.toNat ++ [p])) = .ok (.csumVerify len p) ∧
    (if 1 < p.toNat then exec (.csumVerify len p) s = .next (s.emit [0x14])
     else if c.bufLen < len.toNat ∨ c.bufLen < 4 then exec (.csumVerify len p) s = .next (s.emit [0x01])
     else if c.csum len.toNat (decide (p = 1)) = (c.buf.read 2).toNat * 256 + (c.buf.read 3).toNat
       then exec (.csumVerify len p) s = .next (s.emit [0x00, 1])
     else exec (.csumVerify len p) s = .next (s.emit [0x00, 0]))

/-- R179: `CSUM_WRITE` stores the checksum big-endian at offset 2, changes no other byte, and answers it. -/
def Obligations.CsumWrite : Prop :=
  ∀ (s : State) (c : Context) (len : Half) (p : Byte), s.ctx? = some c → c.buf.wf = true →
    decode (0x14 :: (bytes16 len.toNat ++ [p])) = .ok (.csumWrite len p) ∧
    (if 1 < p.toNat then exec (.csumWrite len p) s = .next (s.emit [0x14])
     else if c.bufLen < len.toNat ∨ c.bufLen < 4 then exec (.csumWrite len p) s = .next (s.emit [0x01])
     else ∃ b, StoredAt c.buf 2 (bytes16 (c.csum len.toNat (decide (p = 1)))) b ∧
       exec (.csumWrite len p) s =
         .next ((s.setCtx { c with buf := b }).emit (0x00 :: bytes16 (c.csum len.toNat (decide (p = 1))))))

/-- R180, law 1: after `CSUM_WRITE`, `CSUM_VERIFY` of the same span answers 1, and a second write changes nothing. -/
def Obligations.VerifyAfterWrite : Prop :=
  ∀ (s : State) (c : Context) (len : Half) (p : Byte), s.ctx? = some c → c.buf.wf = true → p.toNat ≤ 1 →
    4 ≤ c.bufLen → len.toNat ≤ c.bufLen →
    ∃ t v, exec (.csumWrite len p) s = .next t ∧ t.responses = s.responses ++ [0x00 :: bytes16 v] ∧
      exec (.csumVerify len p) t = .next (t.emit [0x00, 1]) ∧
      exec (.csumWrite len p) t = .next (t.emit (0x00 :: bytes16 v))

/-- R180, law 2: after a successful verification, changing any one byte of the span makes the verification fail. -/
def Obligations.SingleByteCorruptionDetected : Prop :=
  ∀ (s : State) (c : Context) (len off : Half) (p : Byte) (v : Word), s.ctx? = some c → c.buf.wf = true →
    4 ≤ len.toNat → len.toNat ≤ c.bufLen → off.toNat < len.toNat →
    exec (.csumVerify len p) s = .next (s.emit [0x00, 1]) → v.setWidth 8 ≠ c.buf.read off.toNat →
    ∃ t, exec (.fldSetU8 off v) s = .next t ∧ exec (.csumVerify len p) t = .next (t.emit [0x00, 0])

/-- R180, laws 3 and 4, and R173: a checksum depends on no byte at or after the span's end, not on the checksum field,
and on the two addresses only through the sum of their words; without the pseudo-header not on them at all. -/
def Obligations.ChecksumInputs : Prop :=
  ∀ (c c' : Context) (len : Nat), (∀ k, k < len → k ≠ 2 → k ≠ 3 → c.buf.read k = c'.buf.read k) →
    c.csum len false = c'.csum len false ∧
    (c.src.length = 16 → c.dst.length = 16 → c'.src.length = 16 → c'.dst.length = 16 →
      addrSum c.src + addrSum c.dst = addrSum c'.src + addrSum c'.dst → c.csum len true = c'.csum len true)

/-! Time-code converter. -/

/-- R191, R194 and R196: a code below the threshold is its own value; above it, the value is the mantissa with its
leading bit, shifted left by the exponent plus 3. -/
def Obligations.TimeCodeDecode : Prop :=
  ∀ (s : State) (c : Context) (code8 : Byte) (code16 : Half), s.ctx? = some c →
    decode [0x18, code8] = .ok (.tc8Decode code8) ∧ decode (0x1A :: bytes16 code16.toNat) = .ok (.tc16Decode code16) ∧
    exec (.tc8Decode code8) s = .next (s.emit (0x00 :: bytes32
      (if code8.toNat < 128 then code8.toNat else (16 + code8.toNat % 16) * 2 ^ (code8.toNat / 16 % 8 + 3)))) ∧
    exec (.tc16Decode code16) s = .next (s.emit (0x00 :: bytes32
      (if code16.toNat < 32768 then code16.toNat
       else (4096 + code16.toNat % 4096) * 2 ^ (code16.toNat / 4096 % 8 + 3))))

/-- R192, R193, R195 and R197: the code of a value is the code of the largest representable value not above it; above
the largest representable value it saturates to the all-ones code. -/
def Obligations.TimeCodeEncode : Prop :=
  ∀ (s : State) (c : Context) (v : Word), s.ctx? = some c →
    decode (0x19 :: bytes32 v.toNat) = .ok (.tc8Encode v) ∧ decode (0x1B :: bytes32 v.toNat) = .ok (.tc16Encode v) ∧
    (∃ code, code < 2 ^ 8 ∧ exec (.tc8Encode v) s = .next (s.emit (0x00 :: bytes8 code)) ∧
      tcDecode 4 code ≤ v.toNat ∧ (∀ code', code' < 2 ^ 8 → tcDecode 4 code' ≤ v.toNat → code' ≤ code) ∧
      (31744 < v.toNat → code = 0xFF)) ∧
    (∃ code, code < 2 ^ 16 ∧ exec (.tc16Encode v) s = .next (s.emit (0x00 :: bytes16 code)) ∧
      tcDecode 12 code ≤ v.toNat ∧ (∀ code', code' < 2 ^ 16 → tcDecode 12 code' ≤ v.toNat → code' ≤ code) ∧
      (8387584 < v.toNat → code = 0xFFFF))

/-- R198: for both code widths, encoding is exact below the threshold, every code round-trips, the loss above the
threshold is less than one step of the exponent, decoding is strictly increasing and encoding non-decreasing. -/
def Obligations.TimeCodeLaws : Prop :=
  ∀ M, M = 4 ∨ M = 12 →
    (∀ v, v < 2 ^ (M + 3) → tcDecode M (tcEncode M v) = v) ∧
    (∀ code, code < 2 ^ (M + 4) → tcEncode M (tcDecode M code) = code) ∧
    (∀ v, 2 ^ (M + 3) ≤ v → v ≤ (2 ^ (M + 1) - 1) * 2 ^ 10 →
      tcDecode M (tcEncode M v) ≤ v ∧ v < tcDecode M (tcEncode M v) + 2 ^ (tcEncode M v / 2 ^ M % 8 + 3)) ∧
    (∀ a b, a < b → b < 2 ^ (M + 4) → tcDecode M a < tcDecode M b) ∧
    (∀ v w, v ≤ w → w < 2 ^ 32 → tcEncode M v ≤ tcEncode M w)

/-! Group record codec. -/

/-- R212: `GR_NEW` makes a record of the family and type with everything else zero or empty; the family is checked
before the type. -/
def Obligations.RecordNew : Prop :=
  ∀ (s : State) (c : Context) (fam rtype : Byte), s.ctx? = some c →
    decode [0x20, fam, rtype] = .ok (.grNew fam rtype) ∧
    (if 1 < fam.toNat then exec (.grNew fam rtype) s = .next (s.emit [0x14])
     else if rtype.toNat < 1 ∨ 6 < rtype.toNat then exec (.grNew fam rtype) s = .next (s.emit [0x05])
     else exec (.grNew fam rtype) s = .next ((s.setCtx { c with
       grValid := true,
       gr := { fam := if fam = 0 then .igmp else .mld, rtype := rtype,
               group := zeros (if fam = 0 then 4 else 16), srcs := [], aux := [] } }).emit [0x00]))

/-- R213, R215, R217, R218, R221, R222 and R224: the reads of the record register, with the counts and the length
computed from the live lists; they change nothing. -/
def Obligations.RecordReads : Prop :=
  ∀ (s : State) (c : Context) (k : Half), s.ctx? = some c → c.grValid = true →
    decode [0x21] = .ok .grGetType ∧ exec .grGetType s = .next (s.emit [0x00, c.gr.rtype]) ∧
    decode [0x23] = .ok .grGetGroup ∧
    exec .grGetGroup s = .next (s.emit (0x00 :: (bytes16 c.gr.group.length ++ c.gr.group))) ∧
    decode [0x25] = .ok .grGetNsrc ∧ exec .grGetNsrc s = .next (s.emit (0x00 :: bytes16 c.gr.srcs.length)) ∧
    decode (0x26 :: bytes16 k.toNat) = .ok (.grGetSrc k) ∧
    (∀ addr, c.gr.srcs[k.toNat]? = some addr →
      exec (.grGetSrc k) s = .next (s.emit (0x00 :: (bytes16 addr.length ++ addr)))) ∧
    (c.gr.srcs.length ≤ k.toNat → exec (.grGetSrc k) s = .next (s.emit [0x11])) ∧
    decode [0x29] = .ok .grGetAuxlen ∧ exec .grGetAuxlen s = .next (s.emit (0x00 :: bytes8 (c.gr.aux.length / 4))) ∧
    decode [0x2A] = .ok .grGetAux ∧
    exec .grGetAux s = .next (s.emit (0x00 :: (bytes16 c.gr.aux.length ++ c.gr.aux))) ∧
    decode [0x2C] = .ok .grLength ∧
    exec .grLength s = .next (s.emit (0x00 :: bytes32
      (match c.gr.fam with
       | .igmp => 8 + 4 * c.gr.srcs.length + 4 * (c.gr.aux.length / 4)
       | .mld => 20 + 16 * c.gr.srcs.length + 4 * (c.gr.aux.length / 4))))

/-- R214, R216, R219, R220 and R223: the writes of the record register, each operand checked before it is stored: the
type, the group, a source appended, the sources cleared, the auxiliary data padded with zero bytes to whole words. -/
def Obligations.RecordWrites : Prop :=
  ∀ (s : State) (c : Context) (rtype : Byte) (addr data : List Byte), s.ctx? = some c → c.grValid = true →
    decode [0x22, rtype] = .ok (.grSetType rtype) ∧
    (if rtype.toNat < 1 ∨ 6 < rtype.toNat then exec (.grSetType rtype) s = .next (s.emit [0x05])
     else exec (.grSetType rtype) s = .next ((s.setCtx { c with gr := { c.gr with rtype := rtype } }).emit [0x00])) ∧
    (addr.length ≤ 255 → decode (0x24 :: (bytes8 addr.length ++ addr)) = .ok (.grSetGroup addr) ∧
      decode (0x27 :: (bytes8 addr.length ++ addr)) = .ok (.grAddSrc addr)) ∧
    (addr.length ≠ c.gr.fam.aw →
      exec (.grSetGroup addr) s = .next (s.emit [0x06]) ∧ exec (.grAddSrc addr) s = .next (s.emit [0x07])) ∧
    (addr.length = c.gr.fam.aw →
      exec (.grSetGroup addr) s = .next ((s.setCtx { c with gr := { c.gr with group := addr } }).emit [0x00]) ∧
      (c.gr.srcs.length = 65535 → exec (.grAddSrc addr) s = .next (s.emit [0x12])) ∧
      (c.gr.srcs.length < 65535 → exec (.grAddSrc addr) s =
        .next ((s.setCtx { c with gr := { c.gr with srcs := c.gr.srcs ++ [addr] } }).emit [0x00]))) ∧
    decode [0x28] = .ok .grClearSrc ∧
    exec .grClearSrc s = .next ((s.setCtx { c with gr := { c.gr with srcs := [] } }).emit [0x00]) ∧
    (data.length ≤ 65535 → decode (0x2B :: (bytes16 data.length ++ data)) = .ok (.grSetAux data)) ∧
    (1020 < data.length → exec (.grSetAux data) s = .next (s.emit [0x13])) ∧
    (data.length ≤ 1020 → ∃ pad, pad < 4 ∧ (data.length + pad) % 4 = 0 ∧ exec (.grSetAux data) s =
      .next ((s.setCtx { c with gr := { c.gr with aux := data ++ zeros pad } }).emit [0x00]))

/-- R225 and R226: `GR_DECODE` loads the record the bytes at the offset hold and answers its length; a truncated record
is BufferTooShort before its type is looked at, and on an error the register is unchanged. -/
def Obligations.RecordDecode : Prop :=
  ∀ (s : State) (c : Context) (off : Half) (fam : Byte) (f : Family), s.ctx? = some c →
    f = (if fam = 0 then .igmp else .mld) →
    decode (0x2D :: (bytes16 off.toNat ++ [fam])) = .ok (.grDecode off fam) ∧
    (if 1 < fam.toNat then exec (.grDecode off fam) s = .next (s.emit [0x14])
     else if c.bufLen < off.toNat + 4 + f.aw then exec (.grDecode off fam) s = .next (s.emit [0x01])
     else if c.bufLen < off.toNat + recordSize c.buf f off.toNat
       then exec (.grDecode off fam) s = .next (s.emit [0x01])
     else if (c.buf.read off.toNat).toNat < 1 ∨ 6 < (c.buf.read off.toNat).toNat
       then exec (.grDecode off fam) s = .next (s.emit [0x05])
     else ∃ g, RecordAt c.buf f off.toNat g ∧ exec (.grDecode off fam) s =
       .next ((s.setCtx { c with gr := g, grValid := true }).emit (0x00 :: bytes32 (recordSize c.buf f off.toNat))))

/-- R227 and R228: `GR_ENCODE` writes the record register's bytes at the offset, laid out as R96 and R100 say with the
counts computed, changes no other byte, and answers the length; it does not grow the buffer. -/
def Obligations.RecordEncode : Prop :=
  ∀ (s : State) (c : Context) (off : Half), s.ctx? = some c → c.buf.wf = true → c.grValid = true → c.gr.Legal →
    decode (0x2E :: bytes16 off.toNat) = .ok (.grEncode off) ∧
    (off.toNat + c.gr.len ≤ c.bufLen → ∃ b : Memory, b.wf = true ∧ RecordAt b c.gr.fam off.toNat c.gr ∧
      4 * (b.read (off.toNat + 1)).toNat = c.gr.aux.length ∧
      (∀ k, k < off.toNat ∨ off.toNat + c.gr.len ≤ k → b.read k = c.buf.read k) ∧
      exec (.grEncode off) s = .next ((s.setCtx { c with buf := b }).emit (0x00 :: bytes32 c.gr.len))) ∧
    (c.bufLen < off.toNat + c.gr.len → exec (.grEncode off) s = .next (s.emit [0x01]))

/-- R229 and R230: `GR_PEEK_LENGTH` answers the declared length from the two count fields alone; neither the type nor
the record's end is checked. -/
def Obligations.RecordPeek : Prop :=
  ∀ (s : State) (c : Context) (off : Half) (fam : Byte), s.ctx? = some c →
    decode (0x2F :: (bytes16 off.toNat ++ [fam])) = .ok (.grPeekLength off fam) ∧
    (if 1 < fam.toNat then exec (.grPeekLength off fam) s = .next (s.emit [0x14])
     else if c.bufLen < off.toNat + 4 then exec (.grPeekLength off fam) s = .next (s.emit [0x01])
     else exec (.grPeekLength off fam) s = .next (s.emit (0x00 :: bytes32
       (recordSize c.buf (if fam = 0 then .igmp else .mld) off.toNat))))

/-- R231, laws 1 to 3: a record encoded into the buffer decodes back to itself, and its length, the answer of the
encoding, the answer of the decoding and the peeked length are one number. -/
def Obligations.RecordRoundTrip : Prop :=
  ∀ (s : State) (c : Context) (off : Half), s.ctx? = some c → c.buf.wf = true → c.grValid = true → c.gr.Legal →
    off.toNat + c.gr.len ≤ c.bufLen →
    exec .grLength s = .next (s.emit (0x00 :: bytes32 c.gr.len)) ∧
    ∃ t c', exec (.grEncode off) s = .next t ∧ t.responses = s.responses ++ [0x00 :: bytes32 c.gr.len] ∧
      t.ctx? = some c' ∧ c'.gr = c.gr ∧
      exec (.grDecode off c.gr.fam.id) t = .next (t.emit (0x00 :: bytes32 c.gr.len)) ∧
      exec (.grPeekLength off c.gr.fam.id) t = .next (t.emit (0x00 :: bytes32 c.gr.len))

/-- R210: while no record is held, every command that needs one answers NoRecord; `MSG_ADD_REC` too, on a message it
applies to. -/
def Obligations.NoRecord : Prop :=
  ∀ (s : State) (c : Context) (i : Instr), s.ctx? = some c → c.grValid = false →
    (i = .grGetType ∨ (∃ ty, i = .grSetType ty) ∨ i = .grGetGroup ∨ (∃ a, i = .grSetGroup a) ∨ i = .grGetNsrc ∨
      (∃ k, i = .grGetSrc k) ∨ (∃ a, i = .grAddSrc a) ∨ i = .grClearSrc ∨ i = .grGetAuxlen ∨ i = .grGetAux ∨
      (∃ d, i = .grSetAux d) ∨ i = .grLength ∨ (∃ off, i = .grEncode off) ∨
      (i = .msgAddRec ∧ c.msgValid = true ∧ c.msg.variant ∈ reports)) →
    exec i s = .next (s.emit [0x16])

/-! Message variants. -/

/-- R243 and R244: `MSG_NEW` makes a message of the variant with every field zero or empty; `MSG_GET_VARIANT` answers
the variant's number and its type tag. -/
def Obligations.MessageNewAndVariant : Prop :=
  ∀ (s : State) (c : Context) (id : Byte), s.ctx? = some c →
    decode [0x30, id] = .ok (.msgNew id) ∧ decode [0x31] = .ok .msgGetVariant ∧
    (9 < id.toNat → exec (.msgNew id) s = .next (s.emit [0x14])) ∧
    ∀ (v : Variant) (k : Nat) (tag : Byte),
      (v, k, tag) ∈ ([(.igmpv2Query, 0, 0x11), (.igmpv3Query, 1, 0x11), (.igmpv2Report, 2, 0x16),
        (.igmpv2Leave, 3, 0x17), (.igmpv3Report, 4, 0x22), (.mldv1Query, 5, 0x82), (.mldv2Query, 6, 0x82),
        (.mldv1Report, 7, 0x83), (.mldv1Done, 8, 0x84), (.mldv2Report, 9, 0x8F)] : List (Variant × Nat × Byte)) →
      (id.toNat = k → exec (.msgNew id) s = .next ((s.setCtx { c with
        msgValid := true,
        msg := { variant := v, group := zeros (if k < 5 then 4 else 16), mrc := 0, sFlag := 0, qrv := 0, qqic := 0,
                 srcs := [], recs := [] } }).emit [0x00])) ∧
      (c.msgValid = true → c.msg.variant = v →
        exec .msgGetVariant s = .next (s.emit [0x00, BitVec.ofNat 8 k, tag]))

/-- R245 and R246: reading and setting the group address of a variant that has one. -/
def Obligations.MessageGroup : Prop :=
  ∀ (s : State) (c : Context) (addr : List Byte), s.ctx? = some c → c.msgValid = true → c.msg.variant ∉ reports →
    decode [0x32] = .ok .msgGetGroup ∧
    exec .msgGetGroup s = .next (s.emit (0x00 :: (bytes16 c.msg.group.length ++ c.msg.group))) ∧
    (addr.length ≤ 255 → decode (0x33 :: (bytes8 addr.length ++ addr)) = .ok (.msgSetGroup addr)) ∧
    (if addr.length = (if c.msg.variant.fam = .igmp then 4 else 16)
     then exec (.msgSetGroup addr) s = .next ((s.setCtx { c with msg := { c.msg with group := addr } }).emit [0x00])
     else exec (.msgSetGroup addr) s = .next (s.emit [0x06]))

/-- R247 to R250: the raw max-response code and the time in milliseconds of a query: 8-bit codes in tenths of a second
for IGMP, 16-bit codes in milliseconds for MLD. -/
def Obligations.MaxResponse : Prop :=
  ∀ (s : State) (c : Context) (v : Word), s.ctx? = some c → c.msgValid = true → c.msg.variant ∈ queries →
    decode [0x34] = .ok .msgGetMaxrespCode ∧
    exec .msgGetMaxrespCode s = .next (s.emit (0x00 :: bytes16 c.msg.mrc.toNat)) ∧
    decode (0x35 :: bytes32 v.toNat) = .ok (.msgSetMaxrespCode v) ∧
    (∃ code : BitVec 16, code.toNat = (if c.msg.variant.fam = .igmp then v.toNat % 2 ^ 8 else v.toNat % 2 ^ 16) ∧
      exec (.msgSetMaxrespCode v) s = .next ((s.setCtx { c with msg := { c.msg with mrc := code } }).emit [0x00])) ∧
    decode [0x36] = .ok .msgGetMaxrespTime ∧
    exec .msgGetMaxrespTime s = .next (s.emit (0x00 :: bytes32
      (if c.msg.variant.fam = .igmp then tcDecode 4 c.msg.mrc.toNat * 100 else tcDecode 12 c.msg.mrc.toNat))) ∧
    decode (0x37 :: bytes32 v.toNat) = .ok (.msgSetMaxrespTime v) ∧
    (∃ code : BitVec 16,
      code.toNat = (if c.msg.variant.fam = .igmp then tcEncode 4 (v.toNat / 100) else tcEncode 12 v.toNat) ∧
      exec (.msgSetMaxrespTime v) s = .next ((s.setCtx { c with msg := { c.msg with mrc := code } }).emit [0x00]))

/-- R251 to R258: the S flag, the robustness variable and the query-interval code of an extended query, the last raw
and as an interval. A set keeps the low bits of its operand; the 8-bit time code serves both families, unscaled. -/
def Obligations.QueryTuning : Prop :=
  ∀ (s : State) (c : Context) (v : Word), s.ctx? = some c → c.msgValid = true → c.msg.variant ∈ extQueries →
    decode [0x38] = .ok .msgGetS ∧ exec .msgGetS s = .next (s.emit (0x00 :: bytes8 c.msg.sFlag.toNat)) ∧
    decode (0x39 :: bytes32 v.toNat) = .ok (.msgSetS v) ∧
    (∃ bit : BitVec 1, bit.toNat = v.toNat % 2 ∧
      exec (.msgSetS v) s = .next ((s.setCtx { c with msg := { c.msg with sFlag := bit } }).emit [0x00])) ∧
    decode [0x3A] = .ok .msgGetQrv ∧ exec .msgGetQrv s = .next (s.emit (0x00 :: bytes8 c.msg.qrv.toNat)) ∧
    decode (0x3B :: bytes32 v.toNat) = .ok (.msgSetQrv v) ∧
    (∃ qrv : BitVec 3, qrv.toNat = v.toNat % 8 ∧
      exec (.msgSetQrv v) s = .next ((s.setCtx { c with msg := { c.msg with qrv := qrv } }).emit [0x00])) ∧
    decode [0x3C] = .ok .msgGetQqic ∧ exec .msgGetQqic s = .next (s.emit [0x00, c.msg.qqic]) ∧
    decode (0x3D :: bytes32 v.toNat) = .ok (.msgSetQqic v) ∧
    (∃ code : Byte, code.toNat = v.toNat % 2 ^ 8 ∧
      exec (.msgSetQqic v) s = .next ((s.setCtx { c with msg := { c.msg with qqic := code } }).emit [0x00])) ∧
    decode [0x3E] = .ok .msgGetQqi ∧
    exec .msgGetQqi s = .next (s.emit (0x00 :: bytes32 (tcDecode 4 c.msg.qqic.toNat))) ∧
    decode (0x3F :: bytes32 v.toNat) = .ok (.msgSetQqi v) ∧
    (∃ code : Byte, code.toNat = tcEncode 4 v.toNat ∧
      exec (.msgSetQqi v) s = .next ((s.setCtx { c with msg := { c.msg with qqic := code } }).emit [0x00]))

/-- R259 to R262: the source list of an extended query. -/
def Obligations.MessageSources : Prop :=
  ∀ (s : State) (c : Context) (k : Half) (addr : List Byte), s.ctx? = some c → c.msgValid = true →
    c.msg.variant ∈ extQueries →
    decode [0x40] = .ok .msgGetNsrc ∧ exec .msgGetNsrc s = .next (s.emit (0x00 :: bytes16 c.msg.srcs.length)) ∧
    decode (0x41 :: bytes16 k.toNat) = .ok (.msgGetSrc k) ∧
    (∀ a, c.msg.srcs[k.toNat]? = some a →
      exec (.msgGetSrc k) s = .next (s.emit (0x00 :: (bytes16 a.length ++ a)))) ∧
    (c.msg.srcs.length ≤ k.toNat → exec (.msgGetSrc k) s = .next (s.emit [0x11])) ∧
    (addr.length ≤ 255 → decode (0x42 :: (bytes8 addr.length ++ addr)) = .ok (.msgAddSrc addr)) ∧
    (addr.length ≠ c.msg.variant.fam.aw → exec (.msgAddSrc addr) s = .next (s.emit [0x07])) ∧
    (addr.length = c.msg.variant.fam.aw → c.msg.srcs.length = 65535 →
      exec (.msgAddSrc addr) s = .next (s.emit [0x12])) ∧
    (addr.length = c.msg.variant.fam.aw → c.msg.srcs.length < 65535 → exec (.msgAddSrc addr) s =
      .next ((s.setCtx { c with msg := { c.msg with srcs := c.msg.srcs ++ [addr] } }).emit [0x00])) ∧
    decode [0x43] = .ok .msgClearSrc ∧
    exec .msgClearSrc s = .next ((s.setCtx { c with msg := { c.msg with srcs := [] } }).emit [0x00])

/-- R263 to R266: the record list of a report; records go in and out as copies of the record register. -/
def Obligations.MessageRecords : Prop :=
  ∀ (s : State) (c : Context) (k : Half), s.ctx? = some c → c.msgValid = true → c.msg.variant ∈ reports →
    decode [0x44] = .ok .msgGetNrec ∧ exec .msgGetNrec s = .next (s.emit (0x00 :: bytes16 c.msg.recs.length)) ∧
    decode (0x45 :: bytes16 k.toNat) = .ok (.msgGetRec k) ∧
    (∀ g, c.msg.recs[k.toNat]? = some g →
      exec (.msgGetRec k) s = .next ((s.setCtx { c with gr := g, grValid := true }).emit [0x00])) ∧
    (c.msg.recs.length ≤ k.toNat → exec (.msgGetRec k) s = .next (s.emit [0x11])) ∧
    decode [0x46] = .ok .msgAddRec ∧
    (c.grValid = true → c.gr.fam ≠ c.msg.variant.fam → exec .msgAddRec s = .next (s.emit [0x06])) ∧
    (c.grValid = true → c.gr.fam = c.msg.variant.fam → c.msg.recs.length = 65535 →
      exec .msgAddRec s = .next (s.emit [0x12])) ∧
    (c.grValid = true → c.gr.fam = c.msg.variant.fam → c.msg.recs.length < 65535 → exec .msgAddRec s =
      .next ((s.setCtx { c with msg := { c.msg with recs := c.msg.recs ++ [c.gr] } }).emit [0x00])) ∧
    decode [0x47] = .ok .msgClearRec ∧
    exec .msgClearRec s = .next ((s.setCtx { c with msg := { c.msg with recs := [] } }).emit [0x00])

/-- R102, R241 and R267: the length of a message, computed from its live lists. The spec states no answer for a length
of 2^32 or more (R15 says it cannot occur): there the answer is a free u32, the model's choice
(notes/assumptions/17.md). -/
def Obligations.MessageLength : Prop :=
  ∀ (s : State) (c : Context), s.ctx? = some c → c.msgValid = true →
    decode [0x48] = .ok .msgLength ∧
    let len := match c.msg.variant with
       | .igmpv2Query | .igmpv2Report | .igmpv2Leave => 8
       | .igmpv3Query => 12 + 4 * c.msg.srcs.length
       | .mldv1Query | .mldv1Report | .mldv1Done => 24
       | .mldv2Query => 28 + 16 * c.msg.srcs.length
       | .igmpv3Report | .mldv2Report => 8 + (c.msg.recs.map fun g =>
           match g.fam with
           | .igmp => 8 + 4 * g.srcs.length + 4 * (g.aux.length / 4)
           | .mld => 20 + 16 * g.srcs.length + 4 * (g.aux.length / 4)).sum
    exec .msgLength s = .next (s.emit (0x00 :: bytes32
      (if len < 2 ^ 32 then len else (Config.lengthBeyondU32 len).toNat)))

/-- R91 to R100, R105 and R242: the wire form of a legal message is as long as R102 says, starts with the variant's
tag, holds every field where its layout puts it, and has 0 in the checksum field and in every reserved field. -/
def Obligations.WireLayout : Prop :=
  ∀ m : Message, m.Legal → m.wire.length = m.len ∧
    ∀ b : Memory, (∀ k, k < m.len → b.read k = m.wire.getD k 0) →
      b.read 0 = m.variant.tag ∧ b.u16 2 = 0 ∧ MessageAt b m ∧ ReservedZero b m.variant ∧
      declaredSpan m.variant b = m.len

/-- R268: `MSG_ENCODE` replaces the buffer by the message's wire form with a fresh checksum over its span (with the
pseudo-header for MLD only), clears every byte beyond, sets the length and answers it; the message register is
unchanged. It fails when the message does not fit in `cap` bytes or in the buffer. -/
def Obligations.MessageEncode : Prop :=
  ∀ (s : State) (c : Context) (cap : Half), s.ctx? = some c → c.msgValid = true → c.msg.Legal →
    decode (0x49 :: bytes16 cap.toNat) = .ok (.msgEncode cap) ∧
    (c.msg.len ≤ cap.toNat → c.msg.len ≤ s.bufCap → ∃ b : Memory, b.wf = true ∧
      (∀ k, k ≠ 2 → k ≠ 3 → b.read k = if k < c.msg.len then c.msg.wire.getD k 0 else 0) ∧
      b.u16 2 = ({ c with buf := b } : Context).csum c.msg.len (decide (c.msg.variant.fam = .mld)) ∧
      exec (.msgEncode cap) s =
        .next ((s.setCtx { c with buf := b, bufLen := c.msg.len }).emit (0x00 :: bytes16 c.msg.len))) ∧
    (cap.toNat < c.msg.len ∨ s.bufCap < c.msg.len → exec (.msgEncode cap) s = .next (s.emit [0x01]))

/-- R240: without a message every message command but `MSG_NEW` answers NoMessage; with one, a command on a field that
the variant does not have (R29) answers FieldNotPresent. -/
def Obligations.MessageGuards : Prop :=
  ∀ (s : State) (c : Context) (i : Instr), s.ctx? = some c →
    let onGroup := i = .msgGetGroup ∨ ∃ a, i = .msgSetGroup a
    let onMrc := i = .msgGetMaxrespCode ∨ (∃ v, i = .msgSetMaxrespCode v) ∨ i = .msgGetMaxrespTime ∨
      ∃ v, i = .msgSetMaxrespTime v
    let onTuning := i = .msgGetS ∨ (∃ v, i = .msgSetS v) ∨ i = .msgGetQrv ∨ (∃ v, i = .msgSetQrv v) ∨
      i = .msgGetQqic ∨ (∃ v, i = .msgSetQqic v) ∨ i = .msgGetQqi ∨ ∃ v, i = .msgSetQqi v
    let onSources := i = .msgGetNsrc ∨ (∃ k, i = .msgGetSrc k) ∨ (∃ a, i = .msgAddSrc a) ∨ i = .msgClearSrc
    let onRecords := i = .msgGetNrec ∨ (∃ k, i = .msgGetRec k) ∨ i = .msgAddRec ∨ i = .msgClearRec
    (c.msgValid = false → onGroup ∨ onMrc ∨ onTuning ∨ onSources ∨ onRecords ∨ i = .msgGetVariant ∨ i = .msgLength ∨
      (∃ cap, i = .msgEncode cap) → exec i s = .next (s.emit [0x15])) ∧
    (c.msgValid = true → (onGroup ∧ c.msg.variant ∈ reports) ∨ (onMrc ∧ c.msg.variant ∉ queries) ∨
      ((onTuning ∨ onSources) ∧ c.msg.variant ∉ extQueries) ∨ (onRecords ∧ c.msg.variant ∉ reports) →
      exec i s = .next (s.emit [0x10]))

/-- R269, laws 1 to 3: a legal message that fits, encoded and then parsed with the addresses unchanged and the
canonical decoders registered, comes back as it was; the buffer length is the message length and the checksum
verifies. That absent fields come back equal too rests on the model's choice in notes/assumptions/4.md. -/
def Obligations.MessageRoundTrip : Prop :=
  ∀ (s : State) (c : Context), s.ctx? = some c → c.msgValid = true → c.msg.Legal → c.msg.len ≤ s.bufCap →
    s.bufCap ≤ 65535 → (∀ e ∈ canonicalEntries, e.2.1 = c.msg.variant.fam → s.regRead e.2.1 e.2.2 = e.1) →
    ∃ t c' u, exec (.msgEncode 65535) s = .next t ∧ t.ctx? = some c' ∧ c'.bufLen = c.msg.len ∧
      exec (.csumVerify (BitVec.ofNat 16 c.msg.len) c.msg.variant.fam.id) t = .next (t.emit [0x00, 1]) ∧
      exec (.parse c.msg.variant.fam.id) t = .next u ∧ u = t.seal.emit [0x00, c.msg.variant.id] ∧ c'.msg = c.msg

/-! Parser registry and PARSE. -/

/-- R292: `REG_REGISTER` writes one entry, a decoder at its own tag or 0 at any tag, in the build phase; the operand
checks come before the seal check, and after the seal the block faults with cause 1. -/
def Obligations.RegistryRegister : Prop :=
  ∀ (s : State) (c : Context) (fam tag dec : Byte) (f : Family), s.ctx? = some c → s.regIgmp.wf = true →
    s.regMld.wf = true → f = (if fam = 0 then .igmp else .mld) →
    decode [0x50, fam, tag, dec] = .ok (.regRegister fam tag dec) ∧
    (if 1 < fam.toNat ∨ 8 < dec.toNat then exec (.regRegister fam tag dec) s = .next (s.emit [0x14])
     else if dec ≠ 0 ∧ (dec, f, tag) ∉ canonicalEntries
       then exec (.regRegister fam tag dec) s = .next (s.emit [0x17])
     else if s.isSealed = true then exec (.regRegister fam tag dec) s =
       .next ({ s with fault := true, faultCause := 1 }.emit [0xFF, 1])
     else ∃ t : State, t = { s with regIgmp := t.regIgmp, regMld := t.regMld } ∧ t.regIgmp.wf = true ∧ t.regMld.wf = true ∧
       (∀ f' k, (t.regOf f').read k = if f' = f ∧ k = tag.toNat then dec else (s.regOf f').read k) ∧
       exec (.regRegister fam tag dec) s = .next (t.emit [0x00]))

/-- R293, R294 and R295: `REG_LOOKUP` reads an entry in both phases; `REG_BUILD` writes the eight canonical entries and
no other, or faults once sealed; `REG_SEAL` seals. -/
def Obligations.RegistryLookupBuildSeal : Prop :=
  ∀ (s : State) (c : Context) (fam tag : Byte), s.ctx? = some c → s.regIgmp.wf = true → s.regMld.wf = true →
    decode [0x51, fam, tag] = .ok (.regLookup fam tag) ∧ decode [0x52] = .ok .regBuild ∧
    decode [0x53] = .ok .regSeal ∧
    (1 < fam.toNat → exec (.regLookup fam tag) s = .next (s.emit [0x14])) ∧
    (fam = 0 → exec (.regLookup fam tag) s = .next (s.emit [0x00, s.regIgmp.read tag.toNat])) ∧
    (fam = 1 → exec (.regLookup fam tag) s = .next (s.emit [0x00, s.regMld.read tag.toNat])) ∧
    (s.isSealed = true → exec .regBuild s = .next ({ s with fault := true, faultCause := 1 }.emit [0xFF, 1])) ∧
    (s.isSealed = false → ∃ t : State, t = { s with regIgmp := t.regIgmp, regMld := t.regMld } ∧ t.regIgmp.wf = true ∧
      t.regMld.wf = true ∧ (∀ e ∈ canonicalEntries, t.regRead e.2.1 e.2.2 = e.1) ∧
      (∀ f k, (∀ e ∈ canonicalEntries, e.2.1 = f → e.2.2.toNat ≠ k) → (t.regOf f).read k = (s.regOf f).read k) ∧
      exec .regBuild s = .next (t.emit [0x00])) ∧
    exec .regSeal s = .next ({ s with isSealed := true }.emit [0x00])

/-- R296, R297 and R301, the dispatch: `PARSE` of an illegal family is an error and seals nothing; else it seals, and
an empty buffer, a tag without a decoder, a query of a wrong length and a message shorter than its fixed length are
answered in that order, nothing else being written. -/
def Obligations.ParseDispatchErrors : Prop :=
  ∀ (s : State) (c : Context) (fam : Byte) (f : Family), s.ctx? = some c → f = (if fam = 0 then .igmp else .mld) →
    decode [0x54, fam] = .ok (.parse fam) ∧
    let dec := s.regRead f (c.buf.read 0)
    let answers := fun status : Byte => exec (.parse fam) s = .next ({ s with isSealed := true }.emit [status])
    (1 < fam.toNat → exec (.parse fam) s = .next (s.emit [0x14])) ∧
    (fam.toNat ≤ 1 →
      (c.bufLen = 0 → answers 0x01) ∧
      (0 < c.bufLen → dec = 0 → answers 0x02) ∧
      (0 < c.bufLen → dec = 1 → c.bufLen ≠ 8 → c.bufLen < 12 → answers 0x03) ∧
      (0 < c.bufLen → dec = 5 → c.bufLen ≠ 24 → c.bufLen < 28 → answers 0x03) ∧
      (0 < c.bufLen → dec = 2 ∨ dec = 3 ∨ dec = 4 ∨ dec = 8 → c.bufLen < 8 → answers 0x01) ∧
      (0 < c.bufLen → dec = 6 ∨ dec = 7 → c.bufLen < 24 → answers 0x01))

/-- R297 to R301: once the decoder and the length select a variant, `PARSE` answers BufferTooShort when the declared
span is beyond the buffer, else ChecksumMismatch when the stored checksum is not the span's, else InvalidRecordType
when a record's type is illegal, else OK with the variant's number and the message the bytes hold in the register. The
registry is sealed in every case, and nothing else is written. -/
def Obligations.ParseMessage : Prop :=
  ∀ (s : State) (c : Context) (v : Variant) (dec : Byte), s.ctx? = some c →
    (dec, v) ∈ ([(1, .igmpv2Query), (1, .igmpv3Query), (2, .igmpv2Report), (3, .igmpv2Leave), (4, .igmpv3Report),
      (5, .mldv1Query), (5, .mldv2Query), (6, .mldv1Report), (7, .mldv1Done), (8, .mldv2Report)] :
      List (Byte × Variant)) →
    s.regRead v.fam (c.buf.read 0) = dec →
    (if v = .igmpv2Query then c.bufLen = 8 else if v = .mldv1Query then c.bufLen = 24 else v.fixedLen ≤ c.bufLen) →
    let span := declaredSpan v c.buf
    let sealed := { s with isSealed := true }
    (if c.bufLen < span then exec (.parse v.fam.id) s = .next (sealed.emit [0x01])
     else if c.csum span (decide (v.fam = .mld)) ≠ c.buf.u16 2 then exec (.parse v.fam.id) s = .next (sealed.emit [0x04])
     else if v ∈ reports ∧ ∃ i < c.buf.u16 6, rtypeLegal (c.buf.read (recordOffset c.buf v.fam i)) = false
       then exec (.parse v.fam.id) s = .next (sealed.emit [0x05])
     else ∃ m : Message, m.variant = v ∧ MessageAt c.buf m ∧ exec (.parse v.fam.id) s =
       .next ((sealed.setCtx { c with msg := m, msgValid := true }).emit [0x00, v.id]))

/-- R302: `PARSE` is deterministic and repeatable: run again on the state it leaves, it gives the same response and
changes nothing more. -/
def Obligations.ParseRepeats : Prop :=
  ∀ (s t : State) (fam : Byte) (r : List Byte), exec (.parse fam) s = .next t → t.responses = s.responses ++ [r] →
    s.ctx? ≠ none → exec (.parse fam) t = .next (t.emit r)
end

