-- ==== Sys2Proof/Laws/Decode.lean ====
section
/-! SUPPORT. Laws/Decode.lean: big-endian operands read back, and one lemma a format of R111: what the decoder makes of
its bytes. -/

namespace Sys2Proof

open Sys2Proof.Machine

/-! Operands. -/

theorem be16_toNat (hi lo : Byte) : (be16 hi lo).toNat = hi.toNat * 256 + lo.toNat := by
  simp only [be16, BitVec.toNat_append]
  rw [← Nat.shiftLeft_add_eq_or_of_lt lo.isLt, Nat.shiftLeft_eq]

theorem be32_toNat (b0 b1 b2 b3 : Byte) :
    (be32 b0 b1 b2 b3).toNat = b0.toNat * 2 ^ 24 + b1.toNat * 2 ^ 16 + b2.toNat * 2 ^ 8 + b3.toNat := by
  have h0 := b0.isLt; have h1 := b1.isLt; have h2 := b2.isLt; have h3 := b3.isLt
  simp only [be32, BitVec.toNat_append]
  rw [← Nat.shiftLeft_add_eq_or_of_lt h1, ← Nat.shiftLeft_add_eq_or_of_lt h2, ← Nat.shiftLeft_add_eq_or_of_lt h3]
  simp only [Nat.shiftLeft_eq]
  omega

/-- The bytes of a number below 2^16, read back. -/
theorem be16_bytes_toNat {n : Nat} (h : n < 2 ^ 16) :
    (be16 (BitVec.ofNat 8 (n / 2 ^ 8)) (BitVec.ofNat 8 n)).toNat = n := by
  rw [be16_toNat]
  simp only [BitVec.toNat_ofNat]
  omega

theorem be16_bytes (v : Half) : be16 (BitVec.ofNat 8 (v.toNat / 2 ^ 8)) (BitVec.ofNat 8 v.toNat) = v :=
  BitVec.eq_of_toNat_eq (be16_bytes_toNat v.isLt)

theorem be32_bytes (v : Word) :
    be32 (BitVec.ofNat 8 (v.toNat / 2 ^ 24)) (BitVec.ofNat 8 (v.toNat / 2 ^ 16)) (BitVec.ofNat 8 (v.toNat / 2 ^ 8))
      (BitVec.ofNat 8 v.toNat) = v := by
  apply BitVec.eq_of_toNat_eq
  rw [be32_toNat]
  simp only [BitVec.toNat_ofNat]
  omega

/-- The other way round: the bytes of what two bytes make are those two bytes. -/
theorem bytes16_be16 (hi lo : Byte) : bytes16 (be16 hi lo).toNat = [hi, lo] := by
  have h1 := hi.isLt; have h2 := lo.isLt
  rw [bytes16, be16_toNat]
  congr 1
  · apply BitVec.eq_of_toNat_eq; rw [BitVec.toNat_ofNat]; omega
  · congr 1; apply BitVec.eq_of_toNat_eq; rw [BitVec.toNat_ofNat]; omega

theorem bytes32_be32 (b0 b1 b2 b3 : Byte) : bytes32 (be32 b0 b1 b2 b3).toNat = [b0, b1, b2, b3] := by
  have h0 := b0.isLt; have h1 := b1.isLt; have h2 := b2.isLt; have h3 := b3.isLt
  rw [bytes32, be32_toNat]
  refine congr (congrArg _ ?_) (congr (congrArg _ ?_) (congr (congrArg _ ?_) (congr (congrArg _ ?_) rfl)))
  all_goals apply BitVec.eq_of_toNat_eq; rw [BitVec.toNat_ofNat]; omega

@[simp] theorem bytes16_length (n : Nat) : (bytes16 n).length = 2 := rfl
@[simp] theorem bytes32_length (n : Nat) : (bytes32 n).length = 4 := rfl
@[simp] theorem bytes8_length (n : Nat) : (bytes8 n).length = 1 := rfl
/-- One byte is its own byte string. -/
theorem bytes8_toNat (b : Byte) : bytes8 b.toNat = [b] := by simp [bytes8]

@[simp] theorem zeros_length (n : Nat) : (zeros n).length = n := List.length_replicate

/-! One lemma a format. -/

theorem decode_N {op : Byte} {i : Instr} (hs : shapeOf op = some (.N i)) : decode [op] = .ok i := by
  simp only [decode, hs]; rfl

theorem decode_O {op : Byte} {k : Half → Instr} (hs : shapeOf op = some (.O k)) (off : Half) :
    decode (op :: bytes16 off.toNat) = .ok (k off) := by
  simp only [decode, hs]
  exact congrArg (fun v => Except.ok (k v)) (be16_bytes off)

theorem decode_I {op : Byte} {k : Half → Instr} (hs : shapeOf op = some (.I k)) (off : Half) :
    decode (op :: bytes16 off.toNat) = .ok (k off) := by
  simp only [decode, hs]
  exact congrArg (fun v => Except.ok (k v)) (be16_bytes off)

theorem decode_H {op : Byte} {k : Half → Instr} (hs : shapeOf op = some (.H k)) (v : Half) :
    decode (op :: bytes16 v.toNat) = .ok (k v) := by
  simp only [decode, hs]
  exact congrArg (fun v => Except.ok (k v)) (be16_bytes v)

theorem decode_V {op : Byte} {k : Word → Instr} (hs : shapeOf op = some (.V k)) (v : Word) :
    decode (op :: bytes32 v.toNat) = .ok (k v) := by
  simp only [decode, hs]
  exact congrArg (fun v => Except.ok (k v)) (be32_bytes v)

theorem decode_OV {op : Byte} {k : Half → Word → Instr} (hs : shapeOf op = some (.OV k)) (off : Half) (v : Word) :
    decode (op :: (bytes16 off.toNat ++ bytes32 v.toNat)) = .ok (k off v) := by
  simp only [decode, hs]
  exact congrArg₂ (fun o v => Except.ok (k o v)) (be16_bytes off) (be32_bytes v)

theorem decode_OSW {op : Byte} {k : Half → Byte → Byte → Instr} (hs : shapeOf op = some (.OSW k)) (off : Half)
    (sh w : Byte) : decode (op :: (bytes16 off.toNat ++ [sh, w])) = .ok (k off sh w) := by
  simp only [decode, hs]
  exact congrArg (fun o => Except.ok (k o sh w)) (be16_bytes off)

theorem decode_OSWV {op : Byte} {k : Half → Byte → Byte → Word → Instr} (hs : shapeOf op = some (.OSWV k)) (off : Half)
    (sh w : Byte) (v : Word) :
    decode (op :: (bytes16 off.toNat ++ [sh, w] ++ bytes32 v.toNat)) = .ok (k off sh w v) := by
  simp only [decode, hs]
  exact congrArg₂ (fun o v => Except.ok (k o sh w v)) (be16_bytes off) (be32_bytes v)

theorem decode_ON {op : Byte} {k : Half → Half → Instr} (hs : shapeOf op = some (.ON k)) (off n : Half) :
    decode (op :: (bytes16 off.toNat ++ bytes16 n.toNat)) = .ok (k off n) := by
  simp only [decode, hs]
  exact congrArg₂ (fun o n => Except.ok (k o n)) (be16_bytes off) (be16_bytes n)

theorem decode_LP {op : Byte} {k : Half → Byte → Instr} (hs : shapeOf op = some (.LP k)) (len : Half) (p : Byte) :
    decode (op :: (bytes16 len.toNat ++ [p])) = .ok (k len p) := by
  simp only [decode, hs]
  exact congrArg (fun o => Except.ok (k o p)) (be16_bytes len)

theorem decode_OF {op : Byte} {k : Half → Byte → Instr} (hs : shapeOf op = some (.OF k)) (off : Half) (fam : Byte) :
    decode (op :: (bytes16 off.toNat ++ [fam])) = .ok (k off fam) := by
  simp only [decode, hs]
  exact congrArg (fun o => Except.ok (k o fam)) (be16_bytes off)

theorem decode_T {op : Byte} {k : Byte → Instr} (hs : shapeOf op = some (.T k)) (t : Byte) :
    decode [op, t] = .ok (k t) := by simp only [decode, hs]; rfl

theorem decode_F {op : Byte} {k : Byte → Instr} (hs : shapeOf op = some (.F k)) (fam : Byte) :
    decode [op, fam] = .ok (k fam) := by simp only [decode, hs]; rfl

theorem decode_FT {op : Byte} {k : Byte → Byte → Instr} (hs : shapeOf op = some (.FT k)) (fam t : Byte) :
    decode [op, fam, t] = .ok (k fam t) := by simp only [decode, hs]; rfl

theorem decode_FTD {op : Byte} {k : Byte → Byte → Byte → Instr} (hs : shapeOf op = some (.FTD k)) (fam tag dec : Byte) :
    decode [op, fam, tag, dec] = .ok (k fam tag dec) := by simp only [decode, hs]; rfl

theorem decode_D {op : Byte} {k : List Byte → Instr} (hs : shapeOf op = some (.D k)) {data : List Byte}
    (h : data.length ≤ 65535) : decode (op :: (bytes16 data.length ++ data)) = .ok (k data) := by
  have hn := be16_bytes_toNat (show data.length < 2 ^ 16 by omega)
  simp only [decode, hs, bytes16, List.cons_append, List.nil_append, Shape.dataLen, hn, List.length_cons,
    Shape.operands]
  exact if_pos (by simp only [Shape.fixedLen]; omega)

theorem decode_OD {op : Byte} {k : Half → List Byte → Instr} (hs : shapeOf op = some (.OD k)) (off : Half)
    {data : List Byte} (h : data.length ≤ 65535) :
    decode (op :: (bytes16 off.toNat ++ bytes16 data.length ++ data)) = .ok (k off data) := by
  have hn := be16_bytes_toNat (show data.length < 2 ^ 16 by omega)
  simp only [decode, hs, bytes16, List.cons_append, List.nil_append, Shape.dataLen, hn, List.length_cons,
    Shape.operands, be16_bytes off]
  exact if_pos (by simp only [Shape.fixedLen]; omega)

theorem decode_A {op : Byte} {k : List Byte → Instr} (hs : shapeOf op = some (.A k)) {addr : List Byte}
    (h : addr.length ≤ 255) : decode (op :: (bytes8 addr.length ++ addr)) = .ok (k addr) := by
  have hn : (BitVec.ofNat 8 addr.length).toNat = addr.length := by simp; omega
  simp only [decode, hs, bytes8, List.cons_append, List.nil_append, Shape.dataLen, hn, List.length_cons,
    Shape.operands]
  exact if_pos (by simp only [Shape.fixedLen]; omega)

/-! The opcode map of R112, read backwards. -/

/-- The encoding of every command a shape builds is the opcode and the operands in the places of R111. -/
def Shape.Encodes (op : Byte) : Shape → Prop
  | .N i => encode i = [op] ∧ i.wf = true
  | .O k => ∀ off, encode (k off) = op :: encHalf off ∧ (k off).wf = true
  | .OV k => ∀ off v, encode (k off v) = op :: (encHalf off ++ encWord v) ∧ (k off v).wf = true
  | .OSW k => ∀ off sh w, encode (k off sh w) = op :: (encHalf off ++ [sh, w]) ∧ (k off sh w).wf = true
  | .OSWV k => ∀ off sh w v,
      encode (k off sh w v) = op :: (encHalf off ++ [sh, w] ++ encWord v) ∧ (k off sh w v).wf = true
  | .ON k => ∀ off n, encode (k off n) = op :: (encHalf off ++ encHalf n) ∧ (k off n).wf = true
  | .OD k => ∀ off data, encode (k off data) = op :: (encHalf off ++ bytes16 data.length ++ data) ∧
      (data.length ≤ 65535 → (k off data).wf = true)
  | .D k => ∀ data, encode (k data) = op :: (bytes16 data.length ++ data) ∧
      (data.length ≤ 65535 → (k data).wf = true)
  | .A k => ∀ addr, encode (k addr) = op :: (bytes8 addr.length ++ addr) ∧ (addr.length ≤ 255 → (k addr).wf = true)
  | .V k => ∀ v, encode (k v) = op :: encWord v ∧ (k v).wf = true
  | .H k => ∀ v, encode (k v) = op :: encHalf v ∧ (k v).wf = true
  | .T k => ∀ t, encode (k t) = [op, t] ∧ (k t).wf = true
  | .I k => ∀ i, encode (k i) = op :: encHalf i ∧ (k i).wf = true
  | .LP k => ∀ len p, encode (k len p) = op :: (encHalf len ++ [p]) ∧ (k len p).wf = true
  | .F k => ∀ fam, encode (k fam) = [op, fam] ∧ (k fam).wf = true
  | .FT k => ∀ fam t, encode (k fam t) = [op, fam, t] ∧ (k fam t).wf = true
  | .FTD k => ∀ fam tag dec, encode (k fam tag dec) = [op, fam, tag, dec] ∧ (k fam tag dec).wf = true
  | .OF k => ∀ off fam, encode (k off fam) = op :: (encHalf off ++ [fam]) ∧ (k off fam).wf = true

/-- The decoder's opcode map and the encoder agree, opcode by opcode. -/
theorem shapeOf_encodes {op : Byte} {sh : Shape} (h : shapeOf op = some sh) : sh.Encodes op := by
  have hop : op = BitVec.ofNat 8 op.toNat := by simp
  unfold shapeOf at h
  split at h <;> cases h
  all_goals
    rename_i hn
    rw [hn] at hop
    subst hop
    simp [Shape.Encodes, encode, Instr.wf, dataFits, addrFits, maxData, maxAddr]
  all_goals exact fun _ hlen => decide_eq_true hlen

end Sys2Proof
end

