-- ==== Sys2Proof/Laws/Memory.lean ====
section
/-! SUPPORT. Laws/Memory.lean: the byte table. Read after write, the canonical form kept by every operation, and equal
reads giving equal tables. -/

namespace Sys2Proof.Machine

/-! The canonical form. -/

theorem Memory.wfFrom_cons {lo k : Nat} {v : Byte} {rest : Memory} :
    Memory.wfFrom lo ((k, v) :: rest) = true ↔ lo ≤ k ∧ v ≠ 0 ∧ Memory.wfFrom (k + 1) rest = true := by
  simp [Memory.wfFrom, and_assoc]

theorem Memory.wfFrom_mono {lo lo' : Nat} {m : Memory} (h : Memory.wfFrom lo m = true) (hle : lo' ≤ lo) :
    Memory.wfFrom lo' m = true := by
  cases m with
  | nil => rfl
  | cons cell rest =>
    obtain ⟨k, v⟩ := cell
    rw [Memory.wfFrom_cons] at h ⊢
    exact ⟨by omega, h.2⟩

theorem Memory.read_below_wfFrom {lo a : Nat} {m : Memory} (h : Memory.wfFrom lo m = true) (ha : a < lo) :
    m.read a = 0 := by
  induction m generalizing lo with
  | nil => rfl
  | cons cell rest ih =>
    obtain ⟨k, v⟩ := cell
    rw [Memory.wfFrom_cons] at h
    have hne : a ≠ k := by omega
    simp only [Memory.read, hne, if_false]
    exact ih h.2.2 (by omega)

/-! One byte. -/

/-- Read after write, at the address written and at every other. -/
theorem Memory.read_write_wfFrom {lo : Nat} {m : Memory} (h : Memory.wfFrom lo m = true) (a x : Nat) (b : Byte) :
    (m.write a b).read x = if x = a then b else m.read x := by
  induction m generalizing lo with
  | nil =>
    by_cases hb : b = 0
    · subst hb; simp [Memory.write, Memory.read]
    · simp only [Memory.write, Memory.read]; rw [if_neg hb]; rfl
  | cons cell rest ih =>
    obtain ⟨k, v⟩ := cell
    obtain ⟨-, -, hrest⟩ := Memory.wfFrom_cons.mp h
    have hz : ∀ y, y ≤ k → Memory.read rest y = 0 := fun y hy => Memory.read_below_wfFrom hrest (by omega)
    simp only [Memory.write]
    by_cases hak : a < k
    · rw [if_pos hak]
      by_cases hb : b = 0
      · rw [if_pos hb]
        by_cases hx : x = a
        · subst hx
          simp only [Memory.read]
          rw [if_neg (by omega), if_pos trivial, hz x (by omega), hb]
        · rw [if_neg hx]
      · rw [if_neg hb]; rfl
    · rw [if_neg hak]
      by_cases hek : a = k
      · subst hek
        rw [if_pos rfl]
        by_cases hb : b = 0
        · rw [if_pos hb]
          by_cases hx : x = a
          · rw [if_pos hx, hx, hz a (Nat.le_refl a), hb]
          · simp only [Memory.read]; rw [if_neg hx, if_neg hx]
        · rw [if_neg hb]
          simp only [Memory.read]
          by_cases hx : x = a
          · rw [if_pos hx, if_pos hx]
          · rw [if_neg hx, if_neg hx, if_neg hx]
      · rw [if_neg hek]
        simp only [Memory.read]
        rw [ih hrest]
        by_cases hx : x = k
        · rw [if_pos hx, if_pos hx, if_neg (by omega)]
        · rw [if_neg hx, if_neg hx]

theorem Memory.wfFrom_write {lo : Nat} {m : Memory} (h : Memory.wfFrom lo m = true) {a : Nat} (ha : lo ≤ a) (b : Byte) :
    Memory.wfFrom lo (m.write a b) = true := by
  induction m generalizing lo with
  | nil =>
    simp only [Memory.write]
    by_cases hb : b = 0
    · rw [if_pos hb]; rfl
    · rw [if_neg hb]; exact Memory.wfFrom_cons.mpr ⟨ha, hb, rfl⟩
  | cons cell rest ih =>
    obtain ⟨k, v⟩ := cell
    obtain ⟨hlo, hv, hrest⟩ := Memory.wfFrom_cons.mp h
    simp only [Memory.write]
    by_cases hak : a < k
    · rw [if_pos hak]
      by_cases hb : b = 0
      · rwa [if_pos hb]
      · rw [if_neg hb]
        exact Memory.wfFrom_cons.mpr ⟨ha, hb, Memory.wfFrom_cons.mpr ⟨hak, hv, hrest⟩⟩
    · rw [if_neg hak]
      by_cases hek : a = k
      · subst hek
        rw [if_pos rfl]
        by_cases hb : b = 0
        · rw [if_pos hb]; exact Memory.wfFrom_mono hrest (by omega)
        · rw [if_neg hb]; exact Memory.wfFrom_cons.mpr ⟨ha, hb, hrest⟩
      · rw [if_neg hek]
        exact Memory.wfFrom_cons.mpr ⟨hlo, hv, ih hrest (by omega)⟩

/-- Read after write on a canonical table. -/
theorem Memory.read_write {m : Memory} (h : m.wf = true) (a x : Nat) (b : Byte) :
    (m.write a b).read x = if x = a then b else m.read x := Memory.read_write_wfFrom h a x b

/-- A store keeps the canonical form. -/
theorem Memory.wf_write {m : Memory} (h : m.wf = true) (a : Nat) (b : Byte) : (m.write a b).wf = true :=
  Memory.wfFrom_write h (Nat.zero_le a) b

/-! Byte strings. -/

@[simp] theorem Memory.length_readBytes (m : Memory) (a n : Nat) : (m.readBytes a n).length = n := by
  induction n generalizing a with
  | zero => rfl
  | succ n ih => simp [Memory.readBytes, ih]

theorem Memory.getElem?_readBytes (m : Memory) (a n i : Nat) :
    (m.readBytes a n)[i]? = if i < n then some (m.read (a + i)) else none := by
  induction n generalizing a i with
  | zero => simp [Memory.readBytes]
  | succ n ih =>
    cases i with
    | zero => simp [Memory.readBytes]
    | succ i =>
      have : a + 1 + i = a + (i + 1) := by omega
      simp [Memory.readBytes, ih, this]

theorem Memory.readBytes_add (m : Memory) (a n k : Nat) :
    m.readBytes a (n + k) = m.readBytes a n ++ m.readBytes (a + n) k := by
  induction n generalizing a with
  | zero => simp [Memory.readBytes]
  | succ n ih =>
    have h1 : n + 1 + k = (n + k) + 1 := by omega
    have h2 : a + 1 + n = a + (n + 1) := by omega
    rw [h1]; simp [Memory.readBytes, ih, h2]

/-- Two tables that agree on a range give the same bytes there. -/
theorem Memory.readBytes_congr {m m' : Memory} {a n : Nat} (h : ∀ x, a ≤ x → x < a + n → m.read x = m'.read x) :
    m.readBytes a n = m'.readBytes a n := by
  induction n generalizing a with
  | zero => rfl
  | succ n ih =>
    simp only [Memory.readBytes]
    rw [h a (Nat.le_refl a) (by omega), ih fun x hx hx' => h x (by omega) (by omega)]

/-- A stored byte string keeps the canonical form. -/
theorem Memory.wf_writeBytes {m : Memory} (h : m.wf = true) (a : Nat) (bs : List Byte) :
    (m.writeBytes a bs).wf = true := by
  induction bs generalizing m a with
  | nil => exact h
  | cons b bs ih => exact ih (Memory.wf_write h a b) (a + 1)

/-- Read after a stored byte string: its own bytes inside it, the old ones outside. -/
theorem Memory.read_writeBytes {m : Memory} (h : m.wf = true) (a x : Nat) (bs : List Byte) :
    (m.writeBytes a bs).read x = if a ≤ x ∧ x < a + bs.length then bs.getD (x - a) 0 else m.read x := by
  induction bs generalizing m a with
  | nil =>
    simp only [Memory.writeBytes, List.length_nil]
    rw [if_neg (by omega)]
  | cons b bs ih =>
    simp only [Memory.writeBytes, List.length_cons]
    rw [ih (Memory.wf_write h a b), Memory.read_write h]
    by_cases h1 : x = a
    · subst h1
      have n1 : ¬ (x + 1 ≤ x ∧ x < x + 1 + bs.length) := by omega
      have n2 : x ≤ x ∧ x < x + (bs.length + 1) := by omega
      rw [if_neg n1, if_pos n2]; simp
    · by_cases h2 : a + 1 ≤ x ∧ x < a + 1 + bs.length
      · have h3 : a ≤ x ∧ x < a + (bs.length + 1) := by omega
        rw [if_pos h2, if_pos h3]
        have h4 : x - a = (x - (a + 1)) + 1 := by omega
        rw [h4, List.getD_cons_succ]
      · have h3 : ¬ (a ≤ x ∧ x < a + (bs.length + 1)) := by omega
        rw [if_neg h2, if_neg h3, if_neg h1]

/-- Outside a stored byte string every byte reads as before. -/
theorem Memory.read_writeBytes_outside {m : Memory} (h : m.wf = true) {a x : Nat} {bs : List Byte}
    (hx : x < a ∨ a + bs.length ≤ x) : (m.writeBytes a bs).read x = m.read x := by
  rw [Memory.read_writeBytes h, if_neg (by omega)]

/-- A stored byte string reads back. -/
theorem Memory.readBytes_writeBytes {m : Memory} (h : m.wf = true) (a : Nat) (bs : List Byte) :
    (m.writeBytes a bs).readBytes a bs.length = bs := by
  apply List.ext_getElem? fun i => ?_
  rw [Memory.getElem?_readBytes]
  by_cases hi : i < bs.length
  · rw [if_pos hi, Memory.read_writeBytes h, if_pos (by omega)]
    simp [List.getD, List.getElem?_eq_getElem hi]
  · rw [if_neg hi, List.getElem?_eq_none (by omega)]

/-- Bytes outside a stored byte string read back as before. -/
theorem Memory.readBytes_writeBytes_outside {m : Memory} (h : m.wf = true) {a x n : Nat} {bs : List Byte}
    (hx : x + n ≤ a ∨ a + bs.length ≤ x) : (m.writeBytes a bs).readBytes x n = m.readBytes x n :=
  Memory.readBytes_congr fun _ _ _ => Memory.read_writeBytes_outside h (by omega)

/-! A table made of a byte string. -/

theorem Memory.wfFrom_ofBytes (a : Nat) (bs : List Byte) : Memory.wfFrom a (Memory.ofBytes a bs) = true := by
  induction bs generalizing a with
  | nil => rfl
  | cons b bs ih =>
    by_cases hb : b = 0
    · simpa [Memory.ofBytes, hb] using Memory.wfFrom_mono (ih (a + 1)) (Nat.le_succ a)
    · simp only [Memory.ofBytes, hb, if_false]
      exact Memory.wfFrom_cons.mpr ⟨Nat.le_refl a, hb, ih (a + 1)⟩

theorem Memory.wf_ofBytes (a : Nat) (bs : List Byte) : (Memory.ofBytes a bs).wf = true :=
  Memory.wfFrom_mono (Memory.wfFrom_ofBytes a bs) (Nat.zero_le a)

theorem Memory.read_ofBytes (a x : Nat) (bs : List Byte) :
    (Memory.ofBytes a bs).read x = if a ≤ x then bs.getD (x - a) 0 else 0 := by
  induction bs generalizing a with
  | nil => simp [Memory.ofBytes, Memory.read]
  | cons b bs ih =>
    have hread : (Memory.ofBytes a (b :: bs)).read x = if x = a then b else (Memory.ofBytes (a + 1) bs).read x := by
      by_cases hb : b = 0
      · subst hb
        by_cases hx : x = a
        · subst hx
          simpa [Memory.ofBytes] using Memory.read_below_wfFrom (Memory.wfFrom_ofBytes (x + 1) bs) (Nat.lt_succ_self x)
        · simp [Memory.ofBytes, hx]
      · simp only [Memory.ofBytes]; rw [if_neg hb]; rfl
    rw [hread, ih]
    by_cases hx : x = a
    · subst hx; simp
    · by_cases h1 : a + 1 ≤ x
      · have h2 : x - a = (x - (a + 1)) + 1 := by omega
        rw [if_neg hx, if_pos h1, if_pos (by omega : a ≤ x), h2, List.getD_cons_succ]
      · rw [if_neg hx, if_neg h1, if_neg (by omega : ¬ a ≤ x)]

/-- The bytes of a table made of a byte string are that byte string. -/
theorem Memory.readBytes_ofBytes (bs : List Byte) : (Memory.ofBytes 0 bs).readBytes 0 bs.length = bs := by
  apply List.ext_getElem? fun i => ?_
  rw [Memory.getElem?_readBytes]
  by_cases hi : i < bs.length
  · rw [if_pos hi, Memory.read_ofBytes]
    simp [List.getD, List.getElem?_eq_getElem hi]
  · rw [if_neg hi, List.getElem?_eq_none (by omega)]

/-! Clearing a range. -/

theorem Memory.wfFrom_filter {lo : Nat} {m : Memory} (h : Memory.wfFrom lo m = true) (p : Host.Cell → Bool) :
    Memory.wfFrom lo (m.filter p) = true := by
  induction m generalizing lo with
  | nil => rfl
  | cons cell rest ih =>
    obtain ⟨k, v⟩ := cell
    obtain ⟨hlo, hv, hrest⟩ := Memory.wfFrom_cons.mp h
    by_cases hp : p (k, v) = true
    · rw [List.filter_cons_of_pos hp]
      exact Memory.wfFrom_cons.mpr ⟨hlo, hv, ih hrest⟩
    · rw [List.filter_cons_of_neg hp]
      exact ih (Memory.wfFrom_mono hrest (by omega))

theorem Memory.wf_zeroRange {m : Memory} (h : m.wf = true) (lo hi : Nat) : (m.zeroRange lo hi).wf = true :=
  Memory.wfFrom_filter h _

/-- After clearing a range, the bytes inside it are 0 and the others as before. -/
theorem Memory.read_zeroRange (m : Memory) (lo hi x : Nat) :
    (m.zeroRange lo hi).read x = if lo ≤ x ∧ x < hi then 0 else m.read x := by
  induction m with
  | nil => simp [Memory.zeroRange, Memory.read]
  | cons cell rest ih =>
    obtain ⟨k, v⟩ := cell
    have ih' : Memory.read (rest.filter fun cell => decide (cell.1 < lo ∨ hi ≤ cell.1)) x
        = if lo ≤ x ∧ x < hi then 0 else Memory.read rest x := ih
    by_cases hk : k < lo ∨ hi ≤ k
    · have hf : Memory.zeroRange ((k, v) :: rest) lo hi
          = (k, v) :: rest.filter fun cell => decide (cell.1 < lo ∨ hi ≤ cell.1) := by simp [Memory.zeroRange, hk]
      rw [hf]
      simp only [Memory.read]
      rw [ih']
      by_cases hx : x = k
      · subst hx; rw [if_pos rfl, if_pos rfl, if_neg (by omega)]
      · rw [if_neg hx, if_neg hx]
    · have hf : Memory.zeroRange ((k, v) :: rest) lo hi
          = rest.filter fun cell => decide (cell.1 < lo ∨ hi ≤ cell.1) := by simp [Memory.zeroRange, hk]
      rw [hf, ih']
      simp only [Memory.read]
      by_cases hx : x = k
      · subst hx; rw [if_pos (by omega), if_pos (by omega)]
      · rw [if_neg hx]

/-! The zero tail. -/

/-- On a canonical table, the addresses listed are below `hi` exactly when every byte from `hi` up is 0 (R26). -/
theorem Memory.below_iff {m : Memory} (h : m.wf = true) (hi : Nat) :
    m.below hi = true ↔ ∀ x, hi ≤ x → m.read x = 0 := by
  suffices H : ∀ lo, Memory.wfFrom lo m = true → (m.below hi = true ↔ ∀ x, hi ≤ x → m.read x = 0) from H 0 h
  intro lo hlo
  clear h
  induction m generalizing lo with
  | nil => simp [Memory.below, Memory.read]
  | cons cell rest ih =>
    obtain ⟨k, v⟩ := cell
    obtain ⟨-, hv, hrest⟩ := Memory.wfFrom_cons.mp hlo
    have ih := ih (k + 1) hrest
    have hcons : Memory.below ((k, v) :: rest) hi = true ↔ k < hi ∧ Memory.below rest hi = true := by
      simp [Memory.below]
    rw [hcons, ih]
    constructor
    · rintro ⟨hk, hz⟩ x hx
      simp only [Memory.read]
      rw [if_neg (by omega)]
      exact hz x hx
    · intro hz
      have hk : k < hi := by
        by_contra hc
        have := hz k (by omega)
        simp [Memory.read] at this
        exact hv this
      refine ⟨hk, fun x hx => ?_⟩
      have := hz x hx
      simp only [Memory.read] at this
      rwa [if_neg (by omega)] at this

/-! Equality. -/

/-- Canonical tables that read the same are the same data. -/
theorem Memory.eq_of_read {m m' : Memory} (h : m.wf = true) (h' : m'.wf = true) (heq : ∀ x, m.read x = m'.read x) :
    m = m' := by
  suffices H : ∀ (m m' : Memory) (lo lo' : Nat), Memory.wfFrom lo m = true → Memory.wfFrom lo' m' = true →
      (∀ x, m.read x = m'.read x) → m = m' from H m m' 0 0 h h' heq
  clear h h' heq m m'
  intro m
  induction m with
  | nil =>
    intro m' lo lo' _ h' heq
    cases m' with
    | nil => rfl
    | cons cell rest =>
      obtain ⟨k, v⟩ := cell
      obtain ⟨-, hv, -⟩ := Memory.wfFrom_cons.mp h'
      have := heq k
      simp [Memory.read] at this
      exact absurd this.symm hv
  | cons cell rest ih =>
    obtain ⟨k, v⟩ := cell
    intro m' lo lo' h h' heq
    obtain ⟨-, hv, hrest⟩ := Memory.wfFrom_cons.mp h
    cases m' with
    | nil =>
      have := heq k
      simp [Memory.read] at this
      exact absurd this hv
    | cons cell' rest' =>
      obtain ⟨k', v'⟩ := cell'
      obtain ⟨-, hv', hrest'⟩ := Memory.wfFrom_cons.mp h'
      have hkk : k = k' := by
        rcases Nat.lt_trichotomy k k' with hlt | heq' | hgt
        · have := heq k
          simp only [Memory.read, if_true] at this
          rw [if_neg (by omega), Memory.read_below_wfFrom hrest' (by omega)] at this
          exact absurd this hv
        · exact heq'
        · have := heq k'
          simp only [Memory.read, if_true] at this
          rw [if_neg (by omega), Memory.read_below_wfFrom hrest (by omega)] at this
          exact absurd this.symm hv'
      subst hkk
      have hvv : v = v' := by simpa [Memory.read] using heq k
      subst hvv
      have : rest = rest' := ih rest' (k + 1) (k + 1) hrest hrest' fun x => by
        by_cases hx : x = k
        · subst hx
          rw [Memory.read_below_wfFrom hrest (Nat.lt_succ_self x),
            Memory.read_below_wfFrom hrest' (Nat.lt_succ_self x)]
        · have := heq x
          simpa [Memory.read, hx] using this
      rw [this]

end Sys2Proof.Machine
end

