-- ==== Sys2Proof/Laws/Checksum.lean ====
section
/-! SUPPORT. Laws/Checksum.lean: carry folding said once, and what the checksum of a buffer depends on. -/

namespace Sys2Proof.Machine

/-! Carry folding (R171). -/

theorem foldUpTo_spec (fuel acc : Nat) (h : acc ≤ fuel) :
    foldUpTo fuel acc < 2 ^ 16 ∧ foldUpTo fuel acc % 65535 = acc % 65535 ∧ (foldUpTo fuel acc = 0 ↔ acc = 0) := by
  induction fuel generalizing acc with
  | zero =>
    obtain rfl : acc = 0 := by omega
    simp [foldUpTo]
  | succ fuel ih =>
    simp only [foldUpTo]
    split
    · exact ⟨‹_›, rfl, Iff.rfl⟩
    · obtain ⟨h1, h2, h3⟩ := ih (acc % 2 ^ 16 + acc / 2 ^ 16) (by omega)
      exact ⟨h1, by omega, h3.trans (by omega)⟩

/-- All there is to carry folding: the result is 16 bits wide, congruent to the sum modulo 0xFFFF, and 0 only for 0. -/
theorem foldCarries_spec (acc : Nat) :
    foldCarries acc < 2 ^ 16 ∧ foldCarries acc % 65535 = acc % 65535 ∧ (foldCarries acc = 0 ↔ acc = 0) :=
  foldUpTo_spec acc acc (Nat.le_refl acc)

/-- Sums that agree modulo 0xFFFF, and on being 0, fold to the same value. -/
theorem foldCarries_eq {a b : Nat} (h : a % 65535 = b % 65535) (h0 : a = 0 ↔ b = 0) : foldCarries a = foldCarries b := by
  obtain ⟨a1, a2, a3⟩ := foldCarries_spec a
  obtain ⟨b1, b2, b3⟩ := foldCarries_spec b
  omega

/-! Word sums (R170, R172). -/

/-- A word sum is additive over byte strings of even length. -/
theorem wordSum_append {a b : List Byte} (h : a.length % 2 = 0) : wordSum (a ++ b) = wordSum a + wordSum b := by
  induction a using wordSum.induct with
  | case1 => simp [wordSum]
  | case2 hi => simp at h
  | case3 hi lo rest ih =>
    simp only [List.length_cons] at h
    simp only [List.cons_append, wordSum, ih (by omega)]
    omega

/-- Changing one byte changes the word sum by that byte's weight. -/
theorem wordSum_set (d : List Byte) (k : Nat) (x : Byte) (h : k < d.length) :
    wordSum (d.set k x) + (d.getD k 0).toNat * (if k % 2 = 0 then 256 else 1) =
      wordSum d + x.toNat * (if k % 2 = 0 then 256 else 1) := by
  induction d using wordSum.induct generalizing k with
  | case1 => simp at h
  | case2 hi =>
    obtain rfl : k = 0 := by simpa using h
    simp [wordSum]; omega
  | case3 hi lo rest ih =>
    match k with
    | 0 => simp [wordSum]; omega
    | 1 => simp [wordSum]; omega
    | k + 2 =>
      have hk : k < rest.length := by simpa using h
      have := ih k hk
      have hm : (k + 2) % 2 = k % 2 := by omega
      simp only [List.set_cons_succ, wordSum, List.getD_cons_succ, hm]
      omega

/-! The checksum of a buffer (R170, R173). -/

/-- A checksum fits 16 bits. -/
theorem checksumOf_le (src dst d : List Byte) (p : Bool) : checksumOf src dst d p ≤ 0xFFFF := Nat.sub_le _ _

theorem Context.csum_le (c : Context) (len : Nat) (p : Bool) : c.csum len p ≤ 0xFFFF := checksumOf_le _ _ _ _

theorem zeroChecksumField_congr {d d' : List Byte} (hl : d.length = d'.length)
    (h : ∀ k, k ≠ 2 → k ≠ 3 → d[k]? = d'[k]?) : zeroChecksumField d = zeroChecksumField d' := by
  apply List.ext_getElem? fun k => ?_
  simp only [zeroChecksumField, List.getElem?_set, List.length_set, hl]
  by_cases h3 : 3 = k
  · simp [h3]
  · by_cases h2 : 2 = k
    · simp [h2]
    · simp only [h3, h2, if_false]
      exact h k (Ne.symm h2) (Ne.symm h3)

/-- A checksum depends on the buffer only through the bytes of the span outside the checksum field. -/
theorem Context.csum_congr {c c' : Context} {len : Nat} (hs : c.src = c'.src) (hd : c.dst = c'.dst)
    (h : ∀ k, k < len → k ≠ 2 → k ≠ 3 → c.buf.read k = c'.buf.read k) (p : Bool) : c.csum len p = c'.csum len p := by
  have hz : zeroChecksumField (c.buf.readBytes 0 len) = zeroChecksumField (c'.buf.readBytes 0 len) :=
    zeroChecksumField_congr (by simp) fun k h2 h3 => by
      simp only [Memory.getElem?_readBytes, Nat.zero_add]
      split
      · rw [h k ‹_› h2 h3]
      · rfl
  simp only [Context.csum, checksumOf, hz, hs, hd, Memory.length_readBytes]

/-- The stored checksum reads back. -/
theorem Memory.u16_writeBytes {m : Memory} (h : m.wf = true) (a : Nat) {v : Nat} (hv : v < 2 ^ 16) :
    (m.writeBytes a (bytes16 v)).u16 a = v := by
  rw [Memory.u16, Memory.read_writeBytes h, Memory.read_writeBytes h, if_pos (by simp), if_pos (by simp)]
  simp only [bytes16, Nat.sub_self, Nat.add_sub_cancel_left, List.getD_cons_zero, List.getD_cons_succ,
    BitVec.toNat_ofNat]
  omega

end Sys2Proof.Machine
end

