-- ==== Sys2Proof/Laws/State.lean ====
section
/-! SUPPORT. Laws/State.lean: what each update of the state leaves in each field, so that no proof unfolds one. -/

namespace Sys2Proof.Machine

/-! `State.emit`. -/

@[simp] theorem State.emit_bufCap (s : State) (r : List Byte) : (s.emit r).bufCap = s.bufCap := rfl
@[simp] theorem State.emit_regIgmp (s : State) (r : List Byte) : (s.emit r).regIgmp = s.regIgmp := rfl
@[simp] theorem State.emit_regMld (s : State) (r : List Byte) : (s.emit r).regMld = s.regMld := rfl
@[simp] theorem State.emit_isSealed (s : State) (r : List Byte) : (s.emit r).isSealed = s.isSealed := rfl
@[simp] theorem State.emit_fault (s : State) (r : List Byte) : (s.emit r).fault = s.fault := rfl
@[simp] theorem State.emit_faultCause (s : State) (r : List Byte) : (s.emit r).faultCause = s.faultCause := rfl
@[simp] theorem State.emit_ctxs (s : State) (r : List Byte) : (s.emit r).ctxs = s.ctxs := rfl
@[simp] theorem State.emit_cur (s : State) (r : List Byte) : (s.emit r).cur = s.cur := rfl
@[simp] theorem State.emit_inputs (s : State) (r : List Byte) : (s.emit r).inputs = s.inputs := rfl
@[simp] theorem State.emit_responses (s : State) (r : List Byte) : (s.emit r).responses = s.responses ++ [r] := rfl

/-! `State.setCtx`. -/

@[simp] theorem State.setCtx_bufCap (s : State) (c : Context) : (s.setCtx c).bufCap = s.bufCap := rfl
@[simp] theorem State.setCtx_regIgmp (s : State) (c : Context) : (s.setCtx c).regIgmp = s.regIgmp := rfl
@[simp] theorem State.setCtx_regMld (s : State) (c : Context) : (s.setCtx c).regMld = s.regMld := rfl
@[simp] theorem State.setCtx_isSealed (s : State) (c : Context) : (s.setCtx c).isSealed = s.isSealed := rfl
@[simp] theorem State.setCtx_fault (s : State) (c : Context) : (s.setCtx c).fault = s.fault := rfl
@[simp] theorem State.setCtx_faultCause (s : State) (c : Context) : (s.setCtx c).faultCause = s.faultCause := rfl
@[simp] theorem State.setCtx_ctxs (s : State) (c : Context) : (s.setCtx c).ctxs = s.ctxs.set s.cur.toNat c := rfl
@[simp] theorem State.setCtx_cur (s : State) (c : Context) : (s.setCtx c).cur = s.cur := rfl
@[simp] theorem State.setCtx_inputs (s : State) (c : Context) : (s.setCtx c).inputs = s.inputs := rfl
@[simp] theorem State.setCtx_responses (s : State) (c : Context) : (s.setCtx c).responses = s.responses := rfl

/-! `State.seal`. -/

@[simp] theorem State.seal_bufCap (s : State) : (s.seal).bufCap = s.bufCap := rfl
@[simp] theorem State.seal_regIgmp (s : State) : (s.seal).regIgmp = s.regIgmp := rfl
@[simp] theorem State.seal_regMld (s : State) : (s.seal).regMld = s.regMld := rfl
@[simp] theorem State.seal_isSealed (s : State) : (s.seal).isSealed = true := rfl
@[simp] theorem State.seal_fault (s : State) : (s.seal).fault = s.fault := rfl
@[simp] theorem State.seal_faultCause (s : State) : (s.seal).faultCause = s.faultCause := rfl
@[simp] theorem State.seal_ctxs (s : State) : (s.seal).ctxs = s.ctxs := rfl
@[simp] theorem State.seal_cur (s : State) : (s.seal).cur = s.cur := rfl
@[simp] theorem State.seal_inputs (s : State) : (s.seal).inputs = s.inputs := rfl
@[simp] theorem State.seal_responses (s : State) : (s.seal).responses = s.responses := rfl

/-! `State.regWrite`. -/

@[simp] theorem State.regWrite_bufCap (s : State) (f : Family) (t d : Byte) : (s.regWrite f t d).bufCap = s.bufCap := by cases f <;> rfl
@[simp] theorem State.regWrite_isSealed (s : State) (f : Family) (t d : Byte) : (s.regWrite f t d).isSealed = s.isSealed := by cases f <;> rfl
@[simp] theorem State.regWrite_fault (s : State) (f : Family) (t d : Byte) : (s.regWrite f t d).fault = s.fault := by cases f <;> rfl
@[simp] theorem State.regWrite_faultCause (s : State) (f : Family) (t d : Byte) : (s.regWrite f t d).faultCause = s.faultCause := by cases f <;> rfl
@[simp] theorem State.regWrite_ctxs (s : State) (f : Family) (t d : Byte) : (s.regWrite f t d).ctxs = s.ctxs := by cases f <;> rfl
@[simp] theorem State.regWrite_cur (s : State) (f : Family) (t d : Byte) : (s.regWrite f t d).cur = s.cur := by cases f <;> rfl
@[simp] theorem State.regWrite_inputs (s : State) (f : Family) (t d : Byte) : (s.regWrite f t d).inputs = s.inputs := by cases f <;> rfl
@[simp] theorem State.regWrite_responses (s : State) (f : Family) (t d : Byte) : (s.regWrite f t d).responses = s.responses := by cases f <;> rfl

@[simp] theorem State.regWrite_igmp_regIgmp (s : State) (t d : Byte) :
    (s.regWrite .igmp t d).regIgmp = s.regIgmp.write t.toNat d := rfl
@[simp] theorem State.regWrite_igmp_regMld (s : State) (t d : Byte) : (s.regWrite .igmp t d).regMld = s.regMld := rfl
@[simp] theorem State.regWrite_mld_regMld (s : State) (t d : Byte) :
    (s.regWrite .mld t d).regMld = s.regMld.write t.toNat d := rfl
@[simp] theorem State.regWrite_mld_regIgmp (s : State) (t d : Byte) : (s.regWrite .mld t d).regIgmp = s.regIgmp := rfl

@[simp] theorem State.regWrite_regOf_self (s : State) (f : Family) (t d : Byte) :
    (s.regWrite f t d).regOf f = (s.regOf f).write t.toNat d := by cases f <;> rfl

/-! `State.regBuild`. -/

@[simp] theorem State.regBuild_bufCap (s : State) : (s.regBuild).bufCap = s.bufCap := rfl
@[simp] theorem State.regBuild_isSealed (s : State) : (s.regBuild).isSealed = s.isSealed := rfl
@[simp] theorem State.regBuild_fault (s : State) : (s.regBuild).fault = s.fault := rfl
@[simp] theorem State.regBuild_faultCause (s : State) : (s.regBuild).faultCause = s.faultCause := rfl
@[simp] theorem State.regBuild_ctxs (s : State) : (s.regBuild).ctxs = s.ctxs := rfl
@[simp] theorem State.regBuild_cur (s : State) : (s.regBuild).cur = s.cur := rfl
@[simp] theorem State.regBuild_inputs (s : State) : (s.regBuild).inputs = s.inputs := rfl
@[simp] theorem State.regBuild_responses (s : State) : (s.regBuild).responses = s.responses := rfl

/-! `State.applyReset`. -/

@[simp] theorem State.applyReset_bufCap (s : State) : (s.applyReset).bufCap = s.bufCap := rfl
@[simp] theorem State.applyReset_regIgmp (s : State) : (s.applyReset).regIgmp = [] := rfl
@[simp] theorem State.applyReset_regMld (s : State) : (s.applyReset).regMld = [] := rfl
@[simp] theorem State.applyReset_isSealed (s : State) : (s.applyReset).isSealed = false := rfl
@[simp] theorem State.applyReset_fault (s : State) : (s.applyReset).fault = false := rfl
@[simp] theorem State.applyReset_faultCause (s : State) : (s.applyReset).faultCause = 0 := rfl
@[simp] theorem State.applyReset_ctxs (s : State) : (s.applyReset).ctxs = List.replicate s.nCtx Context.reset := rfl
@[simp] theorem State.applyReset_cur (s : State) : (s.applyReset).cur = 0 := rfl
@[simp] theorem State.applyReset_inputs (s : State) : (s.applyReset).inputs = s.inputs := rfl
@[simp] theorem State.applyReset_responses (s : State) : (s.applyReset).responses = s.responses := rfl

/-! `Context.loadMsg`. -/

@[simp] theorem Context.loadMsg_buf (c : Context) (m : Message) : (c.loadMsg m).buf = c.buf := rfl
@[simp] theorem Context.loadMsg_bufLen (c : Context) (m : Message) : (c.loadMsg m).bufLen = c.bufLen := rfl
@[simp] theorem Context.loadMsg_src (c : Context) (m : Message) : (c.loadMsg m).src = c.src := rfl
@[simp] theorem Context.loadMsg_dst (c : Context) (m : Message) : (c.loadMsg m).dst = c.dst := rfl
@[simp] theorem Context.loadMsg_msgValid (c : Context) (m : Message) : (c.loadMsg m).msgValid = true := rfl
@[simp] theorem Context.loadMsg_msg (c : Context) (m : Message) : (c.loadMsg m).msg = m := rfl
@[simp] theorem Context.loadMsg_grValid (c : Context) (m : Message) : (c.loadMsg m).grValid = c.grValid := rfl
@[simp] theorem Context.loadMsg_gr (c : Context) (m : Message) : (c.loadMsg m).gr = c.gr := rfl

/-! `Context.loadRec`. -/

@[simp] theorem Context.loadRec_buf (c : Context) (g : Record) : (c.loadRec g).buf = c.buf := rfl
@[simp] theorem Context.loadRec_bufLen (c : Context) (g : Record) : (c.loadRec g).bufLen = c.bufLen := rfl
@[simp] theorem Context.loadRec_src (c : Context) (g : Record) : (c.loadRec g).src = c.src := rfl
@[simp] theorem Context.loadRec_dst (c : Context) (g : Record) : (c.loadRec g).dst = c.dst := rfl
@[simp] theorem Context.loadRec_msgValid (c : Context) (g : Record) : (c.loadRec g).msgValid = c.msgValid := rfl
@[simp] theorem Context.loadRec_msg (c : Context) (g : Record) : (c.loadRec g).msg = c.msg := rfl
@[simp] theorem Context.loadRec_grValid (c : Context) (g : Record) : (c.loadRec g).grValid = true := rfl
@[simp] theorem Context.loadRec_gr (c : Context) (g : Record) : (c.loadRec g).gr = g := rfl

/-! `Context.bufReplace`. -/

@[simp] theorem Context.bufReplace_buf (c : Context) (d : List Byte) : (c.bufReplace d).buf = Memory.ofBytes 0 d := rfl
@[simp] theorem Context.bufReplace_bufLen (c : Context) (d : List Byte) : (c.bufReplace d).bufLen = d.length := rfl
@[simp] theorem Context.bufReplace_src (c : Context) (d : List Byte) : (c.bufReplace d).src = c.src := rfl
@[simp] theorem Context.bufReplace_dst (c : Context) (d : List Byte) : (c.bufReplace d).dst = c.dst := rfl
@[simp] theorem Context.bufReplace_msgValid (c : Context) (d : List Byte) : (c.bufReplace d).msgValid = c.msgValid := rfl
@[simp] theorem Context.bufReplace_msg (c : Context) (d : List Byte) : (c.bufReplace d).msg = c.msg := rfl
@[simp] theorem Context.bufReplace_grValid (c : Context) (d : List Byte) : (c.bufReplace d).grValid = c.grValid := rfl
@[simp] theorem Context.bufReplace_gr (c : Context) (d : List Byte) : (c.bufReplace d).gr = c.gr := rfl

/-! `Context.bufSetLen`. -/

@[simp] theorem Context.bufSetLen_buf (c : Context) (n : Nat) : (c.bufSetLen n).buf = c.buf.zeroRange n c.bufLen := rfl
@[simp] theorem Context.bufSetLen_bufLen (c : Context) (n : Nat) : (c.bufSetLen n).bufLen = n := rfl
@[simp] theorem Context.bufSetLen_src (c : Context) (n : Nat) : (c.bufSetLen n).src = c.src := rfl
@[simp] theorem Context.bufSetLen_dst (c : Context) (n : Nat) : (c.bufSetLen n).dst = c.dst := rfl
@[simp] theorem Context.bufSetLen_msgValid (c : Context) (n : Nat) : (c.bufSetLen n).msgValid = c.msgValid := rfl
@[simp] theorem Context.bufSetLen_msg (c : Context) (n : Nat) : (c.bufSetLen n).msg = c.msg := rfl
@[simp] theorem Context.bufSetLen_grValid (c : Context) (n : Nat) : (c.bufSetLen n).grValid = c.grValid := rfl
@[simp] theorem Context.bufSetLen_gr (c : Context) (n : Nat) : (c.bufSetLen n).gr = c.gr := rfl

/-! `Context.storeChecksum`. -/

@[simp] theorem Context.storeChecksum_buf (c : Context) (v : Nat) : (c.storeChecksum v).buf = c.buf.writeBytes 2 (bytes16 v) := rfl
@[simp] theorem Context.storeChecksum_bufLen (c : Context) (v : Nat) : (c.storeChecksum v).bufLen = c.bufLen := rfl
@[simp] theorem Context.storeChecksum_src (c : Context) (v : Nat) : (c.storeChecksum v).src = c.src := rfl
@[simp] theorem Context.storeChecksum_dst (c : Context) (v : Nat) : (c.storeChecksum v).dst = c.dst := rfl
@[simp] theorem Context.storeChecksum_msgValid (c : Context) (v : Nat) : (c.storeChecksum v).msgValid = c.msgValid := rfl
@[simp] theorem Context.storeChecksum_msg (c : Context) (v : Nat) : (c.storeChecksum v).msg = c.msg := rfl
@[simp] theorem Context.storeChecksum_grValid (c : Context) (v : Nat) : (c.storeChecksum v).grValid = c.grValid := rfl
@[simp] theorem Context.storeChecksum_gr (c : Context) (v : Nat) : (c.storeChecksum v).gr = c.gr := rfl

/-! What the accessors see of an update. -/

@[simp] theorem State.nCtx_emit (s : State) (r : List Byte) : (s.emit r).nCtx = s.nCtx := rfl
@[simp] theorem State.nCtx_seal (s : State) : s.seal.nCtx = s.nCtx := rfl
@[simp] theorem State.nCtx_setCtx (s : State) (c : Context) : (s.setCtx c).nCtx = s.nCtx := by simp [State.nCtx]
@[simp] theorem State.nCtx_applyReset (s : State) : s.applyReset.nCtx = s.nCtx := by simp [State.nCtx]
@[simp] theorem State.ctx?_seal (s : State) : s.seal.ctx? = s.ctx? := rfl
@[simp] theorem State.ctx?_emit (s : State) (r : List Byte) : (s.emit r).ctx? = s.ctx? := rfl
@[simp] theorem State.regOf_seal (s : State) (f : Family) : s.seal.regOf f = s.regOf f := by cases f <;> rfl
@[simp] theorem State.regOf_emit (s : State) (f : Family) (r : List Byte) : (s.emit r).regOf f = s.regOf f := by
  cases f <;> rfl
@[simp] theorem State.regOf_setCtx (s : State) (f : Family) (c : Context) : (s.setCtx c).regOf f = s.regOf f := by
  cases f <;> rfl

/-- Writing back the context that is there changes nothing. -/
theorem State.setCtx_self {s : State} {c : Context} (h : s.ctx? = some c) : s.setCtx c = s := by
  obtain ⟨hlt, hc⟩ := List.getElem?_eq_some_iff.mp h
  subst hc
  simp [State.setCtx, List.set_getElem_self]

/-- The frame's context reads back as it was written. -/
theorem State.ctx?_setCtx {s : State} {c c' : Context} (h : s.ctx? = some c) : (s.setCtx c').ctx? = some c' := by
  obtain ⟨hlt, -⟩ := List.getElem?_eq_some_iff.mp h
  simp [State.ctx?, List.getElem?_set_self hlt]

/-- Every other context keeps its own state (R20). -/
theorem State.setCtx_other {s : State} {c : Context} {k : Nat} (h : k ≠ s.cur.toNat) :
    (s.setCtx c).ctxs[k]? = s.ctxs[k]? := by
  simp [List.getElem?_set_ne (Ne.symm h)]

end Sys2Proof.Machine
end

