-- ==== Sys2Proof/Laws/Ops.lean ====
section
/-! SUPPORT. Laws/Ops.lean: what each shared operation can do, said once: the selection of the context, the commit of
a result, the buffer accesses and the two register checks. -/

namespace Sys2Proof.Machine

/-! Context and commit. -/

theorem State.inCtx_some {s : State} {c : Context} (h : s.ctx? = some c) (run : Context → StepResult) :
    s.inCtx run = run c := by simp [State.inCtx, h]

theorem State.inCtx_none {s : State} (h : s.ctx? = none) (run : Context → StepResult) :
    s.inCtx run = s.takeFault .illegalCommand := by simp [State.inCtx, h]

/-- A command that succeeds in its context answers OK, with the new private state written. -/
theorem State.runCtx_ok {s : State} {c c' : Context} {p : List Byte} {rule : Context → CmdResult}
    (h : s.ctx? = some c) (hr : rule c = .ok (c', p)) :
    s.runCtx rule = .next ((s.setCtx c').emit (0x00 :: p)) := by
  simp [State.runCtx, State.inCtx_some h, hr, State.commit, State.respond, statusOk]

/-- A command that only reads leaves the state as it was. -/
theorem State.runCtx_read {s : State} {c : Context} {p : List Byte} {rule : Context → CmdResult}
    (h : s.ctx? = some c) (hr : rule c = .ok (c, p)) : s.runCtx rule = .next (s.emit (0x00 :: p)) := by
  rw [State.runCtx_ok h hr, State.setCtx_self h]

/-- A command that fails answers its error and writes nothing. -/
theorem State.runCtx_error {s : State} {c : Context} {e : ErrorStatus} {rule : Context → CmdResult}
    (h : s.ctx? = some c) (hr : rule c = .error e) : s.runCtx rule = .next (s.emit [e.code]) := by
  simp [State.runCtx, State.inCtx_some h, hr, State.commit, State.raise]

/-- All that committing a result can do. -/
theorem State.commit_cases {s t : State} {r : CmdResult} (h : s.commit r = .next t) :
    (∃ e, r = .error e ∧ t = s.emit [e.code]) ∨
    (∃ c p, r = .ok (c, p) ∧ t = (s.setCtx c).emit (statusOk :: p)) := by
  match r with
  | .error e => exact .inl ⟨e, rfl, by simpa [State.commit, State.raise] using h.symm⟩
  | .ok (c, p) => exact .inr ⟨c, p, rfl, by simpa [State.commit, State.respond] using h.symm⟩

/-- All that a command confined to its context can do: the fault of a context that does not exist, an error with
nothing written, or the new private state and an OK answer. -/
theorem State.runCtx_cases {s t : State} {rule : Context → CmdResult} (h : s.runCtx rule = .next t) :
    (s.ctx? = none ∧ t = { s with fault := true, faultCause := 2 }.emit [0xFF, 2]) ∨
    (∃ c e, s.ctx? = some c ∧ rule c = .error e ∧ t = s.emit [e.code]) ∨
    (∃ c c' p, s.ctx? = some c ∧ rule c = .ok (c', p) ∧ t = (s.setCtx c').emit (statusOk :: p)) := by
  cases hc : s.ctx? with
  | none =>
    refine .inl ⟨rfl, ?_⟩
    rw [State.runCtx, State.inCtx_none hc] at h
    simpa [State.takeFault, FaultCause.code, statusFaulted] using h.symm
  | some c =>
    rw [State.runCtx, State.inCtx_some hc] at h
    rcases State.commit_cases h with ⟨e, he, ht⟩ | ⟨c', p, hr, ht⟩
    · exact .inr (.inl ⟨c, e, rfl, he, ht⟩)
    · exact .inr (.inr ⟨c, c', p, rfl, hr, ht⟩)

/-- A command confined to its context always answers. -/
theorem State.runCtx_answers (s : State) (rule : Context → CmdResult) : ∃ t, s.runCtx rule = .next t := by
  cases hc : s.ctx? with
  | none => exact ⟨_, by rw [State.runCtx, State.inCtx_none hc]; rfl⟩
  | some c =>
    cases hr : rule c with
    | error e => exact ⟨_, State.runCtx_error hc hr⟩
    | ok r => exact ⟨_, State.runCtx_ok (c' := r.1) (p := r.2) hc hr⟩

/-! Buffer accesses. -/

theorem Context.bufRead_ok {c : Context} {off n : Nat} (h : off + n ≤ c.bufLen) :
    c.bufRead off n = .ok (c.buf.readBytes off n) := by simp [Context.bufRead, h]

theorem Context.bufRead_short {c : Context} {off n : Nat} (h : c.bufLen < off + n) :
    c.bufRead off n = .error .bufferTooShort := by simp [Context.bufRead, Nat.not_le.mpr h]

theorem Context.bufWrite_ok {c : Context} {off : Nat} {bs : List Byte} (h : off + bs.length ≤ c.bufLen) :
    c.bufWrite off bs = .ok { c with buf := c.buf.writeBytes off bs } := by simp [Context.bufWrite, h]

theorem Context.bufWrite_short {c : Context} {off : Nat} {bs : List Byte} (h : c.bufLen < off + bs.length) :
    c.bufWrite off bs = .error .bufferTooShort := by simp [Context.bufWrite, Nat.not_le.mpr h]

/-- All that a buffer write can do. -/
theorem Context.bufWrite_cases {c c' : Context} {off : Nat} {bs : List Byte} (h : c.bufWrite off bs = .ok c') :
    off + bs.length ≤ c.bufLen ∧ c' = { c with buf := c.buf.writeBytes off bs } := by
  by_cases hle : off + bs.length ≤ c.bufLen
  · rw [Context.bufWrite_ok hle] at h
    exact ⟨hle, (Except.ok.inj h).symm⟩
  · rw [Context.bufWrite_short (by omega)] at h
    cases h

end Sys2Proof.Machine
end

