-- ==== Sys2Proof/Laws/Flags.lean ====
section
/-! SUPPORT. Laws/Flags.lean: the register checks of R240 and R210, and the field accesses of 41_fields.md, each said
once. -/

namespace Sys2Proof.Machine

theorem Context.withMsg_run {c : Context} {present : Variant → Bool} (hv : c.msgValid = true)
    (hp : present c.msg.variant = true) (run : Message → CmdResult) : c.withMsg present run = run c.msg := by
  simp [Context.withMsg, hv, hp]

theorem Context.withMsg_noMessage {c : Context} (present : Variant → Bool) (hv : c.msgValid = false)
    (run : Message → CmdResult) : c.withMsg present run = .error .noMessage := by
  simp [Context.withMsg, hv]

theorem Context.withMsg_fieldNotPresent {c : Context} {present : Variant → Bool} (hv : c.msgValid = true)
    (hp : present c.msg.variant = false) (run : Message → CmdResult) :
    c.withMsg present run = .error .fieldNotPresent := by
  simp [Context.withMsg, hv, hp]

/-- A command on the message register succeeds only past both checks. -/
theorem Context.withMsg_ok_iff {c : Context} {present : Variant → Bool} {run : Message → CmdResult}
    {r : Context × List Byte} :
    c.withMsg present run = .ok r ↔ c.msgValid = true ∧ present c.msg.variant = true ∧ run c.msg = .ok r := by
  cases hv : c.msgValid
  · simp [Context.withMsg_noMessage present hv]
  · cases hp : present c.msg.variant
    · simp [Context.withMsg_fieldNotPresent hv hp]
    · simp [Context.withMsg_run hv hp]

theorem Context.withRec_run {c : Context} (hv : c.grValid = true) (run : Record → CmdResult) :
    c.withRec run = run c.gr := by simp [Context.withRec, hv]

theorem Context.withRec_noRecord {c : Context} (hv : c.grValid = false) (run : Record → CmdResult) :
    c.withRec run = .error .noRecord := by simp [Context.withRec, hv]

/-- A command on the record register succeeds only past its check. -/
theorem Context.withRec_ok_iff {c : Context} {run : Record → CmdResult} {r : Context × List Byte} :
    c.withRec run = .ok r ↔ c.grValid = true ∧ run c.gr = .ok r := by
  cases hv : c.grValid
  · simp [Context.withRec_noRecord hv]
  · simp [Context.withRec_run hv]

theorem Context.getField_ok {c : Context} {off n : Nat} (h : off + n ≤ c.bufLen) :
    c.getField off n = .ok (c, c.buf.readBytes off n) := by simp [Context.getField, Context.bufRead_ok h]

theorem Context.getField_short {c : Context} {off n : Nat} (h : c.bufLen < off + n) :
    c.getField off n = .error .bufferTooShort := by simp [Context.getField, Context.bufRead_short h]

theorem Context.setField_ok {c : Context} {off : Nat} {bs : List Byte} (h : off + bs.length ≤ c.bufLen) :
    c.setField off bs = .ok ({ c with buf := c.buf.writeBytes off bs }, []) := by
  simp [Context.setField, Context.bufWrite_ok h]

theorem Context.setField_short {c : Context} {off : Nat} {bs : List Byte} (h : c.bufLen < off + bs.length) :
    c.setField off bs = .error .bufferTooShort := by simp [Context.setField, Context.bufWrite_short h]

/-- All that a field write can do. -/
theorem Context.setField_cases {c c' : Context} {off : Nat} {bs p : List Byte} (h : c.setField off bs = .ok (c', p)) :
    off + bs.length ≤ c.bufLen ∧ c' = { c with buf := c.buf.writeBytes off bs } ∧ p = [] := by
  by_cases hle : off + bs.length ≤ c.bufLen
  · rw [Context.setField_ok hle] at h
    cases h
    exact ⟨hle, rfl, rfl⟩
  · rw [Context.setField_short (by omega)] at h
    cases h

end Sys2Proof.Machine
end

