-- ==== Sys2Proof/Laws/Exec.lean ====
section
/-! SUPPORT. Laws/Exec.lean: all that one command, one frame and one step can do, each said once. -/

namespace Sys2Proof.Machine

/-- Every command but the five of 46_registry.md is confined to its context: it is some rule on that context, which may
look at BUF_CAP and at nothing else of the state. -/
theorem exec_local (i : Instr) :
    (∃ rule : Nat → Context → CmdResult, ∀ s, exec i s = s.runCtx (rule s.bufCap)) ∨
    (∃ fam tag dec, i = .regRegister fam tag dec) ∨ (∃ fam tag, i = .regLookup fam tag) ∨ i = .regBuild ∨
    i = .regSeal ∨ (∃ fam, i = .parse fam) := by
  cases i
  case regRegister fam tag dec => exact .inr (.inl ⟨fam, tag, dec, rfl⟩)
  case regLookup fam tag => exact .inr (.inr (.inl ⟨fam, tag, rfl⟩))
  case regBuild => exact .inr (.inr (.inr (.inl rfl)))
  case regSeal => exact .inr (.inr (.inr (.inr (.inl rfl))))
  case parse fam => exact .inr (.inr (.inr (.inr (.inr ⟨fam, rfl⟩))))
  case bufLoad data =>
    exact .inl ⟨fun cap c => if cap < data.length then .error .bufferTooShort else .ok (c.bufReplace data, []),
      fun _ => rfl⟩
  case bufSetlen n =>
    exact .inl ⟨fun cap c => if cap < n.toNat then .error .bufferTooShort else .ok (c.bufSetLen n.toNat, []),
      fun _ => rfl⟩
  case msgEncode cap =>
    exact .inl ⟨fun bufCap c => c.withMsg anyVariant fun m =>
      if cap.toNat < m.len ∨ bufCap < m.len then .error .bufferTooShort
      else .ok (c.encodeMsg m, bytes16 m.len), fun _ => rfl⟩
  all_goals
    refine .inl ⟨fun _ => ?_, fun s => ?_⟩
    pick_goal 2
    exact rfl

/-- All that `REG_REGISTER` can do. -/
theorem execRegRegister_cases {fam tag dec : Byte} {s t : State} (h : execRegRegister fam tag dec s = .next t) :
    (s.ctx? = none ∧ t = { s with fault := true, faultCause := 2 }.emit [0xFF, 2]) ∨
    (∃ e, t = s.emit [ErrorStatus.code e]) ∨
    (s.isSealed = true ∧ t = { s with fault := true, faultCause := 1 }.emit [0xFF, 1]) ∨
    (∃ f, s.isSealed = false ∧ familyOf fam = some f ∧ (dec = 0 ∨ canon dec = some (f, tag)) ∧
      t = (s.regWrite f tag dec).emit [0x00]) := by
  unfold execRegRegister State.inCtx at h
  cases hc : s.ctx? with
  | none => rw [hc] at h; cases h; exact .inl ⟨rfl, rfl⟩
  | some c =>
    rw [hc] at h
    simp only at h
    cases hf : familyOf fam with
    | none => rw [hf] at h; cases h; exact .inr (.inl ⟨_, rfl⟩)
    | some f =>
      rw [hf] at h
      simp only at h
      split_ifs at h with h1 h2 h3
      · cases h; exact .inr (.inl ⟨_, rfl⟩)
      · cases h; exact .inr (.inl ⟨_, rfl⟩)
      · cases h; exact .inr (.inr (.inl ⟨h3, rfl⟩))
      · cases h
        refine .inr (.inr (.inr ⟨f, by simpa using h3, rfl, ?_, rfl⟩))
        by_cases hd : dec = 0
        · exact .inl hd
        · exact .inr (by_contra fun hn => h2 ⟨hd, hn⟩)

/-- All that `REG_LOOKUP` can do. -/
theorem execRegLookup_cases {fam tag : Byte} {s t : State} (h : execRegLookup fam tag s = .next t) :
    (s.ctx? = none ∧ t = { s with fault := true, faultCause := 2 }.emit [0xFF, 2]) ∨
    (∃ e, t = s.emit [ErrorStatus.code e]) ∨ (∃ f, familyOf fam = some f ∧ t = s.emit [0x00, s.regRead f tag]) := by
  unfold execRegLookup State.inCtx at h
  cases hc : s.ctx? with
  | none => rw [hc] at h; cases h; exact .inl ⟨rfl, rfl⟩
  | some c =>
    rw [hc] at h
    cases hf : familyOf fam with
    | none => rw [hf] at h; cases h; exact .inr (.inl ⟨_, rfl⟩)
    | some f => rw [hf] at h; cases h; exact .inr (.inr ⟨f, rfl, rfl⟩)

/-- All that `REG_BUILD` can do. -/
theorem execRegBuild_cases {s t : State} (h : execRegBuild s = .next t) :
    (s.ctx? = none ∧ t = { s with fault := true, faultCause := 2 }.emit [0xFF, 2]) ∨
    (s.isSealed = true ∧ t = { s with fault := true, faultCause := 1 }.emit [0xFF, 1]) ∨
    (s.isSealed = false ∧ t = s.regBuild.emit [0x00]) := by
  unfold execRegBuild State.inCtx at h
  cases hc : s.ctx? with
  | none => rw [hc] at h; cases h; exact .inl ⟨rfl, rfl⟩
  | some c =>
    rw [hc] at h
    simp only at h
    split_ifs at h with h1
    · cases h; exact .inr (.inl ⟨h1, rfl⟩)
    · cases h; exact .inr (.inr ⟨by simpa using h1, rfl⟩)

/-- All that `REG_SEAL` can do. -/
theorem execRegSeal_cases {s t : State} (h : execRegSeal s = .next t) :
    (s.ctx? = none ∧ t = { s with fault := true, faultCause := 2 }.emit [0xFF, 2]) ∨ t = s.seal.emit [0x00] := by
  unfold execRegSeal State.inCtx at h
  cases hc : s.ctx? with
  | none => rw [hc] at h; cases h; exact .inl ⟨rfl, rfl⟩
  | some c => rw [hc] at h; cases h; exact .inr rfl

/-- All that `PARSE` can do: on an error of the parse the seal alone is kept. -/
theorem execParse_cases {fam : Byte} {s t : State} (h : execParse fam s = .next t) :
    (s.ctx? = none ∧ t = { s with fault := true, faultCause := 2 }.emit [0xFF, 2]) ∨
    (familyOf fam = none ∧ t = s.emit [0x14]) ∨
    (∃ f c e, familyOf fam = some f ∧ s.ctx? = some c ∧ parseMsg (s.regOf f) f c = .error e ∧
      t = s.seal.emit [ErrorStatus.code e]) ∨
    (∃ f c m, familyOf fam = some f ∧ s.ctx? = some c ∧ parseMsg (s.regOf f) f c = .ok m ∧
      t = (s.seal.setCtx (c.loadMsg m)).emit [0x00, m.variant.id]) := by
  unfold execParse State.inCtx at h
  cases hc : s.ctx? with
  | none => rw [hc] at h; cases h; exact .inl ⟨rfl, rfl⟩
  | some c =>
    rw [hc] at h
    cases hf : familyOf fam with
    | none => rw [hf] at h; cases h; exact .inr (.inl ⟨rfl, rfl⟩)
    | some f =>
      rw [hf] at h
      simp only [parseInto] at h
      cases hp : parseMsg (s.regOf f) f c with
      | error e => rw [hp] at h; cases h; exact .inr (.inr (.inl ⟨f, c, e, rfl, rfl, hp, rfl⟩))
      | ok m => rw [hp] at h; cases h; exact .inr (.inr (.inr ⟨f, c, m, rfl, rfl, hp, rfl⟩))

/-- All that one command can do when it answers: the fault of a context that does not exist; an error with nothing
written; new private state for its context; the fault of a registry write after the seal; one registry entry, or the
eight of `REG_BUILD`, before it; and for `REG_SEAL` and `PARSE` the seal, with an error or with new private state. -/
theorem exec_cases {i : Instr} {s t : State} (h : exec i s = .next t) :
    (s.ctx? = none ∧ t = { s with fault := true, faultCause := 2 }.emit [0xFF, 2]) ∨
    ∃ c, s.ctx? = some c ∧
      ((∃ e, t = s.emit [ErrorStatus.code e]) ∨
       (∃ c' p, t = (s.setCtx c').emit (0x00 :: p)) ∨
       (s.isSealed = true ∧ (i = .regBuild ∨ ∃ fam tag dec, i = .regRegister fam tag dec) ∧
         t = { s with fault := true, faultCause := 1 }.emit [0xFF, 1]) ∨
       (s.isSealed = false ∧ ∃ f tag dec, (dec = 0 ∨ canon dec = some (f, tag)) ∧
         t = (s.regWrite f tag dec).emit [0x00]) ∨
       (s.isSealed = false ∧ t = s.regBuild.emit [0x00]) ∨
       ((∃ fam, i = .parse fam) ∧ ∃ e, t = s.seal.emit [ErrorStatus.code e]) ∨
       ((i = .regSeal ∨ ∃ fam, i = .parse fam) ∧ ∃ c' p, t = (s.seal.setCtx c').emit (0x00 :: p))) := by
  cases hc : s.ctx? with
  | none =>
    refine .inl ⟨rfl, ?_⟩
    have hi : exec i s = s.takeFault .illegalCommand := by
      rcases exec_local i with ⟨rule, hr⟩ | ⟨fam, tag, dec, rfl⟩ | ⟨fam, tag, rfl⟩ | rfl | rfl | ⟨fam, rfl⟩
      · rw [hr]; exact State.inCtx_none hc _
      all_goals exact State.inCtx_none hc _
    rw [hi] at h
    cases h
    rfl
  | some c =>
    refine .inr ⟨c, rfl, ?_⟩
    rcases exec_local i with ⟨rule, hr⟩ | ⟨fam, tag, dec, rfl⟩ | ⟨fam, tag, rfl⟩ | rfl | rfl | ⟨fam, rfl⟩
    · rw [hr] at h
      rcases State.runCtx_cases h with ⟨hn, -⟩ | ⟨_, e, -, -, rfl⟩ | ⟨_, c', p, -, -, rfl⟩
      · simp [hc] at hn
      · exact .inl ⟨e, rfl⟩
      · exact .inr (.inl ⟨c', p, rfl⟩)
    · rcases execRegRegister_cases h with ⟨hn, -⟩ | ⟨e, rfl⟩ | ⟨hs, rfl⟩ | ⟨f, hs, -, hd, rfl⟩
      · simp [hc] at hn
      · exact .inl ⟨e, rfl⟩
      · exact .inr (.inr (.inl ⟨hs, .inr ⟨_, _, _, rfl⟩, rfl⟩))
      · exact .inr (.inr (.inr (.inl ⟨hs, f, tag, dec, hd, rfl⟩)))
    · rcases execRegLookup_cases h with ⟨hn, -⟩ | ⟨e, rfl⟩ | ⟨f, -, rfl⟩
      · simp [hc] at hn
      · exact .inl ⟨e, rfl⟩
      · exact .inr (.inl ⟨c, [s.regRead f tag], by rw [State.setCtx_self hc]⟩)
    · rcases execRegBuild_cases h with ⟨hn, -⟩ | ⟨hs, rfl⟩ | ⟨hs, rfl⟩
      · simp [hc] at hn
      · exact .inr (.inr (.inl ⟨hs, .inl rfl, rfl⟩))
      · exact .inr (.inr (.inr (.inr (.inl ⟨hs, rfl⟩))))
    · rcases execRegSeal_cases h with ⟨hn, -⟩ | rfl
      · simp [hc] at hn
      · refine .inr (.inr (.inr (.inr (.inr (.inr ⟨.inl rfl, c, [], ?_⟩)))))
        rw [State.setCtx_self (s := s.seal) hc]
    · rcases execParse_cases h with ⟨hn, -⟩ | ⟨-, rfl⟩ | ⟨f, _, e, -, -, -, rfl⟩ | ⟨f, c', m, -, -, -, rfl⟩
      · simp [hc] at hn
      · exact .inl ⟨.invalidOperand, rfl⟩
      · exact .inr (.inr (.inr (.inr (.inr (.inl ⟨⟨fam, rfl⟩, e, rfl⟩)))))
      · exact .inr (.inr (.inr (.inr (.inr (.inr ⟨.inr ⟨fam, rfl⟩, _, _, rfl⟩)))))

/-- All that a frame can do: an answer of a faulted block; the fault of an ill-formed frame; the command it holds. -/
theorem runFrame_cases (f : Frame) (s : State) :
    (s.fault = true ∧ runFrame f s = .next (s.emit [0xFF, s.faultCause])) ∨
    (s.fault = false ∧ (s.nCtx ≤ f.ctx.toNat ∨ ∃ e, decode f.cmd = .error e) ∧
      runFrame f s = .next ({ s with fault := true, faultCause := 2 }.emit [0xFF, 2])) ∨
    (s.fault = false ∧ f.ctx.toNat < s.nCtx ∧ ∃ i, decode f.cmd = .ok i ∧
      runFrame f s = exec i { s with cur := f.ctx }) := by
  cases hf : s.fault with
  | true => exact .inl ⟨rfl, by simp [runFrame, hf, State.answerFaulted, statusFaulted]⟩
  | false =>
    by_cases hc : s.nCtx ≤ f.ctx.toNat
    · refine .inr (.inl ⟨rfl, .inl hc, ?_⟩)
      simp only [runFrame, hf, hc, if_true]
      rfl
    · cases hd : decode f.cmd with
      | error e =>
        refine .inr (.inl ⟨rfl, .inr ⟨e, rfl⟩, ?_⟩)
        simp only [runFrame, hf, hc, hd, if_false]
        rfl
      | ok i => exact .inr (.inr ⟨rfl, Nat.lt_of_not_le hc, i, rfl, by simp [runFrame, hf, hc, hd]⟩)

end Sys2Proof.Machine
end

