-- ==== Sys2Proof/Laws/Record.lean ====
section
/-! SUPPORT. Laws/Record.lean: the group record codec: address lists, all that decoding a record can do, and what a
record's own bytes decode to. -/

namespace Sys2Proof.Machine

/-! Bytes at an offset. -/

/-- A part of a byte string that stands in the buffer stands there too. -/
theorem Memory.readBytes_part {b : Memory} {off n : Nat} {pre mid post : List Byte}
    (h : b.readBytes off n = pre ++ mid ++ post) : b.readBytes (off + pre.length) mid.length = mid := by
  have hn : n = pre.length + (mid.length + post.length) := by
    have := congrArg List.length h
    simpa [Nat.add_assoc] using this
  subst hn
  rw [Memory.readBytes_add, Memory.readBytes_add, List.append_assoc] at h
  have h1 := (List.append_inj h (by simp)).2
  exact (List.append_inj h1 (by simp)).1

theorem Memory.read_of_readBytes {b : Memory} {off : Nat} {x : Byte} (h : b.readBytes off 1 = [x]) : b.read off = x := by
  simpa [Memory.readBytes] using h

/-- A count that stands in the buffer reads back. -/
theorem Memory.u16_of_readBytes {b : Memory} {off v : Nat} (h : b.readBytes off 2 = bytes16 v) (hv : v < 2 ^ 16) :
    b.u16 off = v := by
  have h' : b.read off = BitVec.ofNat 8 (v / 2 ^ 8) ∧ b.read (off + 1) = BitVec.ofNat 8 v := by
    simpa [Memory.readBytes, bytes16] using h
  simp only [Memory.u16, h'.1, h'.2, BitVec.toNat_ofNat]
  omega

theorem Memory.u16_lt (b : Memory) (k : Nat) : b.u16 k < 2 ^ 16 := by
  have h1 := (b.read k).isLt
  have h2 := (b.read (k + 1)).isLt
  simp only [Memory.u16]; omega

theorem Memory.u16_congr {b b' : Memory} {k : Nat} (h0 : b.read k = b'.read k) (h1 : b.read (k + 1) = b'.read (k + 1)) :
    b.u16 k = b'.u16 k := by simp only [Memory.u16, h0, h1]

/-! Address lists. -/

@[simp] theorem Memory.length_readAddrs (b : Memory) (p aw n : Nat) : (b.readAddrs p aw n).length = n := by
  induction n generalizing p with
  | zero => rfl
  | succ n ih => simp [Memory.readAddrs, ih]

theorem Memory.getElem?_readAddrs (b : Memory) (p aw n i : Nat) :
    (b.readAddrs p aw n)[i]? = if i < n then some (b.readBytes (p + aw * i) aw) else none := by
  induction n generalizing p i with
  | zero => simp [Memory.readAddrs]
  | succ n ih =>
    cases i with
    | zero => simp [Memory.readAddrs]
    | succ i =>
      have : p + aw + aw * i = p + aw * (i + 1) := by rw [Nat.mul_add, Nat.mul_one]; omega
      simp [Memory.readAddrs, ih, this]

theorem Memory.mem_readAddrs {b : Memory} {p aw n : Nat} {a : List Byte} (h : a ∈ b.readAddrs p aw n) :
    a.length = aw := by
  induction n generalizing p with
  | zero => simp [Memory.readAddrs] at h
  | succ n ih =>
    rcases List.mem_cons.mp h with rfl | h
    · simp
    · exact ih h

theorem flatten_length {l : List (List Byte)} {aw : Nat} (h : ∀ a ∈ l, a.length = aw) :
    l.flatten.length = aw * l.length := by
  induction l with
  | nil => simp
  | cons a l ih =>
    simp only [List.flatten_cons, List.length_append, List.length_cons,
      ih fun x hx => h x (List.mem_cons_of_mem _ hx), h a List.mem_cons_self, Nat.mul_add]
    omega

/-- Addresses written back to back read back as the list they are. -/
theorem Memory.readAddrs_of_flatten {b : Memory} {p aw : Nat} {l : List (List Byte)} (h : ∀ a ∈ l, a.length = aw)
    (hb : b.readBytes p (aw * l.length) = l.flatten) : b.readAddrs p aw l.length = l := by
  induction l generalizing p with
  | nil => rfl
  | cons a l ih =>
    have ha := h a List.mem_cons_self
    rw [List.length_cons, Nat.mul_add, Nat.mul_one, Nat.add_comm, Memory.readBytes_add, List.flatten_cons] at hb
    obtain ⟨h1, h2⟩ := List.append_inj hb (by simp [ha])
    rw [List.length_cons, Memory.readAddrs, h1, ih (fun x hx => h x (List.mem_cons_of_mem _ hx)) h2]

/-! Decoding a record (R225). -/

theorem recLen_eq_recordSize (b : Memory) (fam : Family) (off : Nat) :
    recLen fam (b.u16 (off + 2)) (b.read (off + 1)).toNat = recordSize b fam off := rfl

theorem recordSize_ge (b : Memory) (fam : Family) (off : Nat) : 4 + fam.aw ≤ recordSize b fam off := by
  simp only [recordSize]; omega

theorem Family.aw_pos (f : Family) : 4 ≤ f.aw := by cases f <;> decide

/-- The bytes at an offset determine the record they are. -/
theorem RecordAt_unique {b : Memory} {fam : Family} {off : Nat} {g g' : Record} (h : RecordAt b fam off g)
    (h' : RecordAt b fam off g') : g = g' := by
  obtain ⟨f, t, gr, n, s, a⟩ := h
  obtain ⟨f', t', gr', n', s', a'⟩ := h'
  have hs : g.srcs = g'.srcs := by
    apply List.ext_getElem? fun i => ?_
    by_cases hi : i < g.srcs.length
    · rw [s i hi, s' i (by omega)]
    · rw [List.getElem?_eq_none (by omega), List.getElem?_eq_none (by omega)]
  cases g; cases g'
  simp_all

/-- All that decoding a record can do: two kinds of truncation, an illegal type, or the record the bytes hold, which is
legal, and the offset after it. -/
theorem decodeRecord_cases (b : Memory) (off : Nat) (fam : Family) (lim : Nat) :
    (lim < off + recordSize b fam off ∧ decodeRecord b off fam lim = .error .bufferTooShort) ∨
    (off + recordSize b fam off ≤ lim ∧ rtypeLegal (b.read off) = false ∧
      decodeRecord b off fam lim = .error .invalidRecordType) ∨
    (off + recordSize b fam off ≤ lim ∧ rtypeLegal (b.read off) = true ∧
      ∃ g, RecordAt b fam off g ∧ g.Legal ∧ decodeRecord b off fam lim = .ok (g, off + recordSize b fam off)) := by
  have hge := recordSize_ge b fam off
  by_cases h1 : lim < off + recordSize b fam off
  · refine .inl ⟨h1, ?_⟩
    simp only [decodeRecord, recLen_eq_recordSize]
    split
    · rfl
    · exact if_pos h1
  · have h0 : ¬ lim < off + 4 + fam.aw := by omega
    cases ht : rtypeLegal (b.read off) with
    | false =>
      refine .inr (.inl ⟨by omega, rfl, ?_⟩)
      simp only [decodeRecord, recLen_eq_recordSize, if_neg h0, if_neg h1, ht, if_true]
    | true =>
      refine .inr (.inr ⟨by omega, rfl, ?_⟩)
      refine ⟨_, ?_, ?_, by simp only [decodeRecord, recLen_eq_recordSize, if_neg h0, if_neg h1, ht]; rfl⟩
      · refine ⟨rfl, rfl, rfl, by simp, fun i hi => ?_, by simp⟩
        rw [Memory.getElem?_readAddrs, if_pos (by simpa using hi)]
      · have hn := b.u16_lt (off + 2)
        have ha := (b.read (off + 1)).isLt
        refine ⟨ht, by simp, ⟨?_, fun a h => Memory.mem_readAddrs h⟩, by simp, ?_⟩
        · simp only [Memory.length_readAddrs, maxCount]; omega
        · simp only [Memory.length_readBytes, maxAux]; omega

/-! The bytes of a record (R227). -/

theorem Record.aux_length {g : Record} (h : g.Legal) : 4 * g.auxLen = g.aux.length := by
  have := h.2.2.2.1
  simp only [Record.auxLen]; omega

/-- A legal record's bytes are as many as its length says. -/
theorem encodeRecord_length {g : Record} (h : g.Legal) : (encodeRecord g).length = g.len := by
  have ha := Record.aux_length h
  simp only [encodeRecord, List.length_append, List.length_cons, List.length_nil, bytes16_length,
    flatten_length h.2.2.1.2, h.2.1, Record.len, recLen]
  omega

/-- Where a legal record's bytes stand, that record stands, and it declares its own length. -/
theorem RecordAt_of_bytes {b : Memory} {off : Nat} {g : Record} (h : g.Legal)
    (hb : b.readBytes off g.len = encodeRecord g) :
    RecordAt b g.fam off g ∧ (b.read (off + 1)).toNat = g.auxLen ∧ recordSize b g.fam off = g.len := by
  obtain ⟨ht, hg, ⟨hn, hs⟩, ha4, ha⟩ := h
  have hal : g.auxLen < 2 ^ 8 := by simp only [Record.auxLen, maxAux] at *; omega
  have hnl : g.srcs.length < 2 ^ 16 := by simp only [maxCount] at hn; omega
  have haux : 4 * g.auxLen = g.aux.length := by simp only [Record.auxLen]; omega
  have hfl := flatten_length hs
  have h0 := b.readBytes_part (pre := []) (mid := [g.rtype])
    (post := [BitVec.ofNat 8 g.auxLen] ++ bytes16 g.srcs.length ++ g.group ++ g.srcs.flatten ++ g.aux)
    (by rw [hb]; simp [encodeRecord])
  have h1 := b.readBytes_part (pre := [g.rtype]) (mid := [BitVec.ofNat 8 g.auxLen])
    (post := bytes16 g.srcs.length ++ g.group ++ g.srcs.flatten ++ g.aux) (by rw [hb]; simp [encodeRecord])
  have h2 := b.readBytes_part (pre := [g.rtype, BitVec.ofNat 8 g.auxLen]) (mid := bytes16 g.srcs.length)
    (post := g.group ++ g.srcs.flatten ++ g.aux) (by rw [hb]; simp [encodeRecord])
  have h3 := b.readBytes_part (pre := [g.rtype, BitVec.ofNat 8 g.auxLen] ++ bytes16 g.srcs.length) (mid := g.group)
    (post := g.srcs.flatten ++ g.aux) (by rw [hb]; simp [encodeRecord])
  have h4 := b.readBytes_part (pre := [g.rtype, BitVec.ofNat 8 g.auxLen] ++ bytes16 g.srcs.length ++ g.group)
    (mid := g.srcs.flatten) (post := g.aux) (by rw [hb]; simp [encodeRecord])
  have h5 := b.readBytes_part
    (pre := [g.rtype, BitVec.ofNat 8 g.auxLen] ++ bytes16 g.srcs.length ++ g.group ++ g.srcs.flatten)
    (mid := g.aux) (post := []) (by rw [hb]; simp [encodeRecord])
  simp only [List.length_append, List.length_cons, List.length_nil, bytes16_length, hg, hfl, Nat.zero_add] at h0 h1 h2 h3 h4 h5
  have e0 : b.read off = g.rtype := Memory.read_of_readBytes h0
  have e1 : (b.read (off + 1)).toNat = g.auxLen := by
    rw [Memory.read_of_readBytes h1, BitVec.toNat_ofNat]; omega
  have e2 : b.u16 (off + 2) = g.srcs.length := Memory.u16_of_readBytes h2 hnl
  have e4 := Memory.readAddrs_of_flatten hs h4
  refine ⟨⟨rfl, e0.symm, h3.symm, e2.symm, fun i hi => ?_, ?_⟩, e1, ?_⟩
  · have hgi := b.getElem?_readAddrs (off + (2 + 2 + g.fam.aw)) g.fam.aw g.srcs.length i
    rw [e4, if_pos hi] at hgi
    rw [hgi]
    congr 2
    omega
  · rw [e1, haux, ← h5]
    simp only [Memory.length_readBytes]
    congr 1
    omega
  · simp only [recordSize, e1, e2, Record.len, recLen]

/-- A legal record's bytes decode to it, wherever they stand within the limit. -/
theorem decodeRecord_of_bytes {b : Memory} {off lim : Nat} {g : Record} (h : g.Legal)
    (hb : b.readBytes off g.len = encodeRecord g) (hl : off + g.len ≤ lim) :
    decodeRecord b off g.fam lim = .ok (g, off + g.len) := by
  obtain ⟨hat, -, hsize⟩ := RecordAt_of_bytes h hb
  rcases decodeRecord_cases b off g.fam lim with ⟨h1, -⟩ | ⟨-, ht, -⟩ | ⟨-, -, g', hg', -, heq⟩
  · omega
  · rw [← hat.2.1, h.1] at ht; cases ht
  · rw [heq, RecordAt_unique hg' hat, hsize]

/-! Peeking (R229). -/

/-- All that peeking can do. -/
theorem peekRecordLength_cases (b : Memory) (off : Nat) (fam : Family) (lim : Nat) :
    (lim < off + 4 ∧ peekRecordLength b off fam lim = .error .bufferTooShort) ∨
    (off + 4 ≤ lim ∧ peekRecordLength b off fam lim = .ok (recordSize b fam off)) := by
  by_cases h : lim < off + 4
  · exact .inl ⟨h, by simp [peekRecordLength, h]⟩
  · exact .inr ⟨by omega, by simp only [peekRecordLength, if_neg h]; rfl⟩

end Sys2Proof.Machine
end

