-- ==== Sys2Proof/Laws/Message.lean ====
section
/-! SUPPORT. Laws/Message.lean: the walks over a report's records (R298, R300), the length of a message's wire form, and
all that parsing can do. -/

namespace Sys2Proof.Machine

/-! The records of a report stand back to back. -/

theorem recordOffset_succ (b : Memory) (fam : Family) (i : Nat) :
    recordOffset b fam (i + 1) = recordOffset b fam i + recordSize b fam (recordOffset b fam i) := rfl

theorem recordOffset_mono (b : Memory) (fam : Family) (i k : Nat) : recordOffset b fam i ≤ recordOffset b fam (i + k) := by
  induction k with
  | zero => exact Nat.le_refl _
  | succ k ih => rw [← Nat.add_assoc, recordOffset_succ]; omega

/-- All that the span walk can do, from record `i` on over `k` records: it ends where the records end, or fails because
that is beyond the limit (R298). -/
theorem peekRecords_eq (b : Memory) (fam : Family) (lim k i : Nat) (h : recordOffset b fam i ≤ lim) :
    peekRecords b fam lim k (recordOffset b fam i) =
      if lim < recordOffset b fam (i + k) then .error .bufferTooShort else .ok (recordOffset b fam (i + k)) := by
  induction k generalizing i with
  | zero => rw [Nat.add_zero, if_neg (by omega)]; rfl
  | succ k ih =>
    have hmono := recordOffset_mono b fam (i + 1) k
    have hge := recordSize_ge b fam (recordOffset b fam i)
    have e : i + (k + 1) = i + 1 + k := by omega
    rw [e]
    rcases peekRecordLength_cases b (recordOffset b fam i) fam lim with ⟨h1, h2⟩ | ⟨h1, h2⟩
    · simp only [peekRecords, h2]
      rw [if_pos (by rw [recordOffset_succ] at hmono; omega)]
    · have hs := recordOffset_succ b fam i
      simp only [peekRecords, h2]
      by_cases h3 : lim < recordOffset b fam i + recordSize b fam (recordOffset b fam i)
      · rw [if_pos h3, if_pos (by omega)]
      · rw [if_neg h3, ← hs]
        exact ih (i + 1) (by omega)

/-- All that the record walk can do within the span: an illegal type, or the records the bytes hold, in order (R300). -/
theorem decodeRecords_cases (b : Memory) (fam : Family) (lim k i : Nat) (h : recordOffset b fam (i + k) ≤ lim) :
    ((∃ j < k, rtypeLegal (b.read (recordOffset b fam (i + j))) = false) ∧
      decodeRecords b fam lim k (recordOffset b fam i) = .error .invalidRecordType) ∨
    ((∀ j < k, rtypeLegal (b.read (recordOffset b fam (i + j))) = true) ∧
      ∃ gs, decodeRecords b fam lim k (recordOffset b fam i) = .ok gs ∧ gs.length = k ∧
        ∀ j < k, ∃ g, gs[j]? = some g ∧ RecordAt b fam (recordOffset b fam (i + j)) g ∧ g.Legal) := by
  induction k generalizing i with
  | zero => exact .inr ⟨fun j hj => absurd hj (Nat.not_lt_zero j), [], rfl, rfl, fun j hj => absurd hj (Nat.not_lt_zero j)⟩
  | succ k ih =>
    have e : i + (k + 1) = i + 1 + k := by omega
    rw [e] at h
    have hmono := recordOffset_mono b fam (i + 1) k
    have hs := recordOffset_succ b fam i
    rcases decodeRecord_cases b (recordOffset b fam i) fam lim with ⟨h1, -⟩ | ⟨-, ht, hd⟩ | ⟨-, ht, g, hat, hleg, hd⟩
    · omega
    · exact .inl ⟨⟨0, Nat.succ_pos k, ht⟩, by simp only [decodeRecords, hd]⟩
    · rw [← hs] at hd
      rcases ih (i + 1) h with ⟨⟨j, hj, htj⟩, hr⟩ | ⟨hall, gs, hr, hlen, hgs⟩
      · refine .inl ⟨⟨j + 1, by omega, ?_⟩, by simp only [decodeRecords, hd, hr]⟩
        rwa [show i + (j + 1) = i + 1 + j by omega]
      · refine .inr ⟨fun j hj => ?_, g :: gs, by simp only [decodeRecords, hd, hr], by simp [hlen], fun j hj => ?_⟩
        · cases j with
          | zero => exact ht
          | succ j => rw [show i + (j + 1) = i + 1 + j by omega]; exact hall j (by omega)
        · cases j with
          | zero => exact ⟨g, rfl, hat, hleg⟩
          | succ j =>
            rw [show i + (j + 1) = i + 1 + j by omega, List.getElem?_cons_succ]
            exact hgs j (by omega)

/-! The wire form (R242). -/

theorem encodeRecords_length {l : List Record} (h : ∀ g ∈ l, g.Legal) :
    (l.map encodeRecord).flatten.length = (l.map Record.len).sum := by
  induction l with
  | nil => rfl
  | cons g l ih =>
    simp only [List.map_cons, List.flatten_cons, List.length_append, List.sum_cons,
      encodeRecord_length (h g List.mem_cons_self), ih fun x hx => h x (List.mem_cons_of_mem _ hx)]

/-- Where the records' bytes stand back to back from offset 8 up, each record stands at its offset. -/
theorem recordOffset_of_bytes {b : Memory} {fam : Family} {l : List Record} (h : ∀ g ∈ l, g.Legal ∧ g.fam = fam)
    (i : Nat) (hb : b.readBytes (recordOffset b fam i) (l.map Record.len).sum = (l.map encodeRecord).flatten) :
    recordOffset b fam (i + l.length) = recordOffset b fam i + (l.map Record.len).sum ∧
    ∀ j < l.length, ∃ g, l[j]? = some g ∧ RecordAt b fam (recordOffset b fam (i + j)) g := by
  induction l generalizing i with
  | nil => exact ⟨by simp, fun j hj => absurd hj (Nat.not_lt_zero j)⟩
  | cons g l ih =>
    obtain ⟨hleg, hfam⟩ := h g List.mem_cons_self
    simp only [List.map_cons, List.sum_cons, List.flatten_cons] at hb
    rw [Memory.readBytes_add] at hb
    obtain ⟨h1, h2⟩ := List.append_inj hb (by simp [encodeRecord_length hleg])
    obtain ⟨hat, -, hsize⟩ := RecordAt_of_bytes hleg h1
    rw [hfam] at hat hsize
    have hs : recordOffset b fam (i + 1) = recordOffset b fam i + g.len := by rw [recordOffset_succ, hsize]
    rw [← hs] at h2
    obtain ⟨e1, e2⟩ := ih (fun x hx => h x (List.mem_cons_of_mem _ hx)) (i + 1) h2
    refine ⟨?_, fun j hj => ?_⟩
    · rw [List.length_cons, show i + (l.length + 1) = i + 1 + l.length by omega, e1, hs]
      simp only [List.map_cons, List.sum_cons]
      omega
    · cases j with
      | zero => exact ⟨g, rfl, hat⟩
      | succ j =>
        rw [show i + (j + 1) = i + 1 + j by omega, List.getElem?_cons_succ]
        exact e2 j (by simpa using hj)

/-- A length that fits its u32 is answered as it is (R117). -/
theorem payloadLength_fits {n : Nat} (h : n < 2 ^ 32) : payloadLength n = bytes32 n := by
  rw [payloadLength, if_pos h]

/-- A length that does not fit is answered as the free value. -/
theorem payloadLength_beyond {n : Nat} (h : 2 ^ 32 ≤ n) :
    payloadLength n = bytes32 (Config.lengthBeyondU32 n).toNat := by
  rw [payloadLength, if_neg (Nat.not_lt.2 h)]

/-- A legal message's wire form is as long as the message says. -/
theorem Message.wire_length {m : Message} (h : m.Legal) : m.wire.length = m.len := by
  obtain ⟨hg, -, -, -, ⟨-, hs⟩, -, -, hr, -⟩ := h
  have hsl := flatten_length hs
  have hrl := encodeRecords_length fun g hg => (hr g hg).1
  cases hv : m.variant <;> rw [hv] at hg hsl <;>
    simp [Message.wire, Message.len, Message.queryTail, Message.reportTail, hv, hg, hsl, hrl, Variant.fam,
      Family.aw, bytes16_length] <;> omega

/-! Parsing (R297 to R300). -/

/-- The span peek answers the declared span, unless it is beyond the buffer (R298). -/
theorem peekSpan_eq {v : Variant} {b : Memory} {n : Nat} (h : v.fixedLen ≤ n) :
    peekSpan v b n = if n < declaredSpan v b then .error .bufferTooShort else .ok (declaredSpan v b) := by
  have hw := peekRecords_eq b v.fam n (b.u16 6) 0
  cases v
  case igmpv3Report => simpa [peekSpan, declaredSpan, Variant.isExtQuery, Variant.isReport3, recordOffset] using hw h
  case mldv2Report => simpa [peekSpan, declaredSpan, Variant.isExtQuery, Variant.isReport3, recordOffset] using hw h
  case igmpv3Query => simp [peekSpan, declaredSpan, Variant.isExtQuery]
  case mldv2Query => simp [peekSpan, declaredSpan, Variant.isExtQuery]
  all_goals
    simp only [Variant.fixedLen] at h
    simp [peekSpan, declaredSpan, Variant.isExtQuery, Variant.isReport3, Variant.fixedLen]
    omega

/-- What a report's extraction does with the records (R300). -/
theorem extract_report {v : Variant} (h : v ∈ reports) (b : Memory) (span : Nat) :
    extract v b span = (match decodeRecords b v.fam span (b.u16 6) 8 with
      | .error e => .error e
      | .ok gs => .ok { Message.new v with recs := gs }) := by
  rcases List.mem_pair.mp h with rfl | rfl <;> rfl

/-- A record list that the bytes hold is a legal one. -/
theorem report_legal {v : Variant} (h : v ∈ reports) {gs : List Record} (hl : gs.length ≤ maxCount)
    (hg : ∀ g ∈ gs, g.Legal ∧ g.fam = v.fam) : ({ Message.new v with recs := gs } : Message).Legal := by
  rcases List.mem_pair.mp h with rfl | rfl <;>
    exact ⟨by simp [Message.new], fun _ => rfl, fun _ => by simp [Message.new], fun _ => rfl, ⟨by simp [Message.new], by simp [Message.new]⟩,
      fun _ => ⟨rfl, rfl, rfl, rfl⟩, hl, hg, fun hn => by cases hn⟩

/-- A message with a group address and nothing else is what the bytes hold, and legal. -/
theorem plain_holds (v : Variant) (h : v ∈ ([.igmpv2Report, .igmpv2Leave, .mldv1Report, .mldv1Done] : List Variant))
    (b : Memory) : let m : Message := { Message.new v with group := extractGroup v b }
    m.variant = v ∧ MessageAt b m ∧ m.Legal := by
  fin_cases h <;>
    simp [MessageAt, Message.Legal, addrsLegal, Message.new, extractGroup, Variant.fam, Family.aw, Variant.hasGroup, Variant.isQuery, Variant.isExtQuery,
      Variant.isReport3]

/-- A short query is what the bytes hold, and legal. -/
theorem query_holds (v : Variant) (h : v ∈ ([.igmpv2Query, .mldv1Query] : List Variant)) (b : Memory) :
    let m : Message := { Message.new v with group := extractGroup v b, mrc := extractMrc v b }
    m.variant = v ∧ MessageAt b m ∧ m.Legal := by
  have h4 := b.u16_lt 4
  have h1 := (b.read 1).isLt
  fin_cases h <;>
    simp [MessageAt, Message.Legal, addrsLegal, Message.new, extractGroup, extractMrc, Variant.fam, Family.aw, Variant.hasGroup, Variant.isQuery,
      Variant.isExtQuery, Variant.isReport3] <;> omega

/-- An extended query is what the bytes hold, and legal. -/
theorem extQuery_holds (v : Variant) (h : v ∈ extQueries) (b : Memory) :
    let flags := b.read (v.fixedLen - 4)
    let m : Message := { Message.new v with
      group := extractGroup v b, mrc := extractMrc v b, sFlag := flags.extractLsb' 3 1, qrv := flags.extractLsb' 0 3,
      qqic := b.read (v.fixedLen - 3), srcs := b.readAddrs v.fixedLen v.fam.aw (b.u16 (v.fixedLen - 2)) }
    m.variant = v ∧ MessageAt b m ∧ m.Legal := by
  have h4 := b.u16_lt 4
  have h1 := (b.read 1).isLt
  have h10 := b.u16_lt 10
  have h26 := b.u16_lt 26
  fin_cases h <;>
    simp [MessageAt, Message.Legal, addrsLegal, Message.new, extractGroup, extractMrc, Variant.fam, Family.aw, Variant.hasGroup, Variant.isQuery,
      Variant.isExtQuery, Variant.isReport3, Variant.fixedLen, Memory.getElem?_readAddrs, Nat.shiftRight_eq_div_pow, maxCount]
  · exact ⟨by omega, by omega, by omega, fun _ ha => Memory.mem_readAddrs ha⟩
  · exact ⟨by omega, by omega, fun _ ha => Memory.mem_readAddrs ha⟩

/-- All that the extraction of the fields can do: an illegal record type, or the message the bytes hold, which is legal
(R300). -/
theorem extract_cases (v : Variant) (b : Memory) :
    (v ∈ reports ∧ (∃ i < b.u16 6, rtypeLegal (b.read (recordOffset b v.fam i)) = false) ∧
      extract v b (declaredSpan v b) = .error .invalidRecordType) ∨
    (¬ (v ∈ reports ∧ ∃ i < b.u16 6, rtypeLegal (b.read (recordOffset b v.fam i)) = false) ∧
      ∃ m, extract v b (declaredSpan v b) = .ok m ∧ m.variant = v ∧ MessageAt b m ∧ m.Legal) := by
  by_cases hrep : v ∈ reports
  · have hspan : declaredSpan v b = recordOffset b v.fam (0 + b.u16 6) := by
      rcases List.mem_pair.mp hrep with rfl | rfl <;> simp [declaredSpan]
    rw [extract_report hrep]
    rcases decodeRecords_cases b v.fam (declaredSpan v b) (b.u16 6) 0 (Nat.le_of_eq hspan.symm) with
      ⟨hex, hd⟩ | ⟨hall, gs, hd, hlen, hgs⟩
    · simp only [Nat.zero_add] at hex
      exact .inl ⟨hrep, hex, by rw [show (8 : Nat) = recordOffset b v.fam 0 from rfl, hd]⟩
    · simp only [Nat.zero_add] at hall hgs
      refine .inr ⟨fun ⟨_, j, hj, ht⟩ => by simp [hall j hj] at ht, { Message.new v with recs := gs },
        by rw [show (8 : Nat) = recordOffset b v.fam 0 from rfl, hd], rfl, ⟨fun hn => absurd hrep hn, fun hq => ?_, fun hq => ?_, fun _ => ⟨hlen, fun j hj => ?_⟩⟩,
        report_legal hrep ?_ fun g hg => ?_⟩
      · exfalso; rcases List.mem_pair.mp hrep with rfl | rfl <;> simp [Message.new] at hq
      · exfalso; rcases List.mem_pair.mp hrep with rfl | rfl <;> simp [Message.new] at hq
      · obtain ⟨g, h1, h2, -⟩ := hgs j (hlen ▸ hj)
        exact ⟨g, h1, h2⟩
      · have := b.u16_lt 6
        simp only [hlen, maxCount]; omega
      · obtain ⟨j, hj, rfl⟩ := List.mem_iff_getElem.mp hg
        obtain ⟨g, h1, h2, h3⟩ := hgs j (hlen ▸ hj)
        rw [List.getElem?_eq_getElem hj] at h1
        cases h1
        exact ⟨h3, h2.1⟩
  · refine .inr ⟨fun h => hrep h.1, ?_⟩
    cases v
    case igmpv3Report => simp at hrep
    case mldv2Report => simp at hrep
    case igmpv2Query => exact ⟨_, rfl, query_holds .igmpv2Query (by simp) b⟩
    case mldv1Query => exact ⟨_, rfl, query_holds .mldv1Query (by simp) b⟩
    case igmpv3Query => exact ⟨_, rfl, extQuery_holds .igmpv3Query (by simp) b⟩
    case mldv2Query => exact ⟨_, rfl, extQuery_holds .mldv2Query (by simp) b⟩
    case igmpv2Report => exact ⟨_, rfl, plain_holds .igmpv2Report (by simp) b⟩
    case igmpv2Leave => exact ⟨_, rfl, plain_holds .igmpv2Leave (by simp) b⟩
    case mldv1Report => exact ⟨_, rfl, plain_holds .mldv1Report (by simp) b⟩
    case mldv1Done => exact ⟨_, rfl, plain_holds .mldv1Done (by simp) b⟩

end Sys2Proof.Machine
end

