-- ==== Sys2Proof/Laws/PerInstr.lean ====
section
/-! SUPPORT. Laws/PerInstr.lean: the family `WireLength`, one lemma a command: how many bytes its encoding has, which
opcode it starts with, and that the opcode map of R112 finds a format for that opcode with that fixed length (R111). -/

namespace Sys2Proof.Laws.WireLength

open Sys2Proof.Machine

/-- The length in bytes of the byte string a command carries behind a length prefix (formats OD, D and A, R111). -/
def carried : Instr → Nat
  | .bufLoad data => data.length
  | .bufSetlen _ => 0
  | .bufGetlen => 0
  | .fldGetU8 _ => 0
  | .fldGetU16 _ => 0
  | .fldGetU32 _ => 0
  | .fldSetU8 _ _ => 0
  | .fldSetU16 _ _ => 0
  | .fldSetU32 _ _ => 0
  | .fldGetBits _ _ _ => 0
  | .fldSetBits _ _ _ _ => 0
  | .fldGetBytes _ _ => 0
  | .fldSetBytes _ data => data.length
  | .ctxSetSrc data => data.length
  | .ctxSetDst data => data.length
  | .csumCompute _ _ => 0
  | .csumVerify _ _ => 0
  | .csumWrite _ _ => 0
  | .tc8Decode _ => 0
  | .tc8Encode _ => 0
  | .tc16Decode _ => 0
  | .tc16Encode _ => 0
  | .grNew _ _ => 0
  | .grGetType => 0
  | .grSetType _ => 0
  | .grGetGroup => 0
  | .grSetGroup data => data.length
  | .grGetNsrc => 0
  | .grGetSrc _ => 0
  | .grAddSrc data => data.length
  | .grClearSrc => 0
  | .grGetAuxlen => 0
  | .grGetAux => 0
  | .grSetAux data => data.length
  | .grLength => 0
  | .grDecode _ _ => 0
  | .grEncode _ => 0
  | .grPeekLength _ _ => 0
  | .msgNew _ => 0
  | .msgGetVariant => 0
  | .msgGetGroup => 0
  | .msgSetGroup data => data.length
  | .msgGetMaxrespCode => 0
  | .msgSetMaxrespCode _ => 0
  | .msgGetMaxrespTime => 0
  | .msgSetMaxrespTime _ => 0
  | .msgGetS => 0
  | .msgSetS _ => 0
  | .msgGetQrv => 0
  | .msgSetQrv _ => 0
  | .msgGetQqic => 0
  | .msgSetQqic _ => 0
  | .msgGetQqi => 0
  | .msgSetQqi _ => 0
  | .msgGetNsrc => 0
  | .msgGetSrc _ => 0
  | .msgAddSrc data => data.length
  | .msgClearSrc => 0
  | .msgGetNrec => 0
  | .msgGetRec _ => 0
  | .msgAddRec => 0
  | .msgClearRec => 0
  | .msgLength => 0
  | .msgEncode _ => 0
  | .regRegister _ _ _ => 0
  | .regLookup _ _ => 0
  | .regBuild => 0
  | .regSeal => 0
  | .parse _ => 0

/-- The encoding of a well-formed command starts with an assigned opcode and is as long as R111 says: the fixed length
of the opcode's format and, for formats OD, D and A, the byte string; and that length fits the prefix. -/
def Statement (i : Instr) : Prop :=
  i.wf = true → carried i ≤ 65535 ∧
    ∃ op args sh, encode i = op :: args ∧ shapeOf op = some sh ∧ (encode i).length = sh.fixedLen + carried i

theorem bufLoad (data : List Byte) : Statement (.bufLoad data) := fun h =>
  ⟨of_decide_eq_true h, _, _, _, rfl, rfl, by simp [encode, bytes16, Shape.fixedLen, carried]; omega⟩

theorem bufSetlen (n : Half) : Statement (.bufSetlen n) := fun _ =>
  ⟨Nat.zero_le _, _, _, _, rfl, rfl, rfl⟩

theorem bufGetlen : Statement .bufGetlen := fun _ =>
  ⟨Nat.zero_le _, _, _, _, rfl, rfl, rfl⟩

theorem fldGetU8 (off : Half) : Statement (.fldGetU8 off) := fun _ =>
  ⟨Nat.zero_le _, _, _, _, rfl, rfl, rfl⟩

theorem fldGetU16 (off : Half) : Statement (.fldGetU16 off) := fun _ =>
  ⟨Nat.zero_le _, _, _, _, rfl, rfl, rfl⟩

theorem fldGetU32 (off : Half) : Statement (.fldGetU32 off) := fun _ =>
  ⟨Nat.zero_le _, _, _, _, rfl, rfl, rfl⟩

theorem fldSetU8 (off : Half) (v : Word) : Statement (.fldSetU8 off v) := fun _ =>
  ⟨Nat.zero_le _, _, _, _, rfl, rfl, rfl⟩

theorem fldSetU16 (off : Half) (v : Word) : Statement (.fldSetU16 off v) := fun _ =>
  ⟨Nat.zero_le _, _, _, _, rfl, rfl, rfl⟩

theorem fldSetU32 (off : Half) (v : Word) : Statement (.fldSetU32 off v) := fun _ =>
  ⟨Nat.zero_le _, _, _, _, rfl, rfl, rfl⟩

theorem fldGetBits (off : Half) (sh w : Byte) : Statement (.fldGetBits off sh w) := fun _ =>
  ⟨Nat.zero_le _, _, _, _, rfl, rfl, rfl⟩

theorem fldSetBits (off : Half) (sh w : Byte) (v : Word) : Statement (.fldSetBits off sh w v) := fun _ =>
  ⟨Nat.zero_le _, _, _, _, rfl, rfl, rfl⟩

theorem fldGetBytes (off n : Half) : Statement (.fldGetBytes off n) := fun _ =>
  ⟨Nat.zero_le _, _, _, _, rfl, rfl, rfl⟩

theorem fldSetBytes (off : Half) (data : List Byte) : Statement (.fldSetBytes off data) := fun h =>
  ⟨of_decide_eq_true h, _, _, _, rfl, rfl, by simp [encode, encHalf, bytes16, Shape.fixedLen, carried]; omega⟩

theorem ctxSetSrc (addr : List Byte) : Statement (.ctxSetSrc addr) := fun h =>
  ⟨Nat.le_trans (of_decide_eq_true h) (by decide), _, _, _, rfl, rfl, by simp [encode, bytes8, Shape.fixedLen, carried]; omega⟩

theorem ctxSetDst (addr : List Byte) : Statement (.ctxSetDst addr) := fun h =>
  ⟨Nat.le_trans (of_decide_eq_true h) (by decide), _, _, _, rfl, rfl, by simp [encode, bytes8, Shape.fixedLen, carried]; omega⟩

theorem csumCompute (len : Half) (p : Byte) : Statement (.csumCompute len p) := fun _ =>
  ⟨Nat.zero_le _, _, _, _, rfl, rfl, rfl⟩

theorem csumVerify (len : Half) (p : Byte) : Statement (.csumVerify len p) := fun _ =>
  ⟨Nat.zero_le _, _, _, _, rfl, rfl, rfl⟩

theorem csumWrite (len : Half) (p : Byte) : Statement (.csumWrite len p) := fun _ =>
  ⟨Nat.zero_le _, _, _, _, rfl, rfl, rfl⟩

theorem tc8Decode (code : Byte) : Statement (.tc8Decode code) := fun _ =>
  ⟨Nat.zero_le _, _, _, _, rfl, rfl, rfl⟩

theorem tc8Encode (v : Word) : Statement (.tc8Encode v) := fun _ =>
  ⟨Nat.zero_le _, _, _, _, rfl, rfl, rfl⟩

theorem tc16Decode (code : Half) : Statement (.tc16Decode code) := fun _ =>
  ⟨Nat.zero_le _, _, _, _, rfl, rfl, rfl⟩

theorem tc16Encode (v : Word) : Statement (.tc16Encode v) := fun _ =>
  ⟨Nat.zero_le _, _, _, _, rfl, rfl, rfl⟩

theorem grNew (fam rtype : Byte) : Statement (.grNew fam rtype) := fun _ =>
  ⟨Nat.zero_le _, _, _, _, rfl, rfl, rfl⟩

theorem grGetType : Statement .grGetType := fun _ =>
  ⟨Nat.zero_le _, _, _, _, rfl, rfl, rfl⟩

theorem grSetType (rtype : Byte) : Statement (.grSetType rtype) := fun _ =>
  ⟨Nat.zero_le _, _, _, _, rfl, rfl, rfl⟩

theorem grGetGroup : Statement .grGetGroup := fun _ =>
  ⟨Nat.zero_le _, _, _, _, rfl, rfl, rfl⟩

theorem grSetGroup (addr : List Byte) : Statement (.grSetGroup addr) := fun h =>
  ⟨Nat.le_trans (of_decide_eq_true h) (by decide), _, _, _, rfl, rfl, by simp [encode, bytes8, Shape.fixedLen, carried]; omega⟩

theorem grGetNsrc : Statement .grGetNsrc := fun _ =>
  ⟨Nat.zero_le _, _, _, _, rfl, rfl, rfl⟩

theorem grGetSrc (i : Half) : Statement (.grGetSrc i) := fun _ =>
  ⟨Nat.zero_le _, _, _, _, rfl, rfl, rfl⟩

theorem grAddSrc (addr : List Byte) : Statement (.grAddSrc addr) := fun h =>
  ⟨Nat.le_trans (of_decide_eq_true h) (by decide), _, _, _, rfl, rfl, by simp [encode, bytes8, Shape.fixedLen, carried]; omega⟩

theorem grClearSrc : Statement .grClearSrc := fun _ =>
  ⟨Nat.zero_le _, _, _, _, rfl, rfl, rfl⟩

theorem grGetAuxlen : Statement .grGetAuxlen := fun _ =>
  ⟨Nat.zero_le _, _, _, _, rfl, rfl, rfl⟩

theorem grGetAux : Statement .grGetAux := fun _ =>
  ⟨Nat.zero_le _, _, _, _, rfl, rfl, rfl⟩

theorem grSetAux (data : List Byte) : Statement (.grSetAux data) := fun h =>
  ⟨of_decide_eq_true h, _, _, _, rfl, rfl, by simp [encode, bytes16, Shape.fixedLen, carried]; omega⟩

theorem grLength : Statement .grLength := fun _ =>
  ⟨Nat.zero_le _, _, _, _, rfl, rfl, rfl⟩

theorem grDecode (off : Half) (fam : Byte) : Statement (.grDecode off fam) := fun _ =>
  ⟨Nat.zero_le _, _, _, _, rfl, rfl, rfl⟩

theorem grEncode (off : Half) : Statement (.grEncode off) := fun _ =>
  ⟨Nat.zero_le _, _, _, _, rfl, rfl, rfl⟩

theorem grPeekLength (off : Half) (fam : Byte) : Statement (.grPeekLength off fam) := fun _ =>
  ⟨Nat.zero_le _, _, _, _, rfl, rfl, rfl⟩

theorem msgNew (variant : Byte) : Statement (.msgNew variant) := fun _ =>
  ⟨Nat.zero_le _, _, _, _, rfl, rfl, rfl⟩

theorem msgGetVariant : Statement .msgGetVariant := fun _ =>
  ⟨Nat.zero_le _, _, _, _, rfl, rfl, rfl⟩

theorem msgGetGroup : Statement .msgGetGroup := fun _ =>
  ⟨Nat.zero_le _, _, _, _, rfl, rfl, rfl⟩

theorem msgSetGroup (addr : List Byte) : Statement (.msgSetGroup addr) := fun h =>
  ⟨Nat.le_trans (of_decide_eq_true h) (by decide), _, _, _, rfl, rfl, by simp [encode, bytes8, Shape.fixedLen, carried]; omega⟩

theorem msgGetMaxrespCode : Statement .msgGetMaxrespCode := fun _ =>
  ⟨Nat.zero_le _, _, _, _, rfl, rfl, rfl⟩

theorem msgSetMaxrespCode (v : Word) : Statement (.msgSetMaxrespCode v) := fun _ =>
  ⟨Nat.zero_le _, _, _, _, rfl, rfl, rfl⟩

theorem msgGetMaxrespTime : Statement .msgGetMaxrespTime := fun _ =>
  ⟨Nat.zero_le _, _, _, _, rfl, rfl, rfl⟩

theorem msgSetMaxrespTime (ms : Word) : Statement (.msgSetMaxrespTime ms) := fun _ =>
  ⟨Nat.zero_le _, _, _, _, rfl, rfl, rfl⟩

theorem msgGetS : Statement .msgGetS := fun _ =>
  ⟨Nat.zero_le _, _, _, _, rfl, rfl, rfl⟩

theorem msgSetS (v : Word) : Statement (.msgSetS v) := fun _ =>
  ⟨Nat.zero_le _, _, _, _, rfl, rfl, rfl⟩

theorem msgGetQrv : Statement .msgGetQrv := fun _ =>
  ⟨Nat.zero_le _, _, _, _, rfl, rfl, rfl⟩

theorem msgSetQrv (v : Word) : Statement (.msgSetQrv v) := fun _ =>
  ⟨Nat.zero_le _, _, _, _, rfl, rfl, rfl⟩

theorem msgGetQqic : Statement .msgGetQqic := fun _ =>
  ⟨Nat.zero_le _, _, _, _, rfl, rfl, rfl⟩

theorem msgSetQqic (v : Word) : Statement (.msgSetQqic v) := fun _ =>
  ⟨Nat.zero_le _, _, _, _, rfl, rfl, rfl⟩

theorem msgGetQqi : Statement .msgGetQqi := fun _ =>
  ⟨Nat.zero_le _, _, _, _, rfl, rfl, rfl⟩

theorem msgSetQqi (v : Word) : Statement (.msgSetQqi v) := fun _ =>
  ⟨Nat.zero_le _, _, _, _, rfl, rfl, rfl⟩

theorem msgGetNsrc : Statement .msgGetNsrc := fun _ =>
  ⟨Nat.zero_le _, _, _, _, rfl, rfl, rfl⟩

theorem msgGetSrc (i : Half) : Statement (.msgGetSrc i) := fun _ =>
  ⟨Nat.zero_le _, _, _, _, rfl, rfl, rfl⟩

theorem msgAddSrc (addr : List Byte) : Statement (.msgAddSrc addr) := fun h =>
  ⟨Nat.le_trans (of_decide_eq_true h) (by decide), _, _, _, rfl, rfl, by simp [encode, bytes8, Shape.fixedLen, carried]; omega⟩

theorem msgClearSrc : Statement .msgClearSrc := fun _ =>
  ⟨Nat.zero_le _, _, _, _, rfl, rfl, rfl⟩

theorem msgGetNrec : Statement .msgGetNrec := fun _ =>
  ⟨Nat.zero_le _, _, _, _, rfl, rfl, rfl⟩

theorem msgGetRec (i : Half) : Statement (.msgGetRec i) := fun _ =>
  ⟨Nat.zero_le _, _, _, _, rfl, rfl, rfl⟩

theorem msgAddRec : Statement .msgAddRec := fun _ =>
  ⟨Nat.zero_le _, _, _, _, rfl, rfl, rfl⟩

theorem msgClearRec : Statement .msgClearRec := fun _ =>
  ⟨Nat.zero_le _, _, _, _, rfl, rfl, rfl⟩

theorem msgLength : Statement .msgLength := fun _ =>
  ⟨Nat.zero_le _, _, _, _, rfl, rfl, rfl⟩

theorem msgEncode (cap : Half) : Statement (.msgEncode cap) := fun _ =>
  ⟨Nat.zero_le _, _, _, _, rfl, rfl, rfl⟩

theorem regRegister (fam tag dec : Byte) : Statement (.regRegister fam tag dec) := fun _ =>
  ⟨Nat.zero_le _, _, _, _, rfl, rfl, rfl⟩

theorem regLookup (fam tag : Byte) : Statement (.regLookup fam tag) := fun _ =>
  ⟨Nat.zero_le _, _, _, _, rfl, rfl, rfl⟩

theorem regBuild : Statement .regBuild := fun _ =>
  ⟨Nat.zero_le _, _, _, _, rfl, rfl, rfl⟩

theorem regSeal : Statement .regSeal := fun _ =>
  ⟨Nat.zero_le _, _, _, _, rfl, rfl, rfl⟩

theorem parse (fam : Byte) : Statement (.parse fam) := fun _ =>
  ⟨Nat.zero_le _, _, _, _, rfl, rfl, rfl⟩

end Sys2Proof.Laws.WireLength
end

