-- ==== Sys2Proof/Laws/TimeCode.lean ====
section
/-! SUPPORT. Laws/TimeCode.lean: the time codes of R190 to R193 as plain arithmetic: what a code decodes to, which
exponent the encoder finds, and what it makes of a value. -/

namespace Sys2Proof.Machine

theorem or_eq_add_of_lt {a k b : Nat} (h : b < 2 ^ k) : a * 2 ^ k ||| b = a * 2 ^ k + b := by
  rw [← Nat.shiftLeft_eq, ← Nat.shiftLeft_add_eq_or_of_lt h]

/-- Below the threshold a code is its own value (R191). -/
theorem tcDecode_small {M code : Nat} (h : code < 2 ^ (M + 3)) : tcDecode M code = code := by
  simp [tcDecode, tcThreshold, h]

/-- From the threshold up, the value is the mantissa with its leading bit, shifted (R191). -/
theorem tcDecode_large {M code : Nat} (h : 2 ^ (M + 3) ≤ code) :
    tcDecode M code = (2 ^ M + code % 2 ^ M) * 2 ^ (code / 2 ^ M % 8 + 3) := by
  have hm : code % 2 ^ M < 2 ^ M := Nat.mod_lt _ (Nat.two_pow_pos M)
  have ho := or_eq_add_of_lt (a := 1) hm
  rw [Nat.one_mul] at ho
  simp only [tcDecode, tcThreshold, if_neg (Nat.not_lt.2 h), Nat.shiftRight_eq_div_pow, Nat.shiftLeft_eq]
  rw [Nat.or_comm, ho]
  norm_num

/-- The search for the exponent finds the first fit, if there is one within its fuel. -/
theorem tcExponentFrom_spec (M v : Nat) : ∀ fuel e, (∃ k, k < fuel ∧ v / 2 ^ (e + k + 3) < 2 ^ (M + 1)) →
    ∃ k, k < fuel ∧ tcExponentFrom M v fuel e = e + k ∧ v / 2 ^ (e + k + 3) < 2 ^ (M + 1) ∧
      ∀ j, j < k → 2 ^ (M + 1) ≤ v / 2 ^ (e + j + 3)
  | 0, _, ⟨_, h, _⟩ => absurd h (Nat.not_lt_zero _)
  | fuel + 1, e, ⟨k, hk, hf⟩ => by
    by_cases h0 : v / 2 ^ (e + 3) < 2 ^ (M + 1)
    · exact ⟨0, Nat.succ_pos _, by simp [tcExponentFrom, Nat.shiftRight_eq_div_pow, h0], h0, by simp⟩
    · cases k with
      | zero => exact absurd hf h0
      | succ k =>
        obtain ⟨j, hj, he, hlt, hmin⟩ := tcExponentFrom_spec M v fuel (e + 1)
          ⟨k, by omega, by rw [show e + 1 + k + 3 = e + (k + 1) + 3 by omega]; exact hf⟩
        refine ⟨j + 1, by omega, ?_, by rw [show e + (j + 1) + 3 = e + 1 + j + 3 by omega]; exact hlt, ?_⟩
        · simp only [tcExponentFrom, Nat.shiftRight_eq_div_pow, if_neg h0, he]; omega
        · intro i hi
          cases i with
          | zero => exact Nat.not_lt.1 h0
          | succ i => rw [show e + (i + 1) + 3 = e + 1 + i + 3 by omega]; exact hmin i (by omega)

/-- The exponent of a value between the threshold and the largest representable value (R192): at most 7, and the
shifted value has its leading bit just above the mantissa. -/
theorem tcExponent_spec {M v : Nat} (lo : 2 ^ (M + 3) ≤ v) (hi : v ≤ (2 ^ (M + 1) - 1) * 2 ^ 10) :
    tcExponent M v < 8 ∧ v / 2 ^ (tcExponent M v + 3) < 2 ^ (M + 1) ∧ 2 ^ M ≤ v / 2 ^ (tcExponent M v + 3) := by
  have hfit : v / 2 ^ (0 + 7 + 3) < 2 ^ (M + 1) := by
    have := Nat.two_pow_pos (M + 1)
    rw [Nat.div_lt_iff_lt_mul (by decide)]
    norm_num at hi ⊢
    omega
  obtain ⟨k, hk, he, hlt, hmin⟩ := tcExponentFrom_spec M v 8 0 ⟨7, by decide, hfit⟩
  have hek : tcExponent M v = k := by simpa [tcExponent] using he
  rw [hek]
  rw [Nat.zero_add] at hlt
  refine ⟨hk, hlt, ?_⟩
  cases k with
  | zero =>
    rw [Nat.le_div_iff_mul_le (Nat.two_pow_pos _), ← Nat.pow_add]
    exact lo
  | succ k =>
    have h := hmin k (by omega)
    rw [Nat.zero_add, Nat.le_div_iff_mul_le (Nat.two_pow_pos _), ← Nat.pow_add] at h
    rw [Nat.le_div_iff_mul_le (Nat.two_pow_pos _), ← Nat.pow_add]
    rw [show M + (k + 1 + 3) = M + 1 + (k + 3) by omega]
    exact h

/-- The code of such a value (R192): flag, exponent and mantissa side by side. -/
theorem tcEncode_large {M v : Nat} (lo : 2 ^ (M + 3) ≤ v) (hi : v ≤ (2 ^ (M + 1) - 1) * 2 ^ 10) :
    tcEncode M v = 2 ^ (M + 3) + tcExponent M v * 2 ^ M + (v / 2 ^ (tcExponent M v + 3) - 2 ^ M) := by
  obtain ⟨he, hlt, hge⟩ := tcExponent_spec lo hi
  have hm : v / 2 ^ (tcExponent M v + 3) - 2 ^ M < 2 ^ M := by
    have : 2 ^ (M + 1) = 2 * 2 ^ M := by rw [Nat.pow_succ]; omega
    omega
  have h8 : 2 ^ (M + 3) = 8 * 2 ^ M := by rw [Nat.pow_add]; omega
  have hflag : 8 ||| tcExponent M v = 8 + tcExponent M v := or_eq_add_of_lt (a := 1) (k := 3) he
  have hcat : 8 * 2 ^ M ||| tcExponent M v * 2 ^ M = (8 + tcExponent M v) * 2 ^ M := by
    rw [← hflag, ← Nat.shiftLeft_eq, ← Nat.shiftLeft_eq, ← Nat.shiftLeft_eq, Nat.shiftLeft_or_distrib]
  simp only [tcEncode, tcThreshold, tcMax, Nat.shiftRight_eq_div_pow, Nat.shiftLeft_eq, if_neg (Nat.not_lt.2 lo),
    if_neg (Nat.not_lt.2 hi)]
  rw [h8, hcat, or_eq_add_of_lt hm, Nat.add_mul]

/-- Below the threshold a value is its own code; above the largest representable value the code saturates (R193). -/
theorem tcEncode_small {M v : Nat} (h : v < 2 ^ (M + 3)) : tcEncode M v = v := by simp [tcEncode, tcThreshold, h]

theorem tcEncode_saturates {M v : Nat} (h : (2 ^ (M + 1) - 1) * 2 ^ 10 < v) (lo : 2 ^ (M + 3) ≤ v) :
    tcEncode M v = 2 ^ (M + 4) - 1 := by
  simp only [tcEncode, tcThreshold, tcMax, Nat.shiftLeft_eq, if_neg (Nat.not_lt.2 lo), if_pos h]

/-- Every code fits its width (R190). -/
theorem tcEncode_lt (M v : Nat) : tcEncode M v < 2 ^ (M + 4) := by
  have h16 : 2 ^ (M + 4) = 16 * 2 ^ M := by rw [Nat.pow_add]; omega
  have h8 : 2 ^ (M + 3) = 8 * 2 ^ M := by rw [Nat.pow_add]; omega
  have hp := Nat.two_pow_pos M
  by_cases lo : v < 2 ^ (M + 3)
  · rw [tcEncode_small lo]; omega
  · by_cases hi : (2 ^ (M + 1) - 1) * 2 ^ 10 < v
    · rw [tcEncode_saturates hi (Nat.not_lt.1 lo)]; omega
    · obtain ⟨he, hlt, hge⟩ := tcExponent_spec (Nat.not_lt.1 lo) (Nat.not_lt.1 hi)
      rw [tcEncode_large (Nat.not_lt.1 lo) (Nat.not_lt.1 hi), h16, h8]
      have : 2 ^ (M + 1) = 2 * 2 ^ M := by rw [Nat.pow_succ]; omega
      have hmul : tcExponent M v * 2 ^ M ≤ 7 * 2 ^ M := Nat.mul_le_mul_right _ (by omega)
      omega

end Sys2Proof.Machine
end

