-- ==== Sys2Proof/Machine/Assembler.lean ====
section
/-! DEFINITION. Machine/Assembler.lean: the assembler syntax and the pseudo-instructions of spec/30_encoding.md R119
and R120: how a written program becomes the host's frames. The block itself never sees this form. -/

namespace Sys2Proof.Machine

/-! Pseudo-instructions. -/

/-- The five pseudo-instructions (R120); they have no opcode. -/
inductive Pseudo where
  | recv (fam : Byte) (data : List Byte)
  | send (cap : Half)
  | setaddr (src dst : List Byte)
  | record (fam rtype : Byte) (group : List Byte)
  | fixsum (len : Half) (p : Byte)
deriving DecidableEq, Repr

/-- The commands a pseudo-instruction stands for, in order (R120). -/
def Pseudo.expand : Pseudo → List Instr
  | .recv fam data => [.bufLoad data, .parse fam]
  | .send cap => [.msgEncode cap]
  | .setaddr src dst => [.ctxSetSrc src, .ctxSetDst dst]
  | .record fam rtype group => [.grNew fam rtype, .grSetGroup group]
  | .fixsum len p => [.csumWrite len p]

/-! Operands. -/

/-- A written operand (R119). -/
inductive Arg where
  | num (n : Nat)
  | name (s : String)
  | bytes (bs : List Byte)
deriving DecidableEq, Repr

/-- A number that fits `w` bits; a wider one is no operand of the field (notes/assumptions/16.md). -/
def Arg.number (w : Nat) : Arg → Option (BitVec w)
  | .num n => if n < 2 ^ w then some (BitVec.ofNat w n) else none
  | _ => none

/-- A number, or one of the given names with its value (R119). -/
def Arg.named (names : List (String × Byte)) : Arg → Option Byte
  | .name s => names.lookup s
  | a => a.number 8

/-- A byte string. -/
def Arg.string : Arg → Option (List Byte)
  | .bytes bs => some bs
  | _ => none

/-- Family names (R119). -/
def familyNames : List (String × Byte) := [("igmp", 0), ("mld", 1)]

/-- Pseudo-header names (R119). -/
def pseudoNames : List (String × Byte) := [("nopseudo", 0), ("pseudo", 1)]

/-- Variant names (R27). -/
def variantNames : List (String × Byte) :=
  [("IGMPV2_QUERY", 0), ("IGMPV3_QUERY", 1), ("IGMPV2_REPORT", 2), ("IGMPV2_LEAVE", 3), ("IGMPV3_REPORT", 4),
   ("MLDV1_QUERY", 5), ("MLDV2_QUERY", 6), ("MLDV1_REPORT", 7), ("MLDV1_DONE", 8), ("MLDV2_REPORT", 9)]

/-- Decoder names (R23). -/
def decoderNames : List (String × Byte) :=
  [("none", 0), ("IGMP_QUERY", 1), ("IGMPV2_REPORT", 2), ("IGMPV2_LEAVE", 3), ("IGMPV3_REPORT", 4), ("MLD_QUERY", 5),
   ("MLDV1_REPORT", 6), ("MLDV1_DONE", 7), ("MLDV2_REPORT", 8)]

/-! Mnemonics: the first columns of R112. -/

/-- The mnemonics of the first opcodes of R112. -/
def mnemonicsLow : List (String × Byte) :=
  [("BUF_LOAD", 0x01), ("BUF_SETLEN", 0x02), ("BUF_GETLEN", 0x03), ("FLD_GET_U8", 0x04),
   ("FLD_GET_U16", 0x05), ("FLD_GET_U32", 0x06), ("FLD_SET_U8", 0x07), ("FLD_SET_U16", 0x08),
   ("FLD_SET_U32", 0x09), ("FLD_GET_BITS", 0x0A), ("FLD_SET_BITS", 0x0B), ("FLD_GET_BYTES", 0x0C),
   ("FLD_SET_BYTES", 0x0D), ("CTX_SET_SRC", 0x10), ("CTX_SET_DST", 0x11), ("CSUM_COMPUTE", 0x12),
   ("CSUM_VERIFY", 0x13), ("CSUM_WRITE", 0x14), ("TC8_DECODE", 0x18), ("TC8_ENCODE", 0x19),
   ("TC16_DECODE", 0x1A), ("TC16_ENCODE", 0x1B), ("GR_NEW", 0x20), ("GR_GET_TYPE", 0x21),
   ("GR_SET_TYPE", 0x22), ("GR_GET_GROUP", 0x23), ("GR_SET_GROUP", 0x24), ("GR_GET_NSRC", 0x25),
   ("GR_GET_SRC", 0x26), ("GR_ADD_SRC", 0x27), ("GR_CLEAR_SRC", 0x28), ("GR_GET_AUXLEN", 0x29),
   ("GR_GET_AUX", 0x2A), ("GR_SET_AUX", 0x2B), ("GR_LENGTH", 0x2C), ("GR_DECODE", 0x2D)]

/-- The mnemonics of the other opcodes of R112. -/
def mnemonicsHigh : List (String × Byte) :=
  [("GR_ENCODE", 0x2E), ("GR_PEEK_LENGTH", 0x2F), ("MSG_NEW", 0x30), ("MSG_GET_VARIANT", 0x31),
   ("MSG_GET_GROUP", 0x32), ("MSG_SET_GROUP", 0x33), ("MSG_GET_MAXRESP_CODE", 0x34), ("MSG_SET_MAXRESP_CODE", 0x35),
   ("MSG_GET_MAXRESP_TIME", 0x36), ("MSG_SET_MAXRESP_TIME", 0x37), ("MSG_GET_S", 0x38), ("MSG_SET_S", 0x39),
   ("MSG_GET_QRV", 0x3A), ("MSG_SET_QRV", 0x3B), ("MSG_GET_QQIC", 0x3C), ("MSG_SET_QQIC", 0x3D),
   ("MSG_GET_QQI", 0x3E), ("MSG_SET_QQI", 0x3F), ("MSG_GET_NSRC", 0x40), ("MSG_GET_SRC", 0x41),
   ("MSG_ADD_SRC", 0x42), ("MSG_CLEAR_SRC", 0x43), ("MSG_GET_NREC", 0x44), ("MSG_GET_REC", 0x45),
   ("MSG_ADD_REC", 0x46), ("MSG_CLEAR_REC", 0x47), ("MSG_LENGTH", 0x48), ("MSG_ENCODE", 0x49),
   ("REG_REGISTER", 0x50), ("REG_LOOKUP", 0x51), ("REG_BUILD", 0x52), ("REG_SEAL", 0x53),
   ("PARSE", 0x54)]

/-- The opcode of a mnemonic (R112). -/
def opcodeOf (mnemonic : String) : Option Byte := (mnemonicsLow ++ mnemonicsHigh).lookup mnemonic

/-- The command of a shape with the given operands, in the order of R112's operand column; `tNames` are the names the
operand of format T may take. -/
def Shape.assemble (tNames : List (String × Byte)) : Shape → List Arg → Option Instr
  | .N i, [] => some i
  | .O k, [off] => do some (k (← off.number 16))
  | .OV k, [off, v] => do some (k (← off.number 16) (← v.number 32))
  | .OSW k, [off, sh, w] => do some (k (← off.number 16) (← sh.number 8) (← w.number 8))
  | .OSWV k, [off, sh, w, v] => do some (k (← off.number 16) (← sh.number 8) (← w.number 8) (← v.number 32))
  | .ON k, [off, n] => do some (k (← off.number 16) (← n.number 16))
  | .OD k, [off, data] => do some (k (← off.number 16) (← data.string))
  | .D k, [data] => do some (k (← data.string))
  | .A k, [addr] => do some (k (← addr.string))
  | .V k, [v] => do some (k (← v.number 32))
  | .H k, [v] => do some (k (← v.number 16))
  | .T k, [t] => do some (k (← t.named tNames))
  | .I k, [i] => do some (k (← i.number 16))
  | .LP k, [len, p] => do some (k (← len.number 16) (← p.named pseudoNames))
  | .F k, [fam] => do some (k (← fam.named familyNames))
  | .FT k, [fam, t] => do some (k (← fam.named familyNames) (← t.number 8))
  | .FTD k, [fam, tag, dec] => do some (k (← fam.named familyNames) (← tag.number 8) (← dec.named decoderNames))
  | .OF k, [off, fam] => do some (k (← off.number 16) (← fam.named familyNames))
  | _, _ => none

/-- A written command (R119). -/
def assembleCommand (mnemonic : String) (args : List Arg) : Option Instr := do
  let op ← opcodeOf mnemonic
  let sh ← shapeOf op
  Shape.assemble (if mnemonic = "MSG_NEW" then variantNames else []) sh args

/-- A written pseudo-instruction (R120). -/
def assemblePseudo (mnemonic : String) (args : List Arg) : Option Pseudo :=
  match mnemonic, args with
  | "RECV", [fam, data] => do some (.recv (← fam.named familyNames) (← data.string))
  | "SEND", [cap] => do some (.send (← cap.number 16))
  | "SETADDR", [src, dst] => do some (.setaddr (← src.string) (← dst.string))
  | "RECORD", [fam, rtype, group] => do some (.record (← fam.named familyNames) (← rtype.number 8) (← group.string))
  | "FIXSUM", [len, p] => do some (.fixsum (← len.number 16) (← p.named pseudoNames))
  | _, _ => none

/-- The commands one written line stands for: a command, or a pseudo-instruction's expansion. -/
def assembleLineOf (mnemonic : String) (args : List Arg) : Option (List Instr) :=
  match assembleCommand mnemonic args with
  | some i => some [i]
  | none => (assemblePseudo mnemonic args).map Pseudo.expand

/-! Text. -/

/-- The value of a hexadecimal digit. -/
def hexDigit (ch : Char) : Option Nat :=
  if '0' ≤ ch ∧ ch ≤ '9' then some (ch.toNat - 48)
  else if 'a' ≤ ch ∧ ch ≤ 'f' then some (ch.toNat - 87)
  else if 'A' ≤ ch ∧ ch ≤ 'F' then some (ch.toNat - 55)
  else none

/-- A digit string in the given base, most significant digit first. -/
def digitsIn (base : Nat) (cs : List Char) : Option Nat :=
  cs.foldl (fun acc ch => do
    let n ← acc
    let d ← hexDigit ch
    if d < base then some (n * base + d) else none) (some 0)

/-- Text without the spaces at its two ends. -/
def trimText (cs : List Char) : List Char :=
  ((cs.dropWhile (· = ' ')).reverse.dropWhile (· = ' ')).reverse

/-- Text cut at every character `sep`. -/
def cutAt (sep : Char) : List Char → List (List Char)
  | [] => [[]]
  | ch :: cs =>
    match cutAt sep cs with
    | [] => [[ch]]
    | piece :: rest => if ch = sep then [] :: piece :: rest else (ch :: piece) :: rest

/-- The bytes between the brackets of a byte string: hexadecimal bytes, separated by spaces. The model's choice: a byte
may also be written as one digit (DESIGN CHOICE, notes/assumptions/16.md). -/
def byteList (cs : List Char) : Option (List Byte) :=
  ((cutAt ' ' cs).filter (· ≠ [])).mapM fun w =>
    if w.length ≤ 2 then (digitsIn 16 w).map (BitVec.ofNat 8) else none

/-- One written operand: `[hex bytes]`, `0x` hexadecimal, decimal, or a name. -/
def parseArg (cs : List Char) : Option Arg :=
  match trimText cs with
  | [] => none
  | '[' :: rest =>
    match rest.reverse with
    | ']' :: body => (byteList body.reverse).map Arg.bytes
    | _ => none
  | '0' :: 'x' :: d :: ds => (digitsIn 16 (d :: ds)).map Arg.num
  | ch :: rest =>
    if '0' ≤ ch ∧ ch ≤ '9' then (digitsIn 10 (ch :: rest)).map Arg.num else some (.name (String.ofList (ch :: rest)))

/-- The optional context prefix `@c:`, decimal, default 0, and the rest of the line. -/
def parsePrefix (cs : List Char) : Option (Byte × List Char) :=
  match cs with
  | '@' :: rest =>
    match rest.dropWhile (· ≠ ':'), rest.takeWhile (· ≠ ':') with
    | ':' :: line, d :: ds => do
      let n ← digitsIn 10 (d :: ds)
      if n < 256 then some (BitVec.ofNat 8 n, trimText line) else none
    | _, _ => none
  | _ => some (0, cs)

/-- The text of a line before its comment, a tab counting as a space (notes/assumptions/16.md). -/
def lineText (line : String) : List Char :=
  trimText ((line.toList.takeWhile (· ≠ ';')).map fun ch => if ch = '\t' then ' ' else ch)

/-- One line of a program (R119): its frames, none for a blank line or a comment; `none` when it is no line of the
language, or a byte string does not fit its length prefix. -/
def assembleLine (line : String) : Option (List Frame) :=
  match lineText line with
  | [] => some []
  | text => do
    let (c, body) ← parsePrefix text
    let mnemonic := body.takeWhile (· ≠ ' ')
    let operands := trimText (body.dropWhile (· ≠ ' '))
    let args ← if operands = [] then some [] else (cutAt ',' operands).mapM parseArg
    let is ← assembleLineOf (String.ofList mnemonic) args
    if is.all Instr.wf then some (is.map fun i => { ctx := c, cmd := encode i }) else none

/-- A program: the frames of its lines, in order (R119, R330). -/
def assemble (lines : List String) : Option (List Frame) := (lines.mapM assembleLine).map List.flatten

end Sys2Proof.Machine
end

