-- ==== Sys2Proof/Tests/Slice0.lean ====
section
/-! SUPPORT. Tests/Slice0.lean: the model's own tests. Expected words are written out from spec/30_encoding.md R111 and
R112, expected answers are the examples of the command rules (41_fields.md to 46_registry.md) and the vectors of
spec/95_test_vectors.md. The last part has one witness for the hypotheses of each statement. -/

namespace Sys2Proof.Tests

open Sys2Proof.Machine

/-! Small states. -/

/-- Two contexts, the smallest legal buffers. -/
def start : State := State.resetWith { nCtx := 2, bufCap := 28 }

/-- Context 0 as given. -/
def inCtx0 (c : Context) : State := { start with ctxs := [c, Context.reset] }

/-- A context whose buffer holds the bytes. -/
def filled (bytes : List Byte) : Context :=
  { Context.reset with buf := Memory.ofBytes 0 bytes, bufLen := bytes.length }

def holding (bytes : List Byte) : State := inCtx0 (filled bytes)

def withRec (g : Record) : Context := { Context.reset with gr := g, grValid := true }

def withMsg (m : Message) : Context := { Context.reset with msg := m, msgValid := true }

/-- fe80::1 and ff02::1:3 of R175 and R176. -/
def fe80 : List Byte := [0xFE, 0x80, 0, 0, 0, 0, 0, 0, 0, 0, 0, 0, 0, 0, 0, 1]
def ff02 : List Byte := [0xFF, 2, 0, 0, 0, 0, 0, 0, 0, 0, 0, 0, 0, 1, 0, 3]

/-- The bytes of a step's responses. -/
def answer : StepResult → List Byte
  | .next t => t.responses.flatten
  | .fault _ => []
  | .refused _ => []

/-- Something of context 0 after a step. -/
def look {α : Type} (f : Context → α) : StepResult → Option α
  | .next t => t.ctxs.head?.map f
  | .fault _ => none
  | .refused _ => none

/-- The whole state after a step. -/
def result : StepResult → Option State
  | .next t => some t
  | .fault _ => none
  | .refused _ => none

/-- The buffer of context 0 after a step. -/
def buffer : StepResult → Option (List Byte) := look fun c => c.buf.readBytes 0 c.bufLen

/-- Run a command after others. -/
def thenExec (i : Instr) : StepResult → StepResult
  | .next t => exec i { t with responses := [] }
  | o => o

/-! Well-formedness: one ill-formed term for each check. -/

theorem test_wf_refuses_long_data :
    (Instr.bufLoad (List.replicate 65536 0)).wf = false ∧ (Instr.fldSetBytes 0 (List.replicate 65536 0)).wf = false ∧
    (Instr.grSetAux (List.replicate 65536 0)).wf = false := by
  have h : dataFits (List.replicate 65536 0) = false := by unfold dataFits; rw [List.length_replicate]; decide
  exact ⟨h, h, h⟩

theorem test_wf_refuses_long_addresses :
    (Instr.ctxSetSrc (List.replicate 256 0)).wf = false ∧ (Instr.ctxSetDst (List.replicate 256 0)).wf = false ∧
    (Instr.grSetGroup (List.replicate 256 0)).wf = false ∧ (Instr.grAddSrc (List.replicate 256 0)).wf = false ∧
    (Instr.msgSetGroup (List.replicate 256 0)).wf = false ∧ (Instr.msgAddSrc (List.replicate 256 0)).wf = false := by
  have h : addrFits (List.replicate 256 0) = false := by unfold addrFits; rw [List.length_replicate]; decide
  exact ⟨h, h, h, h, h, h⟩

/-! Decoding: a word of every command, written out from R111 and R112. -/

theorem test_decode_fields :
    decode [0x01, 0x00, 0x02, 0xAA, 0xBB] = .ok (.bufLoad [0xAA, 0xBB]) ∧
    decode [0x02, 0x01, 0x02] = .ok (.bufSetlen 0x0102) ∧
    decode [0x03] = .ok .bufGetlen ∧
    decode [0x04, 0x01, 0x02] = .ok (.fldGetU8 0x0102) ∧
    decode [0x05, 0x01, 0x02] = .ok (.fldGetU16 0x0102) ∧
    decode [0x06, 0x01, 0x02] = .ok (.fldGetU32 0x0102) ∧
    decode [0x07, 0x01, 0x02, 0x03, 0x04, 0x05, 0x06] = .ok (.fldSetU8 0x0102 0x03040506) ∧
    decode [0x08, 0x01, 0x02, 0x03, 0x04, 0x05, 0x06] = .ok (.fldSetU16 0x0102 0x03040506) ∧
    decode [0x09, 0x01, 0x02, 0x03, 0x04, 0x05, 0x06] = .ok (.fldSetU32 0x0102 0x03040506) ∧
    decode [0x0A, 0x01, 0x02, 0x03, 0x04] = .ok (.fldGetBits 0x0102 3 4) ∧
    decode [0x0B, 0x01, 0x02, 0x03, 0x04, 0x05, 0x06, 0x07, 0x08] = .ok (.fldSetBits 0x0102 3 4 0x05060708) ∧
    decode [0x0C, 0x01, 0x02, 0x03, 0x04] = .ok (.fldGetBytes 0x0102 0x0304) ∧
    decode [0x0D, 0x01, 0x02, 0x00, 0x01, 0xAA] = .ok (.fldSetBytes 0x0102 [0xAA]) := by decide

theorem test_decode_checksum_and_timecode :
    decode [0x10, 0x02, 0xFE, 0x80] = .ok (.ctxSetSrc [0xFE, 0x80]) ∧
    decode [0x11, 0x00] = .ok (.ctxSetDst []) ∧
    decode [0x12, 0x01, 0x02, 0x01] = .ok (.csumCompute 0x0102 1) ∧
    decode [0x13, 0x01, 0x02, 0x00] = .ok (.csumVerify 0x0102 0) ∧
    decode [0x14, 0x01, 0x02, 0x02] = .ok (.csumWrite 0x0102 2) ∧
    decode [0x18, 0x80] = .ok (.tc8Decode 0x80) ∧
    decode [0x19, 0x00, 0x00, 0x03, 0xE8] = .ok (.tc8Encode 1000) ∧
    decode [0x1A, 0x98, 0x6A] = .ok (.tc16Decode 0x986A) ∧
    decode [0x1B, 0x00, 0x01, 0xE8, 0x48] = .ok (.tc16Encode 125000) := by decide

theorem test_decode_record :
    decode [0x20, 0x00, 0x01] = .ok (.grNew 0 1) ∧ decode [0x21] = .ok .grGetType ∧
    decode [0x22, 0x06] = .ok (.grSetType 6) ∧ decode [0x23] = .ok .grGetGroup ∧
    decode [0x24, 0x01, 0xE0] = .ok (.grSetGroup [0xE0]) ∧ decode [0x25] = .ok .grGetNsrc ∧
    decode [0x26, 0x01, 0x02] = .ok (.grGetSrc 0x0102) ∧ decode [0x27, 0x01, 0x0A] = .ok (.grAddSrc [0x0A]) ∧
    decode [0x28] = .ok .grClearSrc ∧ decode [0x29] = .ok .grGetAuxlen ∧ decode [0x2A] = .ok .grGetAux ∧
    decode [0x2B, 0x00, 0x02, 0xAA, 0xBB] = .ok (.grSetAux [0xAA, 0xBB]) ∧ decode [0x2C] = .ok .grLength ∧
    decode [0x2D, 0x00, 0x10, 0x01] = .ok (.grDecode 16 1) ∧ decode [0x2E, 0x01, 0x02] = .ok (.grEncode 0x0102) ∧
    decode [0x2F, 0x01, 0x02, 0x00] = .ok (.grPeekLength 0x0102 0) := by decide

theorem test_decode_message :
    decode [0x30, 0x01] = .ok (.msgNew 1) ∧ decode [0x31] = .ok .msgGetVariant ∧ decode [0x32] = .ok .msgGetGroup ∧
    decode [0x33, 0x01, 0xE0] = .ok (.msgSetGroup [0xE0]) ∧ decode [0x34] = .ok .msgGetMaxrespCode ∧
    decode [0x35, 0x00, 0x00, 0x00, 0x64] = .ok (.msgSetMaxrespCode 100) ∧ decode [0x36] = .ok .msgGetMaxrespTime ∧
    decode [0x37, 0x01, 0x02, 0x03, 0x04] = .ok (.msgSetMaxrespTime 0x01020304) ∧ decode [0x38] = .ok .msgGetS ∧
    decode [0x39, 0x01, 0x02, 0x03, 0x04] = .ok (.msgSetS 0x01020304) ∧ decode [0x3A] = .ok .msgGetQrv ∧
    decode [0x3B, 0x00, 0x00, 0x00, 0x02] = .ok (.msgSetQrv 2) ∧ decode [0x3C] = .ok .msgGetQqic ∧
    decode [0x3D, 0x00, 0x00, 0x00, 0x7D] = .ok (.msgSetQqic 125) ∧ decode [0x3E] = .ok .msgGetQqi ∧
    decode [0x3F, 0x00, 0x00, 0x03, 0xE8] = .ok (.msgSetQqi 1000) := by decide

theorem test_decode_message_lists :
    decode [0x40] = .ok .msgGetNsrc ∧ decode [0x41, 0x01, 0x02] = .ok (.msgGetSrc 0x0102) ∧
    decode [0x42, 0x01, 0x0A] = .ok (.msgAddSrc [0x0A]) ∧ decode [0x43] = .ok .msgClearSrc ∧
    decode [0x44] = .ok .msgGetNrec ∧ decode [0x45, 0x01, 0x02] = .ok (.msgGetRec 0x0102) ∧
    decode [0x46] = .ok .msgAddRec ∧ decode [0x47] = .ok .msgClearRec ∧ decode [0x48] = .ok .msgLength ∧
    decode [0x49, 0x00, 0x0C] = .ok (.msgEncode 12) := by decide

theorem test_decode_registry :
    decode [0x50, 0x00, 0x16, 0x02] = .ok (.regRegister 0 0x16 2) ∧ decode [0x51, 0x00, 0x11] = .ok (.regLookup 0 0x11) ∧
    decode [0x52] = .ok .regBuild ∧ decode [0x53] = .ok .regSeal ∧ decode [0x54, 0x01] = .ok (.parse 1) := by decide

/-- R113 and R114: no byte, an unassigned opcode, a byte too many, a byte too few, a short length prefix. -/
theorem test_decode_refuses :
    ∀ cmd ∈ ([[], [0x00], [0x0E], [0x15], [0x1F], [0x4A], [0x55], [0xFF], [0x03, 0x00], [0x04, 0x00],
      [0x01, 0x00], [0x01, 0x00, 0x02, 0xAA], [0x10, 0x01, 0xAA, 0xBB]] : List (List Byte)),
    (decode cmd).toOption = none := by decide

/-- The table's bit numbering: byte 0 in bits 7..0; the second row's data bytes above its bits are 0. -/
theorem test_table_words :
    decodeTableWord 24 0x6A981A = some (.tc16Decode 0x986A) ∧
    decodeTableWord 24 0x020001 = some (.bufLoad [0, 0]) := by decide

theorem test_fetch_word : answer (step (start.withFetchWord 16 0x8018)) = [0, 0, 0, 0, 0x80] := by decide

/-! Field primitives: the examples of R141 to R153. -/

theorem test_buffer :
    buffer (exec (.bufLoad [1, 2, 3, 4, 5]) (holding [9, 9, 9, 9, 9, 9])) = some [1, 2, 3, 4, 5] ∧
    look Context.buf (exec (.bufLoad [1, 2]) (holding [9, 9, 9])) = some [(0, 1), (1, 2)] ∧
    answer (exec .bufGetlen (holding [1, 2, 3, 4, 5])) = [0, 0, 5] ∧
    buffer (exec (.bufSetlen 7) (holding [0xFF, 2, 3, 0x23, 0x45])) = some [0xFF, 2, 3, 0x23, 0x45, 0, 0] ∧
    buffer (thenExec (.bufSetlen 4) (exec (.bufSetlen 2) (holding [0xFF, 2, 3, 0x23]))) = some [0xFF, 2, 0, 0] ∧
    answer (exec (.bufSetlen 29) start) = [1] := by decide

theorem test_integer_reads :
    answer (exec (.fldGetU8 1) (holding [0x11, 0x64, 0xEC, 0x1E])) = [0, 0x64] ∧
    answer (exec (.fldGetU16 1) (holding [1, 2, 3, 4, 5])) = [0, 2, 3] ∧
    answer (exec (.fldGetU32 1) (holding [1, 2, 3, 4, 5])) = [0, 2, 3, 4, 5] ∧
    answer (exec (.fldGetU32 2) (holding [1, 2, 3, 4, 5])) = [1] := by decide

theorem test_integer_writes :
    buffer (exec (.fldSetU8 0 0x1FF) (holding [1, 2, 3, 0x23, 0x45])) = some [0xFF, 2, 3, 0x23, 0x45] ∧
    buffer (exec (.fldSetU16 3 0x12345) (holding [1, 2, 3, 4, 5])) = some [1, 2, 3, 0x23, 0x45] ∧
    buffer (exec (.fldSetU32 4 0xE0010203) (holding (zeros 8))) = some [0, 0, 0, 0, 0xE0, 1, 2, 3] ∧
    answer (exec (.fldSetU16 4 0) (holding [1, 2, 3, 4, 5])) = [1] := by decide

theorem test_bit_fields :
    answer (exec (.fldGetBits 0 0 3) (holding [0xA5])) = [0, 5] ∧
    answer (exec (.fldGetBits 0 3 1) (holding [0xA5])) = [0, 0] ∧
    answer (exec (.fldGetBits 0 4 4) (holding [0xA5])) = [0, 10] ∧
    answer (exec (.fldGetBits 9 5 4) (holding [0xA5])) = [0x14] ∧
    answer (exec (.fldGetBits 0 0 0) (holding [0xA5])) = [0x14] ∧
    buffer (exec (.fldSetBits 0 0 3 0xFF) (holding [0xA5])) = some [0xA7] ∧
    buffer (exec (.fldSetBits 0 3 1 1) (holding [0xA5])) = some [0xAD] := by decide

theorem test_byte_arrays :
    answer (exec (.fldGetBytes 5 0) (holding [0xFF, 2, 3, 0x23, 0x45])) = [0, 0, 0] ∧
    answer (exec (.fldGetBytes 4 2) (holding [0xFF, 2, 3, 0x23, 0x45])) = [1] ∧
    answer (exec (.fldGetBytes 3 2) (holding [0xFF, 2, 3, 0x23, 0x45])) = [0, 0, 2, 0x23, 0x45] ∧
    buffer (exec (.fldSetBytes 4 [0xE0, 1, 2, 3]) (holding [0x16, 0, 0, 0, 0, 0, 0, 0])) =
      some [0x16, 0, 0, 0, 0xE0, 1, 2, 3] := by decide

/-! Checksum engine: the examples of R175 to R179. -/

theorem test_addresses :
    look Context.src (exec (.ctxSetSrc fe80) start) = some fe80 ∧
    look Context.dst (exec (.ctxSetDst ff02) start) = some ff02 ∧
    answer (exec (.ctxSetSrc [1, 2, 3, 4]) start) = [7] ∧ answer (exec (.ctxSetDst []) start) = [7] := by decide

theorem test_checksum :
    answer (exec (.csumCompute 5 0) (holding [0x11, 0x22, 0x33, 0x44, 0x55])) = [0, 0x99, 0xDD] ∧
    answer (exec (.csumCompute 3 0) (holding [0x11, 0x22, 0x33, 0x44, 0x55])) = [0, 0xEE, 0xDD] ∧
    answer (exec (.csumCompute 6 0) (holding [0x11, 0x22, 0x33, 0x44, 0x55])) = [1] ∧
    answer (exec (.csumCompute 0 0) start) = [0, 0xFF, 0xFF] ∧
    answer (exec (.csumWrite 8 0) (holding [0x16, 0, 0, 0, 0xE0, 1, 2, 3])) = [0, 7, 0xFB] ∧
    buffer (exec (.csumWrite 8 0) (holding [0x16, 0, 0, 0, 0xE0, 1, 2, 3])) = some [0x16, 0, 7, 0xFB, 0xE0, 1, 2, 3] ∧
    answer (exec (.csumVerify 8 0) (holding [0x16, 0, 7, 0xFB, 0xE0, 1, 2, 3])) = [0, 1] ∧
    answer (exec (.csumVerify 8 2) (holding [0x16])) = [0x14] := by decide

/-- Program P3 of 95_test_vectors.md: the MLDv1 Report under fe80::1 and ff02::1:3. -/
def mldReport : List Byte := [0x83, 0, 0x80, 0x1D, 0, 0, 0, 0] ++ ff02

def p3 : State := inCtx0 { filled mldReport with src := fe80, dst := ff02 }

set_option maxRecDepth 4000 in
theorem test_pseudo_header :
    answer (exec (.csumVerify 24 1) p3) = [0, 1] ∧ answer (exec (.csumVerify 24 0) p3) = [0, 0] := by decide

/-! Time codes: the examples of R194 to R197. -/

theorem test_tc8 :
    answer (exec (.tc8Decode 0x80) start) = [0, 0, 0, 0, 0x80] ∧
    answer (exec (.tc8Decode 0xFF) start) = [0, 0, 0, 0x7C, 0] ∧
    answer (exec (.tc8Encode 1000) start) = [0, 0xAF] ∧ answer (exec (.tc8Encode 135) start) = [0, 0x80] ∧
    answer (exec (.tc8Encode 31745) start) = [0, 0xFF] := by decide

theorem test_tc16 :
    answer (exec (.tc16Decode 0x986A) start) = [0, 0, 1, 0x86, 0xA0] ∧
    answer (exec (.tc16Encode 125000) start) = [0, 0x9E, 0x84] ∧
    answer (exec (.tc16Encode 65535) start) = [0, 0x8F, 0xFF] := by decide

/-! Group records: the examples of R212 to R230. -/

/-- The second record of program P2 of 95_test_vectors.md: three sources, one word of auxiliary data. -/
def rec3 : Record :=
  { fam := .igmp, rtype := 1, group := [0xEF, 1, 1, 2], srcs := [[10, 0, 0, 1], [10, 0, 0, 2], [10, 0, 0, 3]],
    aux := [1, 2, 3, 4] }

def recMld : Record := { fam := .mld, rtype := 3, group := ff02, srcs := [], aux := [] }

/-- `rec3` on the wire, by R96. -/
def rec3Bytes : List Byte :=
  [1, 1, 0, 3, 0xEF, 1, 1, 2, 10, 0, 0, 1, 10, 0, 0, 2, 10, 0, 0, 3, 1, 2, 3, 4]

theorem test_record_new :
    look Context.gr (exec (.grNew 1 3) start) =
      some { fam := .mld, rtype := 3, group := zeros 16, srcs := [], aux := [] } ∧
    answer (thenExec .grLength (exec (.grNew 0 1) start)) = [0, 0, 0, 0, 8] ∧
    answer (exec (.grNew 0 7) start) = [5] ∧ answer (exec (.grNew 2 0) start) = [0x14] := by decide

theorem test_record_reads :
    let s := inCtx0 (withRec rec3)
    answer (exec .grGetType s) = [0, 1] ∧ answer (exec .grGetGroup s) = [0, 0, 4, 0xEF, 1, 1, 2] ∧
    answer (exec .grGetNsrc s) = [0, 0, 3] ∧ answer (exec (.grGetSrc 2) s) = [0, 0, 4, 10, 0, 0, 3] ∧
    answer (exec (.grGetSrc 3) s) = [0x11] ∧ answer (exec .grGetAuxlen s) = [0, 1] ∧
    answer (exec .grGetAux s) = [0, 0, 4, 1, 2, 3, 4] ∧ answer (exec .grLength s) = [0, 0, 0, 0, 24] ∧
    answer (exec .grGetType start) = [0x16] := by decide

theorem test_record_writes :
    let s := inCtx0 (withRec rec3)
    answer (exec (.grSetType 7) s) = [5] ∧ look (·.gr.rtype) (exec (.grSetType 6) s) = some 6 ∧
    look (·.gr.group) (exec (.grSetGroup [1, 2, 3, 4]) s) = some [1, 2, 3, 4] ∧
    answer (exec (.grSetGroup [0xE0, 1, 2, 3]) (inCtx0 (withRec recMld))) = [6] ∧
    answer (exec (.grAddSrc [0x20, 1, 0x0D, 0xB8, 0, 0]) (inCtx0 (withRec recMld))) = [7] ∧
    answer (thenExec (.grGetSrc 3) (exec (.grAddSrc [10, 0, 0, 4]) s)) = [0, 0, 4, 10, 0, 0, 4] ∧
    look (·.gr.srcs) (exec .grClearSrc s) = some [] ∧
    look (·.gr.aux) (exec (.grSetAux [0xAA, 0xBB]) s) = some [0xAA, 0xBB, 0, 0] := by decide

set_option maxRecDepth 4000 in
theorem test_record_codec :
    look Context.gr (exec (.grDecode 1 0) (holding (9 :: rec3Bytes))) = some rec3 ∧
    answer (exec (.grDecode 1 0) (holding (9 :: rec3Bytes))) = [0, 0, 0, 0, 24] ∧
    answer (exec (.grDecode 2 0) (holding rec3Bytes)) = [1] ∧
    answer (exec (.grPeekLength 1 0) (holding (9 :: rec3Bytes))) = [0, 0, 0, 0, 24] ∧
    buffer (exec (.grEncode 0) (inCtx0 { filled (zeros 25) with gr := rec3, grValid := true })) =
      some (rec3Bytes ++ [0]) ∧
    answer (exec (.grEncode 2) (inCtx0 { filled (zeros 25) with gr := rec3, grValid := true })) = [1] := by decide

/-! Messages: the scenario of spec/95_test_vectors.md L1.5 and the examples of R243 to R268. -/

/-- The General Query of the scenario. -/
def query : Message := { Message.new .igmpv3Query with mrc := 100, qrv := 2, qqic := 125 }

/-- Its wire form (R268). -/
def queryBytes : List Byte := [0x11, 0x64, 0xEC, 0x1E, 0, 0, 0, 0, 2, 0x7D, 0, 0]

theorem test_message_new :
    look Context.msg (exec (.msgNew 9) start) = some (Message.new .mldv2Report) ∧
    answer (thenExec .msgLength (exec (.msgNew 1) start)) = [0, 0, 0, 0, 12] ∧
    answer (exec (.msgNew 10) start) = [0x14] ∧
    answer (exec .msgGetVariant (inCtx0 (withMsg (Message.new .mldv1Report)))) = [0, 7, 0x83] ∧
    answer (exec .msgGetVariant start) = [0x15] := by decide

theorem test_message_reads :
    let s := inCtx0 (withMsg { query with sFlag := 1, srcs := [[10, 0, 0, 1], [10, 0, 0, 2]] })
    answer (exec .msgGetGroup s) = [0, 0, 4, 0, 0, 0, 0] ∧ answer (exec .msgGetMaxrespCode s) = [0, 0, 100] ∧
    answer (exec .msgGetMaxrespTime s) = [0, 0, 0, 0x27, 0x10] ∧ answer (exec .msgGetS s) = [0, 1] ∧
    answer (exec .msgGetQrv s) = [0, 2] ∧ answer (exec .msgGetQqic s) = [0, 0x7D] ∧
    answer (exec .msgGetQqi s) = [0, 0, 0, 0, 125] ∧ answer (exec .msgGetNsrc s) = [0, 0, 2] ∧
    answer (exec (.msgGetSrc 1) s) = [0, 0, 4, 10, 0, 0, 2] ∧ answer (exec (.msgGetSrc 2) s) = [0x11] ∧
    answer (exec .msgGetNrec s) = [0x10] := by decide

theorem test_message_writes :
    let s := inCtx0 (withMsg query)
    look (·.msg.group) (exec (.msgSetGroup [0xE0, 1, 2, 3]) s) = some [0xE0, 1, 2, 3] ∧
    answer (exec (.msgSetGroup ff02) (inCtx0 (withMsg (Message.new .mldv2Report)))) = [0x10] ∧
    look (·.msg.mrc) (exec (.msgSetMaxrespCode 0x164) s) = some 0x64 ∧
    look (·.msg.mrc) (exec (.msgSetMaxrespTime 10000) s) = some 100 ∧
    look (·.msg.mrc) (exec (.msgSetMaxrespTime 10000) (inCtx0 (withMsg (Message.new .mldv2Query)))) = some 10000 ∧
    look (·.msg.sFlag) (exec (.msgSetS 3) s) = some 1 ∧ look (·.msg.qrv) (exec (.msgSetQrv 9) s) = some 1 ∧
    look (·.msg.qqic) (exec (.msgSetQqic 0x18F) s) = some 0x8F ∧
    look (·.msg.qqic) (exec (.msgSetQqi 1000) s) = some 0xAF ∧
    look (·.msg.srcs) (exec (.msgAddSrc [10, 0, 0, 1]) s) = some [[10, 0, 0, 1]] ∧
    answer (exec (.msgAddSrc [10, 0, 0, 1]) (inCtx0 (withMsg (Message.new .mldv2Query)))) = [7] ∧
    look (·.msg.srcs) (thenExec .msgClearSrc (exec (.msgAddSrc [10, 0, 0, 1]) s)) = some [] := by decide

theorem test_message_records :
    let c := { withMsg (Message.new .igmpv3Report) with gr := rec3, grValid := true }
    look (·.msg.recs) (exec .msgAddRec (inCtx0 c)) = some [rec3] ∧
    answer (thenExec .msgGetNrec (exec .msgAddRec (inCtx0 c))) = [0, 0, 1] ∧
    answer (thenExec .msgLength (exec .msgAddRec (inCtx0 c))) = [0, 0, 0, 0, 32] ∧
    answer (exec .msgAddRec (inCtx0 { c with gr := recMld })) = [6] ∧
    answer (exec .msgAddRec (inCtx0 { c with grValid := false })) = [0x16] ∧
    look (·.gr) (exec (.msgGetRec 0) (inCtx0 { c with msg := { c.msg with recs := [recMld] } })) = some recMld ∧
    answer (exec (.msgGetRec 0) (inCtx0 c)) = [0x11] ∧
    look (·.msg.recs) (thenExec .msgClearRec (exec .msgAddRec (inCtx0 c))) = some [] := by decide

theorem test_message_encode :
    buffer (exec (.msgEncode 12) (inCtx0 (withMsg query))) = some queryBytes ∧
    answer (exec (.msgEncode 12) (inCtx0 (withMsg query))) = [0, 0, 12] ∧
    answer (exec (.msgEncode 11) (inCtx0 (withMsg query))) = [1] := by decide

/-! Registry and PARSE: the examples of R292 to R301. -/

def built (s : State) : State :=
  { s with regIgmp := [(0x11, 1), (0x16, 2), (0x17, 3), (0x22, 4)],
           regMld := [(0x82, 5), (0x83, 6), (0x84, 7), (0x8F, 8)] }

theorem test_registry :
    answer (exec (.regRegister 0 0x16 2) start) = [0] ∧ answer (exec (.regRegister 0 0x17 2) start) = [0x17] ∧
    answer (exec (.regRegister 0 0x16 9) start) = [0x14] ∧
    result (exec .regBuild start) = some { built start with responses := [[0]] } ∧
    answer (exec (.regLookup 0 0x11) (built start)) = [0, 1] ∧ answer (exec (.regLookup 1 0x11) (built start)) = [0, 0] ∧
    answer (thenExec (.regRegister 0 0x16 2) (exec .regSeal start)) = [0xFF, 1] ∧
    answer (thenExec (.regRegister 0 0x17 2) (exec .regSeal start)) = [0x17] ∧
    answer (thenExec .regBuild (exec .regSeal start)) = [0xFF, 1] := by decide

theorem test_parse :
    answer (exec (.parse 0) (built (holding queryBytes))) = [0, 1] ∧
    look Context.msg (exec (.parse 0) (built (holding queryBytes))) = some query ∧
    answer (exec (.parse 0) (built (holding [0x11, 0x64, 0xEE, 0x9B, 0, 0, 0, 0]))) = [0, 0] ∧
    answer (exec (.parse 0) (built (holding [0x11, 0x64, 0xEE, 0x9B, 0, 0, 0, 0, 0, 0]))) = [3] ∧
    answer (exec (.parse 0) (built (holding [0x11, 0x65, 0xEE, 0x9B, 0, 0, 0, 0]))) = [4] ∧
    answer (exec (.parse 1) (built (holding queryBytes))) = [2] ∧
    answer (exec (.parse 0) (built start)) = [1] ∧ answer (exec (.parse 2) (built start)) = [0x14] := by decide

set_option maxRecDepth 4000 in
theorem test_parse_mld : answer (exec (.parse 1) (built p3)) = [0, 7] := by decide

/-- R113, R322, R323: an ill-formed frame faults the block, and the fault sticks until reset. -/
theorem test_faults :
    answer (step { start with inputs := [.frame { ctx := 0, cmd := [0x03, 0] }] }) = [0xFF, 2] ∧
    answer (step { start with inputs := [.frame { ctx := 2, cmd := [0x03] }] }) = [0xFF, 2] ∧
    answer (step { start with inputs := [.frame { ctx := 0, cmd := [0x03] }], fault := true, faultCause := 1 }) =
      [0xFF, 1] ∧
    result (step { start with inputs := [.reset], fault := true, faultCause := 1 }) = some start := by decide

/-! The assembler: the examples of R119 and R120. -/

theorem test_assembler :
    assembleLine "MSG_NEW IGMPV3_QUERY" = some [{ ctx := 0, cmd := [0x30, 0x01] }] ∧
    assembleLine "FLD_SET_BITS 8, 0, 3, 2" = some [{ ctx := 0, cmd := [0x0B, 0, 8, 0, 3, 0, 0, 0, 2] }] ∧
    assembleLine "CTX_SET_SRC [fe 80 00 00 00 00 00 00 00 00 00 00 00 00 00 01]" =
      some [{ ctx := 0, cmd := [0x10, 0x10] ++ fe80 }] := by decide

theorem test_pseudo_instructions :
    assembleLine "@1: RECV mld, [83 0A] ; a comment" =
      some [{ ctx := 1, cmd := [0x01, 0, 2, 0x83, 0x0A] }, { ctx := 1, cmd := [0x54, 1] }] ∧
    assembleLine "FIXSUM\t0x18, pseudo" = some [{ ctx := 0, cmd := [0x14, 0, 0x18, 1] }] := by decide

/-! Witnesses: for each statement with hypotheses, a concrete state and operands that meet them, each clause at the
boundary of its range. The number 28 is the capacity of `start`. -/

/-- A block whose next input is a frame. -/
def given (ctx : Byte) (cmd : List Byte) : State := { start with inputs := [.frame { ctx := ctx, cmd := cmd }] }

theorem witness_ResetState : ({ start with inputs := [.reset] } : State).inputs = .reset :: [] := rfl

theorem witness_ResetSatisfiesInvariant :
    ({ nCtx := 1, bufCap := 28 } : Config.Params).legal = true ∧
    ({ nCtx := 256, bufCap := 65535 } : Config.Params).legal = true := by decide

set_option synthInstance.maxHeartbeats 200000 in
set_option synthInstance.maxSize 1000 in
/-- A state with a message, a record, a registry and a seal, about to run a command. -/
theorem witness_StepKeepsInvariant :
    let s := { built (inCtx0 { withMsg query with gr := rec3, grValid := true }) with
      isSealed := true, inputs := [.frame { ctx := 0, cmd := [0x49, 0, 12] }] }
    s.Inv ∧ (result (step s)).isSome = true := by decide

theorem witness_DecodeOfEncode : (Instr.fldSetBytes 0xFFFF (List.replicate 65535 0xFF)).wf = true ∧
    (Instr.msgAddSrc (List.replicate 255 0xFF)).wf = true := by
  constructor
  · show dataFits _ = true
    unfold dataFits; rw [List.length_replicate]; decide
  · show addrFits _ = true
    unfold addrFits; rw [List.length_replicate]; decide

theorem witness_EncodeOfDecode : decode [0x54, 0xFF] = .ok (.parse 0xFF) := by decide

theorem witness_StepRunsDecodedCommand :
    let s := given 1 [0x53]
    s.inputs = .frame { ctx := 1, cmd := [0x53] } :: [] ∧ s.fault = false ∧ (1 : Byte).toNat < s.nCtx ∧
    decode [0x53] = .ok .regSeal ∧ start.inputs = [] := by decide

/-- The four ways to be illegal: context number, no byte, opcode (at each end of the ranges of R114), length. -/
theorem witness_IllegalFramesFault :
    (given 2 [0x53]).fault = false ∧ (given 2 [0x53]).nCtx ≤ (2 : Byte).toNat ∧
    unassignedOpcode (0x00 : Byte).toNat ∧ unassignedOpcode (0x0F : Byte).toNat ∧ unassignedOpcode (0x15 : Byte).toNat ∧
    unassignedOpcode (0x1F : Byte).toNat ∧ unassignedOpcode (0x4A : Byte).toNat ∧ unassignedOpcode (0x55 : Byte).toNat ∧
    unassignedOpcode (0xFF : Byte).toNat ∧ ∀ i : Instr, i.wf = true → encode i ≠ [0x03, 0x00] := by
  refine ⟨by decide, by decide, by decide, by decide, by decide, by decide, by decide, by decide, by decide, ?_⟩
  intro i _ h
  cases i <;> simp [encode] at h

theorem witness_FaultedBlockOnlyAnswers :
    let s : State := { given 0 [0x53] with fault := true, faultCause := 2 }
    s.fault = true ∧ s.inputs = .frame { ctx := 0, cmd := [0x53] } :: [] ∧
    ({ s with inputs := [.reset] } : State).inputs = .reset :: [] := by decide

theorem witness_OneResponsePerFrame : (given 0 []).inputs = .frame { ctx := 0, cmd := [] } :: [] := rfl

/-- An error, and the one that keeps the seal it set. -/
theorem witness_ErrorsWriteNothing :
    (∃ t, exec (.fldGetU8 0) start = .next t ∧ t.responses = start.responses ++ [[0x01]]) ∧
    ∃ t, exec (.parse 0) start = .next t ∧ t.responses = start.responses ++ [[0x01]] ∧ t.isSealed = true :=
  ⟨⟨_, rfl, by decide⟩, _, rfl, by decide, by decide⟩

theorem witness_CommandKeepsOtherContexts : ∃ t, exec (.bufLoad [1]) start = .next t ∧ 1 ≠ start.cur.toNat :=
  ⟨_, rfl, by decide⟩

/-- Two blocks that differ in context 1 alone. -/
theorem witness_ContextsDoNotInterfere :
    let s := inCtx0 (filled queryBytes)
    let s' := { s with ctxs := [filled queryBytes, withMsg query] }
    SharedEq s s' ∧ s.ctx? = s'.ctx? ∧ s.ctx? ≠ none ∧ s ≠ s' := by decide

theorem witness_SealedRegistryIsReadOnly :
    let s := { given 0 [0x52] with isSealed := true }
    s.isSealed = true ∧ (result (step s)).isSome = true ∧ ∀ rest, s.inputs ≠ .reset :: rest :=
  ⟨rfl, by decide, by intro rest h; cases h⟩

/-- Each flag set once. -/
theorem witness_FlagsSetOnlyByTheirCommands :
    (∃ t, exec .regSeal start = .next t ∧ t.isSealed ≠ start.isSealed) ∧
    (∃ t, exec .regBuild { start with isSealed := true } = .next t ∧ t.fault ≠ start.fault) ∧
    (∃ t c', exec (.msgNew 0) start = .next t ∧ t.ctx? = some c' ∧ c'.msgValid ≠ Context.reset.msgValid) ∧
    (∃ t c', exec (.grNew 0 1) start = .next t ∧ t.ctx? = some c' ∧ c'.grValid ≠ Context.reset.grValid) ∧
    start.ctx? = some Context.reset :=
  ⟨⟨_, rfl, by decide⟩, ⟨_, rfl, by decide⟩, ⟨_, _, rfl, rfl, by decide⟩, ⟨_, _, rfl, rfl, by decide⟩, by decide⟩

/-- Two blocks that differ in an invalid message and an invalid record. -/
theorem witness_InvalidRegistersUnobservable :
    let s := { inCtx0 { filled [1] with msg := query } with inputs := [.frame { ctx := 0, cmd := [0x31] }] }
    let s' := { inCtx0 { filled [1] with gr := rec3 } with inputs := [.frame { ctx := 0, cmd := [0x31] }] }
    s.observable = s'.observable ∧ s ≠ s' := by decide

theorem witness_BufLoad : start.ctx? = some Context.reset ∧ ([] : List Byte).length ≤ 65535 ∧
    (zeros 28).length ≤ start.bufCap ∧ start.bufCap < (zeros 29).length := by decide

theorem witness_BufSetlen : (holding [1, 2]).ctx? = some (filled [1, 2]) ∧ (filled [1, 2]).buf.wf = true ∧
    (28 : Half).toNat ≤ (holding [1, 2]).bufCap ∧ (holding [1, 2]).bufCap < (29 : Half).toNat := by decide

/-- The last offset in bounds and the first out of bounds, for each width. -/
theorem witness_IntegerReads :
    let c := filled [1, 2, 3, 4, 5]
    (holding [1, 2, 3, 4, 5]).ctx? = some c ∧ (4 : Half).toNat + 1 ≤ c.bufLen ∧ c.bufLen < (5 : Half).toNat + 1 ∧
    (3 : Half).toNat + 2 ≤ c.bufLen ∧ c.bufLen < (4 : Half).toNat + 2 ∧
    (1 : Half).toNat + 4 ≤ c.bufLen ∧ c.bufLen < (2 : Half).toNat + 4 := by decide

theorem witness_IntegerWrites :
    let c := filled [1, 2, 3, 4, 5]
    (holding [1, 2, 3, 4, 5]).ctx? = some c ∧ c.buf.wf = true ∧
    (4 : Half).toNat + 1 ≤ c.bufLen ∧ c.bufLen < (5 : Half).toNat + 1 ∧
    (3 : Half).toNat + 2 ≤ c.bufLen ∧ c.bufLen < (4 : Half).toNat + 2 ∧
    (1 : Half).toNat + 4 ≤ c.bufLen ∧ c.bufLen < (2 : Half).toNat + 4 := by decide

/-- A width of 0, a field past bit 7, a byte past the buffer, and a field up to bit 7 of the last byte. -/
theorem witness_BitFieldRead :
    let c := filled [0xA5]
    (holding [0xA5]).ctx? = some c ∧ (0 : Byte).toNat < 1 ∧ 8 < (1 : Byte).toNat + (8 : Byte).toNat ∧
    ¬((1 : Byte).toNat < 1 ∨ 8 < (7 : Byte).toNat + (1 : Byte).toNat) ∧ c.bufLen < (1 : Half).toNat + 1 ∧
    ¬c.bufLen < (0 : Half).toNat + 1 := by decide

theorem witness_BitFieldWrite :
    let c := filled [0xA5]
    (holding [0xA5]).ctx? = some c ∧ c.buf.wf = true ∧ (0 : Byte).toNat < 1 ∧ 8 < (1 : Byte).toNat + (8 : Byte).toNat ∧
    ¬((8 : Byte).toNat < 1 ∨ 8 < (0 : Byte).toNat + (8 : Byte).toNat) ∧ c.bufLen < (1 : Half).toNat + 1 ∧
    ¬c.bufLen < (0 : Half).toNat + 1 := by decide

theorem witness_ByteArrays :
    let c := filled [1, 2, 3]
    (holding [1, 2, 3]).ctx? = some c ∧ c.buf.wf = true ∧ (3 : Half).toNat + (0 : Half).toNat ≤ c.bufLen ∧
    c.bufLen < (3 : Half).toNat + (1 : Half).toNat ∧ (1 : Half).toNat + [(7 : Byte), 8].length ≤ c.bufLen ∧
    c.bufLen < (2 : Half).toNat + [(7 : Byte), 8].length ∧ [(7 : Byte), 8].length ≤ 65535 := by decide

theorem witness_GetAfterSet :
    let c := filled [1, 2, 3, 4]
    (holding [1, 2, 3, 4]).ctx? = some c ∧ c.buf.wf = true ∧ (3 : Half).toNat + 1 ≤ c.bufLen ∧
    (2 : Half).toNat + 2 ≤ c.bufLen ∧ (0 : Half).toNat + 4 ≤ c.bufLen ∧ 1 ≤ (1 : Byte).toNat ∧
    (7 : Byte).toNat + (1 : Byte).toNat ≤ 8 := by decide

/-- Adjacent byte strings in both orders; bit-fields of two bytes; adjacent bit-fields of one byte in both orders. -/
theorem witness_DisjointSetsCommute :
    let c := filled [1, 2, 3, 4]
    (holding [1, 2, 3, 4]).ctx? = some c ∧ c.buf.wf = true ∧ (0 : Half).toNat + [(7 : Byte), 8].length ≤ c.bufLen ∧
    (2 : Half).toNat + [(7 : Byte), 8].length ≤ c.bufLen ∧
    (0 : Half).toNat + [(7 : Byte), 8].length ≤ (2 : Half).toNat ∧ (3 : Half).toNat < c.bufLen ∧
    (0 : Half) ≠ 3 ∧ 1 ≤ (3 : Byte).toNat ∧ (0 : Byte).toNat + (3 : Byte).toNat ≤ 8 ∧
    (3 : Byte).toNat + (5 : Byte).toNat ≤ 8 ∧ (0 : Byte).toNat + (3 : Byte).toNat ≤ (3 : Byte).toNat := by decide

theorem witness_AddressRegisters : start.ctx? = some Context.reset ∧ fe80.length ≤ 255 ∧ fe80.length = 16 ∧
    (fe80 ++ [0]).length ≠ 16 ∧ ([] : List Byte).length ≠ 16 := by decide

theorem witness_ChecksumValue : Context.reset.src.length = 16 ∧ Context.reset.dst.length = 16 ∧
    0 < 2 ^ 32 ∧ 2 ^ 32 - 1 < 2 ^ 32 := by decide

/-- An illegal select, a range past the buffer, and the whole buffer. -/
theorem witness_CsumCompute :
    (holding [1, 2, 3]).ctx? = some (filled [1, 2, 3]) ∧ 1 < (2 : Byte).toNat ∧ ¬1 < (1 : Byte).toNat ∧
    (filled [1, 2, 3]).bufLen < (4 : Half).toNat ∧ ¬(filled [1, 2, 3]).bufLen < (3 : Half).toNat := by decide

/-- As before, with a buffer too short for a checksum field, and both answers. -/
theorem witness_CsumVerify :
    let c := filled [0x16, 0, 7, 0xFB, 0xE0, 1, 2, 3]
    (holding [0x16, 0, 7, 0xFB, 0xE0, 1, 2, 3]).ctx? = some c ∧ (holding [1, 2, 3]).ctx? = some (filled [1, 2, 3]) ∧
    (filled [1, 2, 3]).bufLen < 4 ∧ c.bufLen < (9 : Half).toNat ∧ ¬(c.bufLen < (8 : Half).toNat ∨ c.bufLen < 4) ∧
    c.csum 8 false = (c.buf.read 2).toNat * 256 + (c.buf.read 3).toNat ∧
    c.csum 7 false ≠ (c.buf.read 2).toNat * 256 + (c.buf.read 3).toNat := by decide

theorem witness_CsumWrite :
    let c := filled [1, 2, 3, 4]
    (holding [1, 2, 3, 4]).ctx? = some c ∧ c.buf.wf = true ∧ c.bufLen < (5 : Half).toNat ∧
    (filled [1, 2, 3]).bufLen < 4 ∧ ¬(c.bufLen < (4 : Half).toNat ∨ c.bufLen < 4) := by decide

theorem witness_VerifyAfterWrite :
    let c := filled [1, 2, 3, 4]
    (holding [1, 2, 3, 4]).ctx? = some c ∧ c.buf.wf = true ∧ (1 : Byte).toNat ≤ 1 ∧ 4 ≤ c.bufLen ∧
    (4 : Half).toNat ≤ c.bufLen := by decide

/-- The last byte of a verified span, changed. -/
theorem witness_SingleByteCorruptionDetected :
    let s := holding [0x16, 0, 7, 0xFB, 0xE0, 1, 2, 3]
    let c := filled [0x16, 0, 7, 0xFB, 0xE0, 1, 2, 3]
    s.ctx? = some c ∧ c.buf.wf = true ∧ 4 ≤ (8 : Half).toNat ∧ (8 : Half).toNat ≤ c.bufLen ∧
    (7 : Half).toNat < (8 : Half).toNat ∧ result (exec (.csumVerify 8 0) s) = some (s.emit [0x00, 1]) ∧
    (2 : Word).setWidth 8 ≠ c.buf.read 7 := by decide

/-- Two contexts with other checksum fields, other bytes past the span, and their addresses exchanged. -/
theorem witness_ChecksumInputs :
    let c : Context := { filled [1, 2, 3, 4, 5] with src := fe80, dst := ff02 }
    let c' : Context := { filled [1, 2, 0xFF, 0xFF, 5, 9] with src := ff02, dst := fe80 }
    (∀ k, k < 5 → k ≠ 2 → k ≠ 3 → c.buf.read k = c'.buf.read k) ∧ c.src.length = 16 ∧ c.dst.length = 16 ∧
    c'.src.length = 16 ∧ c'.dst.length = 16 ∧ addrSum c.src + addrSum c.dst = addrSum c'.src + addrSum c'.dst := by
  decide

theorem witness_TimeCodeDecode : start.ctx? = some Context.reset ∧ (127 : Byte).toNat < 128 ∧
    ¬(128 : Byte).toNat < 128 ∧ (32767 : Half).toNat < 32768 ∧ ¬(32768 : Half).toNat < 32768 := by decide

theorem witness_TimeCodeEncode : start.ctx? = some Context.reset ∧ 31744 < (31745 : Word).toNat ∧
    8387584 < (8387585 : Word).toNat := by decide

theorem witness_TimeCodeLaws :
    (127 < 2 ^ (4 + 3) ∧ 255 < 2 ^ (4 + 4) ∧ 2 ^ (4 + 3) ≤ 128 ∧ 31744 ≤ (2 ^ (4 + 1) - 1) * 2 ^ 10) ∧
    (32767 < 2 ^ (12 + 3) ∧ 65535 < 2 ^ (12 + 4) ∧ 2 ^ (12 + 3) ≤ 32768 ∧ 8387584 ≤ (2 ^ (12 + 1) - 1) * 2 ^ 10) := by
  decide

/-- An illegal family, the record types on both sides of 1 to 6, both families. -/
theorem witness_RecordNew :
    start.ctx? = some Context.reset ∧ 1 < (2 : Byte).toNat ∧ ¬1 < (1 : Byte).toNat ∧
    ((0 : Byte).toNat < 1 ∨ 6 < (0 : Byte).toNat) ∧ ((7 : Byte).toNat < 1 ∨ 6 < (7 : Byte).toNat) ∧
    ¬((6 : Byte).toNat < 1 ∨ 6 < (6 : Byte).toNat) ∧ ¬((1 : Byte).toNat < 1 ∨ 6 < (1 : Byte).toNat) := by decide

theorem witness_RecordReads :
    let c := withRec rec3
    (inCtx0 c).ctx? = some c ∧ c.grValid = true ∧ c.gr.srcs[(2 : Half).toNat]? = some [10, 0, 0, 3] ∧
    c.gr.srcs.length ≤ (3 : Half).toNat := by decide

/-- A record that already declares as many sources as a u16 can. -/
def fullRec : Record := { rec3 with srcs := List.replicate 65535 [10, 0, 0, 1] }

theorem witness_RecordWrites :
    (inCtx0 (withRec rec3)).ctx? = some (withRec rec3) ∧ (withRec rec3).grValid = true ∧
    [(1 : Byte), 2, 3, 4].length = rec3.fam.aw ∧ [(1 : Byte), 2, 3].length ≠ rec3.fam.aw ∧ rec3.srcs.length < 65535 ∧
    fullRec.srcs.length = 65535 ∧ (inCtx0 (withRec fullRec)).ctx? = some (withRec fullRec) ∧
    (List.replicate 1020 (0 : Byte)).length ≤ 1020 ∧ 1020 < (List.replicate 1021 (0 : Byte)).length := by
  refine ⟨by decide, rfl, by decide, by decide, by decide, List.length_replicate, rfl, ?_, ?_⟩
  · rw [List.length_replicate]
  · rw [List.length_replicate]; decide

/-- A record that ends with the buffer; a header, then a tail, one byte past it; a record of an illegal type. -/
theorem witness_RecordDecode :
    let c := filled (9 :: rec3Bytes)
    (holding (9 :: rec3Bytes)).ctx? = some c ∧ 1 < (2 : Byte).toNat ∧
    c.bufLen = (1 : Half).toNat + recordSize c.buf .igmp (1 : Half).toNat ∧
    c.bufLen < (18 : Half).toNat + 4 + Family.igmp.aw ∧
    (filled rec3Bytes.dropLast).bufLen < 0 + recordSize (filled rec3Bytes.dropLast).buf .igmp 0 ∧
    6 < ((filled (7 :: rec3Bytes.tail)).buf.read 0).toNat ∧
    ¬((c.buf.read 1).toNat < 1 ∨ 6 < (c.buf.read 1).toNat) := by decide

theorem witness_RecordEncode :
    let c : Context := { filled (zeros 25) with gr := rec3, grValid := true }
    (inCtx0 c).ctx? = some c ∧ c.buf.wf = true ∧ c.grValid = true ∧ c.gr.Legal ∧
    (1 : Half).toNat + c.gr.len ≤ c.bufLen ∧ c.bufLen < (2 : Half).toNat + c.gr.len := by decide

theorem witness_RecordPeek :
    let c := filled [1, 2, 0, 3]
    (holding [1, 2, 0, 3]).ctx? = some c ∧ 1 < (2 : Byte).toNat ∧ c.bufLen < (1 : Half).toNat + 4 ∧
    ¬c.bufLen < (0 : Half).toNat + 4 := by decide

theorem witness_RecordRoundTrip :
    let c : Context := { filled (zeros 25) with gr := rec3, grValid := true }
    (inCtx0 c).ctx? = some c ∧ c.buf.wf = true ∧ c.grValid = true ∧ c.gr.Legal ∧
    (1 : Half).toNat + c.gr.len ≤ c.bufLen := by decide

theorem witness_NoRecord :
    start.ctx? = some Context.reset ∧ Context.reset.grValid = false ∧
    (withMsg (Message.new .mldv2Report)).grValid = false ∧ (withMsg (Message.new .mldv2Report)).msgValid = true ∧
    (withMsg (Message.new .mldv2Report)).msg.variant ∈ reports := by decide

theorem witness_MessageNewAndVariant :
    start.ctx? = some Context.reset ∧ 9 < (10 : Byte).toNat ∧ (9 : Byte).toNat = 9 ∧ (0 : Byte).toNat = 0 ∧
    (withMsg (Message.new .mldv2Report)).msgValid = true ∧
    (withMsg (Message.new .mldv2Report)).msg.variant = .mldv2Report := by decide

theorem witness_MessageGroup :
    let c := withMsg query
    (inCtx0 c).ctx? = some c ∧ c.msgValid = true ∧ c.msg.variant ∉ reports ∧
    [(1 : Byte), 2, 3, 4].length = (if c.msg.variant.fam = .igmp then 4 else 16) ∧
    [(1 : Byte), 2, 3].length ≠ (if c.msg.variant.fam = .igmp then 4 else 16) := by decide

theorem witness_MaxResponse :
    let c := withMsg query
    let c' := withMsg (Message.new .mldv1Query)
    (inCtx0 c).ctx? = some c ∧ c.msgValid = true ∧ c.msg.variant ∈ queries ∧
    (inCtx0 c').ctx? = some c' ∧ c'.msgValid = true ∧ c'.msg.variant ∈ queries := by decide

theorem witness_QueryTuning :
    let c := withMsg query
    (inCtx0 c).ctx? = some c ∧ c.msgValid = true ∧ c.msg.variant ∈ extQueries := by decide

/-- A query that already declares as many sources as a u16 can. -/
def fullQuery : Message := { query with srcs := List.replicate 65535 [10, 0, 0, 1] }

theorem witness_MessageSources :
    (inCtx0 (withMsg { query with srcs := [[10, 0, 0, 1]] })).ctx? = some (withMsg { query with srcs := [[10, 0, 0, 1]] }) ∧
    (withMsg query).msgValid = true ∧ query.variant ∈ extQueries ∧
    ({ query with srcs := [[10, 0, 0, 1]] } : Message).srcs[(0 : Half).toNat]? = some [10, 0, 0, 1] ∧
    ({ query with srcs := [[10, 0, 0, 1]] } : Message).srcs.length ≤ (1 : Half).toNat ∧
    [(1 : Byte), 2, 3, 4].length = query.variant.fam.aw ∧ [(1 : Byte), 2, 3].length ≠ query.variant.fam.aw ∧
    query.srcs.length < 65535 ∧ fullQuery.srcs.length = 65535 ∧
    (inCtx0 (withMsg fullQuery)).ctx? = some (withMsg fullQuery) :=
  ⟨by decide, rfl, by decide, by decide, by decide, by decide, by decide, by decide, List.length_replicate, rfl⟩

/-- A report that holds `recs`, with `rec3` in the record register. -/
def reporting (recs : List Record) : Context :=
  { withMsg { Message.new .igmpv3Report with recs := recs } with gr := rec3, grValid := true }

theorem witness_MessageRecords :
    (inCtx0 (reporting [rec3])).ctx? = some (reporting [rec3]) ∧ (reporting [rec3]).msgValid = true ∧
    (reporting [rec3]).msg.variant ∈ reports ∧ (reporting [rec3]).msg.recs[(0 : Half).toNat]? = some rec3 ∧
    (reporting [rec3]).msg.recs.length ≤ (1 : Half).toNat ∧ (reporting [rec3]).grValid = true ∧
    (reporting [rec3]).gr.fam = (reporting [rec3]).msg.variant.fam ∧ recMld.fam ≠ (reporting [rec3]).msg.variant.fam ∧
    (reporting [rec3]).msg.recs.length < 65535 ∧ (reporting (List.replicate 65535 rec3)).msg.recs.length = 65535 :=
  ⟨by decide, rfl, by decide, by decide, by decide, rfl, by decide, by decide, by decide, List.length_replicate⟩

/-- The longest MLD record (R224: 1049600 bytes), and a report of 4093 of them, which is longer than a u32 can say. -/
def longRec : Record := { recMld with srcs := List.replicate 65535 ff02, aux := List.replicate 1020 0 }

def longReport : Message := { Message.new .mldv2Report with recs := List.replicate 4093 longRec }

theorem longRec_len : longRec.len = 1049600 := by
  simp only [Record.len, longRec, recMld, Record.auxLen, recLen, Family.aw, List.length_replicate]

theorem longReport_len : longReport.len = 8 + 4093 * 1049600 := by
  simp only [Message.len, longReport, Message.new, List.map_replicate, List.sum_replicate, longRec_len, smul_eq_mul]

/-- A report whose length is answered as it is, and one whose length is beyond a u32. -/
theorem witness_MessageLength :
    (inCtx0 (reporting [rec3])).ctx? = some (reporting [rec3]) ∧ (reporting [rec3]).msgValid = true ∧
    (reporting [rec3]).msg.len < 2 ^ 32 ∧ (inCtx0 (withMsg longReport)).ctx? = some (withMsg longReport) ∧
    (withMsg longReport).msgValid = true ∧ ¬longReport.len < 2 ^ 32 :=
  ⟨by decide, rfl, by decide, rfl, rfl, by rw [longReport_len]; decide⟩

theorem witness_WireLayout :
    query.Legal ∧ ∀ k, k < query.len → (Memory.ofBytes 0 query.wire).read k = query.wire.getD k 0 := by decide

def fourSources : Message := { query with srcs := List.replicate 4 [10, 0, 0, 1] }

def fiveSources : Message := { query with srcs := List.replicate 5 [10, 0, 0, 1] }

/-- A message that just fits the number of bytes the host accepts, and the buffer; one that fits neither. -/
theorem witness_MessageEncode :
    (inCtx0 (withMsg fourSources)).ctx? = some (withMsg fourSources) ∧ (withMsg fourSources).msgValid = true ∧
    fourSources.Legal ∧ fourSources.len ≤ (28 : Half).toNat ∧ fourSources.len ≤ start.bufCap ∧
    (27 : Half).toNat < fourSources.len ∧ (inCtx0 (withMsg fiveSources)).ctx? = some (withMsg fiveSources) ∧
    fiveSources.Legal ∧ start.bufCap < fiveSources.len :=
  ⟨by decide, by decide, by decide, by decide, by decide, by decide, by decide, by decide, by decide⟩

theorem witness_MessageGuards :
    start.ctx? = some Context.reset ∧ Context.reset.msgValid = false ∧ (withMsg query).msgValid = true ∧
    (reporting []).msg.variant ∈ reports ∧ (Message.new .mldv1Done).variant ∉ queries ∧
    (Message.new .mldv1Query).variant ∉ extQueries ∧ query.variant ∉ reports := by decide

theorem witness_MessageRoundTrip :
    let s := built (inCtx0 (withMsg query))
    s.ctx? = some (withMsg query) ∧ (withMsg query).msgValid = true ∧ query.Legal ∧ query.len ≤ s.bufCap ∧
    s.bufCap ≤ 65535 ∧ ∀ e ∈ canonicalEntries, e.2.1 = query.variant.fam → s.regRead e.2.1 e.2.2 = e.1 := by decide

/-- An illegal family and decoder; another decoder's tag; a sealed registry; a removal and a registration. -/
theorem witness_RegistryRegister :
    start.ctx? = some Context.reset ∧ start.regIgmp.wf = true ∧ start.regMld.wf = true ∧
    Family.igmp = (if (0 : Byte) = 0 then .igmp else .mld) ∧ 1 < (2 : Byte).toNat ∧ 8 < (9 : Byte).toNat ∧
    ((2 : Byte), Family.igmp, (0x17 : Byte)) ∉ canonicalEntries ∧
    ((8 : Byte), Family.mld, (0x8F : Byte)) ∈ canonicalEntries ∧
    ({ start with isSealed := true } : State).isSealed = true ∧ start.isSealed ≠ true := by decide

theorem witness_RegistryLookupBuildSeal :
    start.ctx? = some Context.reset ∧ start.regIgmp.wf = true ∧ start.regMld.wf = true ∧ 1 < (2 : Byte).toNat ∧
    ({ start with isSealed := true } : State).isSealed = true ∧ start.isSealed = false := by decide

/-- Each clause at the edge of its lengths. -/
theorem witness_ParseDispatchErrors :
    let s := fun (tag : Byte) (n : Nat) => built (holding (tag :: zeros n))
    let c := fun (tag : Byte) (n : Nat) => filled (tag :: zeros n)
    (s 0x11 10).ctx? = some (c 0x11 10) ∧ 1 < (2 : Byte).toNat ∧ Context.reset.bufLen = 0 ∧
    (s 0x12 0).regRead .igmp ((c 0x12 0).buf.read 0) = 0 ∧ 0 < (c 0x12 0).bufLen ∧
    (s 0x11 10).regRead .igmp ((c 0x11 10).buf.read 0) = 1 ∧ (c 0x11 10).bufLen ≠ 8 ∧ (c 0x11 10).bufLen < 12 ∧
    (s 0x82 26).regRead .mld ((c 0x82 26).buf.read 0) = 5 ∧ (c 0x82 26).bufLen ≠ 24 ∧ (c 0x82 26).bufLen < 28 ∧
    (s 0x8F 6).regRead .mld ((c 0x8F 6).buf.read 0) = 8 ∧ (c 0x8F 6).bufLen < 8 ∧
    (s 0x84 22).regRead .mld ((c 0x84 22).buf.read 0) = 7 ∧ (c 0x84 22).bufLen < 24 := by decide

/-- A report whose one record has the given type byte, and the high byte of its checksum: 0xEC for
type 1, 0xED for type 0 (R170). -/
def oneRecord (rtype hi : Byte) : List Byte := [0x22, 0, hi, 0xFB, 0, 0, 0, 1, rtype, 0, 0, 0, 0xEF, 1, 1, 1]

/-- A span past the buffer, a wrong checksum, an illegal record type, and a message that parses. -/
theorem witness_ParseMessage :
    let s := fun bytes => built (holding bytes)
    let short := filled ((oneRecord 1 0xEC).dropLast)
    let bad := filled (oneRecord 1 0)
    let illegal := filled (oneRecord 0 0xED)
    let c := filled queryBytes
    (s queryBytes).ctx? = some c ∧ ((1 : Byte), Variant.igmpv3Query) ∈
      ([(1, .igmpv2Query), (1, .igmpv3Query)] : List (Byte × Variant)) ∧
    (s queryBytes).regRead .igmp (c.buf.read 0) = 1 ∧ Variant.igmpv3Query.fixedLen ≤ c.bufLen ∧
    (filled [0x11, 0x64, 0xEE, 0x9B, 0, 0, 0, 0]).bufLen = 8 ∧ (filled mldReport).bufLen = 24 ∧
    c.bufLen = declaredSpan .igmpv3Query c.buf ∧ c.csum (declaredSpan .igmpv3Query c.buf) false = c.buf.u16 2 ∧
    (s (oneRecord 1 0)).regRead .igmp (bad.buf.read 0) = 4 ∧ Variant.igmpv3Report.fixedLen ≤ bad.bufLen ∧
    short.bufLen < declaredSpan .igmpv3Report short.buf ∧
    ¬bad.bufLen < declaredSpan .igmpv3Report bad.buf ∧
    bad.csum (declaredSpan .igmpv3Report bad.buf) false ≠ bad.buf.u16 2 ∧
    ¬illegal.bufLen < declaredSpan .igmpv3Report illegal.buf ∧
    illegal.csum (declaredSpan .igmpv3Report illegal.buf) false = illegal.buf.u16 2 ∧
    (∃ i < illegal.buf.u16 6, rtypeLegal (illegal.buf.read (recordOffset illegal.buf .igmp i)) = false) := by decide

/-- A parse that succeeds, and one that fails. -/
theorem witness_ParseRepeats :
    (∃ t, exec (.parse 0) (built (holding queryBytes)) = .next t ∧ t.responses = [] ++ [[0x00, 1]]) ∧
    (∃ t, exec (.parse 1) (built (holding queryBytes)) = .next t ∧ t.responses = [] ++ [[0x02]]) ∧
    (built (holding queryBytes)).ctx? ≠ none :=
  ⟨⟨_, rfl, by decide⟩, ⟨_, rfl, by decide⟩, by decide⟩

end Sys2Proof.Tests
end

section
/-! PROOFS. What one command can do to the registers of its own context (R37), said once for all 69 commands: an
inductive list of effects, and the theorem that every command has one of them. -/

namespace Sys2Proof.Machine

/-! The effects. -/

/-- The commands that R34 names as setting MSG_VALID. -/
abbrev LoadsMessage (i : Instr) : Prop := (∃ v, i = .msgNew v) ∨ ∃ fam, i = .parse fam

/-- The commands that R34 names as setting GR_VALID. -/
abbrev LoadsRecord (i : Instr) : Prop :=
  (∃ fam ty, i = .grNew fam ty) ∨ (∃ off fam, i = .grDecode off fam) ∨ ∃ k, i = .msgGetRec k

/-- What the command `i` may leave in its own context, which held `c`, when the capacity is `cap` (R37). -/
inductive CtxEffect (cap : Nat) (i : Instr) (c : Context) : Context → Prop
  | kept : CtxEffect cap i c c
  | bufReplaced {data : List Byte} (fits : data.length ≤ cap) : CtxEffect cap i c (c.bufReplace data)
  | bufResized {n : Nat} (fits : n ≤ cap) : CtxEffect cap i c (c.bufSetLen n)
  | bufStored {off : Nat} {bytes : List Byte} (inside : off + bytes.length ≤ c.bufLen) :
      CtxEffect cap i c { c with buf := c.buf.writeBytes off bytes }
  | srcSet {addr : List Byte} (wide : addr.length = 16) : CtxEffect cap i c { c with src := addr }
  | dstSet {addr : List Byte} (wide : addr.length = 16) : CtxEffect cap i c { c with dst := addr }
  | recLoaded {g : Record} (loads : LoadsRecord i) (legal : c.Legal cap → g.Legal) : CtxEffect cap i c (c.loadRec g)
  | recEdited {g : Record} (held : c.grValid = true) (legal : c.gr.Legal → g.Legal) :
      CtxEffect cap i c { c with gr := g }
  | msgLoaded {m : Message} (loads : LoadsMessage i) (legal : m.Legal) : CtxEffect cap i c (c.loadMsg m)
  | msgEdited {m : Message} (held : c.msgValid = true) (legal : c.Legal cap → m.Legal) :
      CtxEffect cap i c { c with msg := m }
  | msgEncoded (held : c.msgValid = true) (fits : c.msg.len ≤ cap) : CtxEffect cap i c (c.encodeMsg c.msg)

/-! What a result leaves in the context. -/

/-- The context that a command's result commits, if it commits one, satisfies `P`. -/
def Leaves (P : Context → Prop) : CmdResult → Prop
  | .error _ => True
  | .ok (c, _) => P c

section
variable {P : Context → Prop} {c : Context}

@[simp] theorem leaves_error (e : ErrorStatus) : Leaves P (.error e) := trivial

@[simp] theorem leaves_ok (p : List Byte) : Leaves P (.ok (c, p)) ↔ P c := Iff.rfl

@[simp] theorem leaves_guard {b : Prop} [Decidable b] (e : ErrorStatus) (r : CmdResult) :
    Leaves P (if b then .error e else r) ↔ (¬b → Leaves P r) := by
  by_cases hb : b <;> simp [hb]

@[simp] theorem leaves_withMsg (present : Variant → Bool) (run : Message → CmdResult) :
    Leaves P (c.withMsg present run) ↔
      (c.msgValid = true → present c.msg.variant = true → Leaves P (run c.msg)) := by
  simp [Context.withMsg]

@[simp] theorem leaves_withRec (run : Record → CmdResult) :
    Leaves P (c.withRec run) ↔ (c.grValid = true → Leaves P (run c.gr)) := by
  simp [Context.withRec]

theorem leaves_getField (off n : Nat) (h : P c) : Leaves P (c.getField off n) := by
  by_cases hle : off + n ≤ c.bufLen
  · simpa [Context.getField_ok hle] using h
  · simp [Context.getField_short (Nat.lt_of_not_le hle)]

@[simp] theorem leaves_setField (off : Nat) (bs : List Byte) :
    Leaves P (c.setField off bs) ↔
      (off + bs.length ≤ c.bufLen → P { c with buf := c.buf.writeBytes off bs }) := by
  by_cases hle : off + bs.length ≤ c.bufLen
  · simp [Context.setField_ok hle, hle]
  · simp [Context.setField_short (Nat.lt_of_not_le hle), hle]

end

/-- Whatever the state, the command leaves one of the effects in the context it runs in. -/
def HasEffect (i : Instr) : Prop :=
  ∀ (s t : State) (c : Context), exec i s = .next t → s.ctx? = some c →
    ∃ c', t.ctx? = some c' ∧ CtxEffect s.bufCap i c c'

/-- A command confined to its context leaves there what its rule leaves; on an error, what was there. -/
theorem HasEffect.of_rule {i : Instr} {rule : State → Context → CmdResult} (hi : ∀ s, exec i s = s.runCtx (rule s))
    (hl : ∀ s c, Leaves (CtxEffect s.bufCap i c) (rule s c)) : HasEffect i := by
  intro s t c h hc
  rw [hi] at h
  rcases State.runCtx_cases h with ⟨hn, -⟩ | ⟨_, e, -, -, rfl⟩ | ⟨c₀, c', p, hc₀, hr, rfl⟩
  · simp [hc] at hn
  · exact ⟨c, hc, .kept⟩
  · obtain rfl : c₀ = c := Option.some.inj (hc₀.symm.trans hc)
    have hleft := hl s c₀
    rw [hr] at hleft
    exact ⟨c', State.ctx?_setCtx hc, hleft⟩

/-! Legal values that the commands load. -/

theorem Record.new_legal (f : Family) {rtype : Byte} (h : rtypeLegal rtype = true) : (Record.new f rtype).Legal :=
  ⟨h, by simp [Record.new, zeros], by simp [Record.new, addrsLegal], rfl, by simp [Record.new]⟩

theorem decodeRecord_legal {b : Memory} {off lim n : Nat} {fam : Family} {g : Record}
    (h : decodeRecord b off fam lim = .ok (g, n)) : g.Legal := by
  rcases decodeRecord_cases b off fam lim with ⟨-, he⟩ | ⟨-, -, he⟩ | ⟨-, -, g', -, hleg, he⟩ <;> rw [he] at h <;> cases h
  exact hleg

/-- Padded auxiliary data is whole words, and no more of them than the limit allows (R223). -/
theorem padAux_legal {data : List Byte} (h : data.length ≤ maxAux) :
    (padAux data).length % 4 = 0 ∧ (padAux data).length ≤ maxAux := by
  simp only [padAux, zeros, maxAux, List.length_append, List.length_replicate] at h ⊢
  omega

theorem Message.new_legal (v : Variant) : (Message.new v).Legal := by
  refine ⟨?_, fun _ => rfl, fun _ => ?_, fun _ => rfl, ⟨?_, ?_⟩, fun _ => ⟨rfl, rfl, rfl, rfl⟩, ?_, ?_, fun _ => rfl⟩ <;>
    simp [Message.new, zeros]

/-- The variant that dispatch selects has its fixed part within the buffer (R297). -/
theorem selectVariant_fixedLen_le {dec : Byte} {n : Nat} {v : Variant} (h : selectVariant dec n = .ok v) :
    v.fixedLen ≤ n := by
  unfold selectVariant at h
  split_ifs at h
  · cases h; simp only [Variant.fixedLen]; omega
  · cases h; simp only [Variant.fixedLen]; omega
  · cases h; simp only [Variant.fixedLen]; omega
  · cases h; simp only [Variant.fixedLen]; omega
  · split at h
    · cases h
    · split_ifs at h with hlt
      cases h
      exact Nat.le_of_not_lt hlt

/-- A message that `PARSE` accepts is legal, whatever the buffer holds (R296 to R300). -/
theorem parseMsg_legal {reg : Memory} {f : Family} {c : Context} {m : Message} (h : parseMsg reg f c = .ok m) :
    m.Legal := by
  simp only [parseMsg] at h
  split_ifs at h
  split at h
  · cases h
  next v hsel =>
    rw [peekSpan_eq (selectVariant_fixedLen_le hsel)] at h
    split_ifs at h
    simp only at h
    split_ifs at h
    rcases extract_cases v c.buf with ⟨-, -, he⟩ | ⟨-, m', he, -, -, hleg⟩ <;> rw [he] at h <;> cases h
    exact hleg

/-! Legal values that the commands edit. -/

section
variable {m : Message}

theorem Message.legal_withGroup (h : m.Legal) (hp : m.variant.hasGroup = true) {addr : List Byte}
    (ha : addr.length = m.variant.fam.aw) : ({ m with group := addr } : Message).Legal := by
  obtain ⟨-, -, hrest⟩ := h
  exact ⟨ha, fun hn => by simp [hp] at hn, hrest⟩

theorem Message.legal_withMrc (h : m.Legal) (hp : m.variant.isQuery = true) {code : BitVec 16}
    (hc : m.variant.fam = .igmp → code.toNat < 2 ^ 8) : ({ m with mrc := code } : Message).Legal := by
  obtain ⟨hg, hg0, -, -, hrest⟩ := h
  exact ⟨hg, hg0, hc, fun hn => by simp [hp] at hn, hrest⟩

theorem Message.legal_withQueryFields (h : m.Legal) (hp : m.variant.isExtQuery = true) (s : BitVec 1) (qrv : BitVec 3)
    (qqic : BitVec 8) : ({ m with sFlag := s, qrv := qrv, qqic := qqic } : Message).Legal := by
  obtain ⟨hg, hg0, hm, hm0, hs, -, hrest⟩ := h
  exact ⟨hg, hg0, hm, hm0, hs, fun hn => by simp [hp] at hn, hrest⟩

theorem Message.legal_withSrcs (h : m.Legal) (hp : m.variant.isExtQuery = true) {l : List (List Byte)}
    (hl : addrsLegal m.variant.fam.aw l) : ({ m with srcs := l } : Message).Legal := by
  obtain ⟨hg, hg0, hm, hm0, -, -, hrest⟩ := h
  exact ⟨hg, hg0, hm, hm0, hl, fun hn => by simp [hp] at hn, hrest⟩

theorem Message.legal_withRecs (h : m.Legal) (hp : m.variant.isReport3 = true) {l : List Record}
    (hn : l.length ≤ maxCount) (hl : ∀ g ∈ l, g.Legal ∧ g.fam = m.variant.fam) :
    ({ m with recs := l } : Message).Legal := by
  obtain ⟨hg, hg0, hm, hm0, hs, hs0, -⟩ := h
  exact ⟨hg, hg0, hm, hm0, hs, hs0, hn, hl, fun hn => by simp [hp] at hn⟩

end

/-- One more address of the right width keeps a list legal while its count is below the limit. -/
theorem addrsLegal_append {aw : Nat} {l : List (List Byte)} {addr : List Byte} (h : addrsLegal aw l)
    (hn : l.length < maxCount) (ha : addr.length = aw) : addrsLegal aw (l ++ [addr]) := by
  refine ⟨by simpa using hn, fun a hmem => ?_⟩
  rcases List.mem_append.mp hmem with hold | hnew
  · exact h.2 a hold
  · rw [List.mem_singleton.mp hnew, ha]

theorem addrsLegal_nil (aw : Nat) : addrsLegal aw [] := by simp [addrsLegal]

/-- The code of a set fits the 8 bits IGMP has for it (R248). -/
theorem truncMrc_lt (v : Nat) {f : Family} (h : f = .igmp) : (truncMrc f v).toNat < 2 ^ 8 := by
  subst h
  simp only [truncMrc, BitVec.toNat_ofNat]; omega

/-- The code of a time fits the 8 bits IGMP has for it (R250). -/
theorem mrcOfTime_lt (ms : Nat) {f : Family} (h : f = .igmp) : (BitVec.ofNat 16 (mrcOfTime f ms)).toNat < 2 ^ 8 := by
  subst h
  have := tcEncode_lt 4 (ms / 100)
  simp only [mrcOfTime, BitVec.toNat_ofNat]; omega

/-! Every command has one of the effects. -/

section
variable {cap : Nat} {i : Instr} {c : Context}

/-- A command that answers from the message register leaves its context as it was. -/
theorem leaves_readMsg (present : Variant → Bool) (answer : Message → List Byte) :
    Leaves (CtxEffect cap i c) (c.withMsg present fun m => .ok (c, answer m)) :=
  (leaves_withMsg _ _).mpr fun _ _ => .kept

/-- A command that answers from the record register leaves its context as it was. -/
theorem leaves_readRec (answer : Record → List Byte) :
    Leaves (CtxEffect cap i c) (c.withRec fun g => .ok (c, answer g)) :=
  (leaves_withRec _).mpr fun _ => .kept

/-- A command that stores a field changes its bytes alone. -/
theorem leaves_storeField (off : Nat) (bytes : List Byte) : Leaves (CtxEffect cap i c) (c.setField off bytes) :=
  (leaves_setField _ _).mpr .bufStored

/-- A command that edits the message register needs a message, and keeps it legal. -/
theorem leaves_editMsg (present : Variant → Bool) (edit : Message → Message)
    (hm : ∀ m : Message, present m.variant = true → m.Legal → (edit m).Legal) :
    Leaves (CtxEffect cap i c) (c.withMsg present fun m => .ok ({ c with msg := edit m }, [])) :=
  (leaves_withMsg _ _).mpr fun hv hp => .msgEdited hv fun ⟨_, _, _, hmsg, _⟩ => hm c.msg hp (hmsg hv)

end

/-! The field codec and the checksum engine. -/

theorem fldGetBits_hasEffect (off : Half) (sh w : Byte) : HasEffect (.fldGetBits off sh w) :=
  .of_rule (fun _ => rfl) fun _ _ => (leaves_guard _ _).mpr fun _ => by
    split
    · exact leaves_error _
    · exact .kept

theorem fldGetBytes_hasEffect (off n : Half) : HasEffect (.fldGetBytes off n) :=
  .of_rule (fun _ => rfl) fun _ _ => by
    split
    · exact leaves_error _
    · exact .kept

theorem csumCompute_hasEffect (len : Half) (p : Byte) : HasEffect (.csumCompute len p) :=
  .of_rule (fun _ => rfl) fun _ _ => by
    split
    · exact leaves_error _
    · exact (leaves_guard _ _).mpr fun _ => .kept

theorem csumVerify_hasEffect (len : Half) (p : Byte) : HasEffect (.csumVerify len p) :=
  .of_rule (fun _ => rfl) fun _ _ => by
    split
    · exact leaves_error _
    · exact (leaves_guard _ _).mpr fun _ => .kept

theorem csumWrite_hasEffect (len : Half) (p : Byte) : HasEffect (.csumWrite len p) :=
  .of_rule (fun _ => rfl) fun _ _ => by
    split
    · exact leaves_error _
    · exact (leaves_guard _ _).mpr fun hn => .bufStored (by simp only [bytes16_length]; omega)

/-! The group record codec. -/

theorem grNew_hasEffect (fam rtype : Byte) : HasEffect (.grNew fam rtype) :=
  .of_rule (fun _ => rfl) fun _ _ => by
    split
    · exact leaves_error _
    next f _ =>
      exact (leaves_guard _ _).mpr fun ht =>
        .recLoaded (.inl ⟨_, _, rfl⟩) fun _ => Record.new_legal f (Bool.eq_true_of_not_eq_false ht)

theorem grGetSrc_hasEffect (k : Half) : HasEffect (.grGetSrc k) :=
  .of_rule (fun _ => rfl) fun _ _ => (leaves_withRec _).mpr fun _ => by
    split
    · exact leaves_error _
    · exact .kept

theorem grSetType_hasEffect (rtype : Byte) : HasEffect (.grSetType rtype) :=
  .of_rule (fun _ => rfl) fun _ _ => (leaves_withRec _).mpr fun hv => (leaves_guard _ _).mpr fun ht =>
    .recEdited hv fun ⟨_, hrest⟩ => ⟨Bool.eq_true_of_not_eq_false ht, hrest⟩

theorem grSetGroup_hasEffect (addr : List Byte) : HasEffect (.grSetGroup addr) :=
  .of_rule (fun _ => rfl) fun _ _ => (leaves_withRec _).mpr fun hv => (leaves_guard _ _).mpr fun ha =>
    .recEdited hv fun ⟨ht, _, hrest⟩ => ⟨ht, not_not.mp ha, hrest⟩

theorem grAddSrc_hasEffect (addr : List Byte) : HasEffect (.grAddSrc addr) :=
  .of_rule (fun _ => rfl) fun _ _ => (leaves_withRec _).mpr fun hv => (leaves_guard _ _).mpr fun ha =>
    (leaves_guard _ _).mpr fun hn => .recEdited hv fun ⟨ht, hg, hs, haux⟩ =>
      ⟨ht, hg, addrsLegal_append hs (Nat.lt_of_not_le hn) (not_not.mp ha), haux⟩

theorem grClearSrc_hasEffect : HasEffect .grClearSrc :=
  .of_rule (fun _ => rfl) fun _ _ => (leaves_withRec _).mpr fun hv =>
    .recEdited hv fun ⟨ht, hg, _, haux⟩ => ⟨ht, hg, addrsLegal_nil _, haux⟩

theorem grSetAux_hasEffect (data : List Byte) : HasEffect (.grSetAux data) :=
  .of_rule (fun _ => rfl) fun _ _ => (leaves_withRec _).mpr fun hv => (leaves_guard _ _).mpr fun hn =>
    .recEdited hv fun ⟨ht, hg, hs, _⟩ => ⟨ht, hg, hs, padAux_legal (Nat.le_of_not_lt hn)⟩

theorem grDecode_hasEffect (off : Half) (fam : Byte) : HasEffect (.grDecode off fam) :=
  .of_rule (fun _ => rfl) fun _ _ => by
    split
    · exact leaves_error _
    · split
      · exact leaves_error _
      next hd => exact .recLoaded (.inr (.inl ⟨_, _, rfl⟩)) fun _ => decodeRecord_legal hd

theorem grEncode_hasEffect (off : Half) : HasEffect (.grEncode off) :=
  .of_rule (fun _ => rfl) fun _ _ => (leaves_withRec _).mpr fun _ => by
    split
    · exact leaves_error _
    next hw =>
      obtain ⟨hle, rfl⟩ := Context.bufWrite_cases hw
      exact .bufStored hle

theorem grPeekLength_hasEffect (off : Half) (fam : Byte) : HasEffect (.grPeekLength off fam) :=
  .of_rule (fun _ => rfl) fun _ _ => by
    split
    · exact leaves_error _
    · split
      · exact leaves_error _
      · exact .kept

/-! The message register. -/

theorem msgNew_hasEffect (v : Byte) : HasEffect (.msgNew v) :=
  .of_rule (fun _ => rfl) fun _ _ => by
    split
    · exact leaves_error _
    · exact .msgLoaded (.inl ⟨_, rfl⟩) (Message.new_legal _)

theorem msgSetGroup_hasEffect (addr : List Byte) : HasEffect (.msgSetGroup addr) :=
  .of_rule (fun _ => rfl) fun _ _ => (leaves_withMsg _ _).mpr fun hv hp => (leaves_guard _ _).mpr fun ha =>
    .msgEdited hv fun ⟨_, _, _, hm, _⟩ => Message.legal_withGroup (hm hv) hp (not_not.mp ha)

theorem msgGetSrc_hasEffect (k : Half) : HasEffect (.msgGetSrc k) :=
  .of_rule (fun _ => rfl) fun _ _ => (leaves_withMsg _ _).mpr fun _ _ => by
    split
    · exact leaves_error _
    · exact .kept

theorem msgAddSrc_hasEffect (addr : List Byte) : HasEffect (.msgAddSrc addr) :=
  .of_rule (fun _ => rfl) fun _ _ => (leaves_withMsg _ _).mpr fun hv hp => (leaves_guard _ _).mpr fun ha =>
    (leaves_guard _ _).mpr fun hn => .msgEdited hv fun ⟨_, _, _, hm, _⟩ => by
      obtain ⟨-, -, -, -, hs, -⟩ := hm hv
      exact Message.legal_withSrcs (hm hv) hp (addrsLegal_append hs (Nat.lt_of_not_le hn) (not_not.mp ha))

/-- A record copied out of a legal message is legal (R264). -/
theorem msgGetRec_hasEffect (k : Half) : HasEffect (.msgGetRec k) :=
  .of_rule (fun _ => rfl) fun _ _ => (leaves_withMsg _ _).mpr fun hv _ => by
    split
    · exact leaves_error _
    next g hg =>
      refine .recLoaded (.inr (.inr ⟨_, rfl⟩)) fun ⟨_, _, _, hm, _⟩ => ?_
      obtain ⟨-, -, -, -, -, -, -, hrecs, -⟩ := hm hv
      exact (hrecs g (List.mem_of_getElem? hg)).1

/-- The record register, copied into a message of its family, keeps the message legal (R265). -/
theorem msgAddRec_hasEffect : HasEffect .msgAddRec :=
  .of_rule (fun _ => rfl) fun _ _ => (leaves_withMsg _ _).mpr fun hv hp => (leaves_withRec _).mpr fun hgv =>
    (leaves_guard _ _).mpr fun hf => (leaves_guard _ _).mpr fun hn => .msgEdited hv fun ⟨_, _, _, hm, hgr⟩ => by
      refine Message.legal_withRecs (hm hv) hp (by simpa using hn) fun g hg => ?_
      obtain ⟨-, -, -, -, -, -, -, hrecs, -⟩ := hm hv
      rcases List.mem_append.mp hg with hold | hnew
      · exact hrecs g hold
      · rw [List.mem_singleton.mp hnew]
        exact ⟨hgr hgv, not_not.mp hf⟩

theorem msgEncode_hasEffect (room : Half) : HasEffect (.msgEncode room) :=
  .of_rule (fun _ => rfl) fun _ _ => (leaves_withMsg _ _).mpr fun hv _ => (leaves_guard _ _).mpr fun hn =>
    .msgEncoded hv (by omega)

/-! The registry: of its commands only `PARSE` writes the context. -/

theorem regRegister_hasEffect (fam tag dec : Byte) : HasEffect (.regRegister fam tag dec) := by
  intro s t c h hc
  rcases execRegRegister_cases h with ⟨hn, -⟩ | ⟨e, rfl⟩ | ⟨-, rfl⟩ | ⟨f, -, -, -, rfl⟩
  · simp [hc] at hn
  · exact ⟨c, hc, .kept⟩
  · exact ⟨c, hc, .kept⟩
  · exact ⟨c, by simpa [State.ctx?] using hc, .kept⟩

theorem regLookup_hasEffect (fam tag : Byte) : HasEffect (.regLookup fam tag) := by
  intro s t c h hc
  rcases execRegLookup_cases h with ⟨hn, -⟩ | ⟨e, rfl⟩ | ⟨f, -, rfl⟩
  · simp [hc] at hn
  · exact ⟨c, hc, .kept⟩
  · exact ⟨c, hc, .kept⟩

theorem regBuild_hasEffect : HasEffect .regBuild := by
  intro s t c h hc
  rcases execRegBuild_cases h with ⟨hn, -⟩ | ⟨-, rfl⟩ | ⟨-, rfl⟩
  · simp [hc] at hn
  · exact ⟨c, hc, .kept⟩
  · exact ⟨c, hc, .kept⟩

theorem regSeal_hasEffect : HasEffect .regSeal := by
  intro s t c h hc
  rcases execRegSeal_cases h with ⟨hn, -⟩ | rfl
  · simp [hc] at hn
  · exact ⟨c, hc, .kept⟩

theorem parse_hasEffect (fam : Byte) : HasEffect (.parse fam) := by
  intro s t c h hc
  rcases execParse_cases h with ⟨hn, -⟩ | ⟨-, rfl⟩ | ⟨f, _, e, -, -, -, rfl⟩ | ⟨f, c₀, m, -, hc₀, hp, rfl⟩
  · simp [hc] at hn
  · exact ⟨c, hc, .kept⟩
  · exact ⟨c, hc, .kept⟩
  · obtain rfl : c₀ = c := Option.some.inj (hc₀.symm.trans hc)
    exact ⟨_, State.ctx?_setCtx (s := s.seal) hc, .msgLoaded (.inr ⟨fam, rfl⟩) (parseMsg_legal hp)⟩

/-! All 69 commands. -/

theorem exec_hasEffect (i : Instr) : HasEffect i := by
  cases i with
  -- 41_fields.md
  | bufLoad data =>
    exact .of_rule (fun _ => rfl) fun _ _ => (leaves_guard _ _).mpr fun hn => .bufReplaced (Nat.le_of_not_lt hn)
  | bufSetlen n =>
    exact .of_rule (fun _ => rfl) fun _ _ => (leaves_guard _ _).mpr fun hn => .bufResized (Nat.le_of_not_lt hn)
  | bufGetlen => exact .of_rule (fun _ => rfl) fun _ _ => .kept
  | fldGetU8 _ | fldGetU16 _ | fldGetU32 _ => exact .of_rule (fun _ => rfl) fun _ _ => leaves_getField _ _ .kept
  | fldSetU8 _ _ | fldSetU16 _ _ | fldSetU32 _ _ | fldSetBytes _ _ =>
    exact .of_rule (fun _ => rfl) fun _ _ => leaves_storeField _ _
  | fldGetBits off sh w => exact fldGetBits_hasEffect off sh w
  | fldSetBits _ _ _ _ =>
    exact .of_rule (fun _ => rfl) fun _ _ => (leaves_guard _ _).mpr fun _ => leaves_storeField _ _
  | fldGetBytes off n => exact fldGetBytes_hasEffect off n
  -- 42_checksum.md
  | ctxSetSrc _ => exact .of_rule (fun _ => rfl) fun _ _ => (leaves_guard _ _).mpr fun hn => .srcSet (not_not.mp hn)
  | ctxSetDst _ => exact .of_rule (fun _ => rfl) fun _ _ => (leaves_guard _ _).mpr fun hn => .dstSet (not_not.mp hn)
  | csumCompute len p => exact csumCompute_hasEffect len p
  | csumVerify len p => exact csumVerify_hasEffect len p
  | csumWrite len p => exact csumWrite_hasEffect len p
  -- 43_timecode.md
  | tc8Decode _ | tc8Encode _ | tc16Decode _ | tc16Encode _ => exact .of_rule (fun _ => rfl) fun _ _ => .kept
  -- 44_group_record.md
  | grNew fam rtype => exact grNew_hasEffect fam rtype
  | grGetType | grGetGroup | grGetNsrc | grGetAuxlen | grGetAux | grLength =>
    exact .of_rule (fun _ => rfl) fun _ _ => leaves_readRec _
  | grGetSrc k => exact grGetSrc_hasEffect k
  | grSetType rtype => exact grSetType_hasEffect rtype
  | grSetGroup addr => exact grSetGroup_hasEffect addr
  | grAddSrc addr => exact grAddSrc_hasEffect addr
  | grClearSrc => exact grClearSrc_hasEffect
  | grSetAux data => exact grSetAux_hasEffect data
  | grDecode off fam => exact grDecode_hasEffect off fam
  | grEncode off => exact grEncode_hasEffect off
  | grPeekLength off fam => exact grPeekLength_hasEffect off fam
  -- 45_message.md
  | msgNew v => exact msgNew_hasEffect v
  | msgGetVariant | msgGetGroup | msgGetMaxrespCode | msgGetMaxrespTime | msgGetS | msgGetQrv | msgGetQqic | msgGetQqi
  | msgGetNsrc | msgGetNrec | msgLength => exact .of_rule (fun _ => rfl) fun _ _ => leaves_readMsg _ _
  | msgSetGroup addr => exact msgSetGroup_hasEffect addr
  | msgSetMaxrespCode _ =>
    exact .of_rule (fun _ => rfl) fun _ _ => leaves_editMsg _ _ fun _ hp hm =>
      Message.legal_withMrc hm hp (truncMrc_lt _)
  | msgSetMaxrespTime _ =>
    exact .of_rule (fun _ => rfl) fun _ _ => leaves_editMsg _ _ fun _ hp hm =>
      Message.legal_withMrc hm hp (mrcOfTime_lt _)
  | msgSetS _ =>
    exact .of_rule (fun _ => rfl) fun _ _ => leaves_editMsg _ _ fun m hp hm =>
      Message.legal_withQueryFields hm hp _ m.qrv m.qqic
  | msgSetQrv _ =>
    exact .of_rule (fun _ => rfl) fun _ _ => leaves_editMsg _ _ fun m hp hm =>
      Message.legal_withQueryFields hm hp m.sFlag _ m.qqic
  | msgSetQqic _ | msgSetQqi _ =>
    exact .of_rule (fun _ => rfl) fun _ _ => leaves_editMsg _ _ fun m hp hm =>
      Message.legal_withQueryFields hm hp m.sFlag m.qrv _
  | msgGetSrc k => exact msgGetSrc_hasEffect k
  | msgAddSrc addr => exact msgAddSrc_hasEffect addr
  | msgClearSrc =>
    exact .of_rule (fun _ => rfl) fun _ _ => leaves_editMsg _ _ fun _ hp hm =>
      Message.legal_withSrcs hm hp (addrsLegal_nil _)
  | msgGetRec k => exact msgGetRec_hasEffect k
  | msgAddRec => exact msgAddRec_hasEffect
  | msgClearRec =>
    exact .of_rule (fun _ => rfl) fun _ _ => leaves_editMsg _ _ fun _ hp hm =>
      Message.legal_withRecs hm hp (Nat.zero_le _) (by simp)
  | msgEncode room => exact msgEncode_hasEffect room
  -- 46_registry.md
  | regRegister fam tag dec => exact regRegister_hasEffect fam tag dec
  | regLookup fam tag => exact regLookup_hasEffect fam tag
  | regBuild => exact regBuild_hasEffect
  | regSeal => exact regSeal_hasEffect
  | parse fam => exact parse_hasEffect fam

end Sys2Proof.Machine
end

section
/-! PROOFS. What a command leaves unchanged of the state around its context: the settled statements on the other
contexts (R20), the sealed registry (R24) and the flags (R34). -/

namespace Sys2Proof.Machine

/-! The other contexts. -/

/-- Settles O12: among all that a command can do (`exec_cases`), only the commit of its own context writes a context. -/
theorem commandKeepsOtherContexts : Obligations.CommandKeepsOtherContexts := by
  intro i s t h
  rcases exec_cases h with ⟨-, rfl⟩ | ⟨c, -, ⟨e, rfl⟩ | ⟨c', p, rfl⟩ | ⟨-, -, rfl⟩ | ⟨-, f, tag, dec, -, rfl⟩ |
    ⟨-, rfl⟩ | ⟨-, e, rfl⟩ | ⟨-, c', p, rfl⟩⟩
  · simp
  · simp
  · exact ⟨by simp, rfl, rfl, rfl, fun k hk => State.setCtx_other hk⟩
  · simp
  · simp
  · simp
  · simp
  · exact ⟨by simp, rfl, rfl, rfl, fun k hk => State.setCtx_other (s := s.seal) hk⟩

/-! The shared part. -/

/-- All that a command can do to the registry and its seal: nothing, one legal entry or `REG_BUILD` while unsealed, or
the seal. -/
theorem exec_registry_cases {i : Instr} {s t : State} (h : exec i s = .next t) :
    (t.isSealed = s.isSealed ∧ ∀ f, t.regOf f = s.regOf f) ∨
    (s.isSealed = false ∧ t.isSealed = false ∧
      ((∃ f tag dec, (dec = 0 ∨ canon dec = some (f, tag)) ∧ ∀ f', t.regOf f' = (s.regWrite f tag dec).regOf f') ∨
       ∀ f, t.regOf f = s.regBuild.regOf f)) ∨
    ((i = .regSeal ∨ ∃ fam, i = .parse fam) ∧ t.isSealed = true ∧ ∀ f, t.regOf f = s.regOf f) := by
  rcases exec_cases h with ⟨-, rfl⟩ | ⟨c, -, ⟨e, rfl⟩ | ⟨c', p, rfl⟩ | ⟨-, -, rfl⟩ | ⟨hs, f, tag, dec, hd, rfl⟩ |
    ⟨hs, rfl⟩ | ⟨hi, e, rfl⟩ | ⟨hi, c', p, rfl⟩⟩
  · exact .inl ⟨rfl, fun f => by cases f <;> rfl⟩
  · exact .inl ⟨rfl, by simp⟩
  · exact .inl ⟨rfl, by simp⟩
  · exact .inl ⟨rfl, fun f => by cases f <;> rfl⟩
  · exact .inr (.inl ⟨hs, by simpa using hs, .inl ⟨f, tag, dec, hd, by simp⟩⟩)
  · exact .inr (.inl ⟨hs, by simpa using hs, .inr (by simp)⟩)
  · exact .inr (.inr ⟨.inr hi, rfl, by simp⟩)
  · exact .inr (.inr ⟨hi, rfl, by simp⟩)

/-- All that a command can do to the fault registers: nothing; the fault of a context that does not exist; the fault of
a registry write after the seal. -/
theorem exec_fault_cases {i : Instr} {s t : State} (h : exec i s = .next t) :
    (t.fault = s.fault ∧ t.faultCause = s.faultCause) ∨
    (s.ctx? = none ∧ t.fault = true ∧ t.faultCause = 2) ∨
    (s.isSealed = true ∧ (i = .regBuild ∨ ∃ fam tag dec, i = .regRegister fam tag dec) ∧ t.isSealed = true ∧
      t.fault = true ∧ t.faultCause = 1) := by
  rcases exec_cases h with ⟨hn, rfl⟩ | ⟨c, -, ⟨e, rfl⟩ | ⟨c', p, rfl⟩ | ⟨hs, hi, rfl⟩ | ⟨-, f, tag, dec, -, rfl⟩ |
    ⟨-, rfl⟩ | ⟨-, e, rfl⟩ | ⟨-, c', p, rfl⟩⟩
  · exact .inr (.inl ⟨hn, rfl, rfl⟩)
  · exact .inl ⟨rfl, rfl⟩
  · exact .inl ⟨rfl, rfl⟩
  · exact .inr (.inr ⟨hs, hi, hs, rfl, rfl⟩)
  · exact .inl ⟨by simp, by simp⟩
  · exact .inl ⟨rfl, rfl⟩
  · exact .inl ⟨rfl, rfl⟩
  · exact .inl ⟨rfl, rfl⟩

/-- No command clears the seal or writes a sealed registry (R24). -/
theorem exec_keeps_sealed_registry {i : Instr} {s t : State} (hs : s.isSealed = true) (h : exec i s = .next t) :
    t.isSealed = true ∧ ∀ f, t.regOf f = s.regOf f := by
  rcases exec_registry_cases h with ⟨hsame, hreg⟩ | ⟨hopen, -⟩ | ⟨-, hset, hreg⟩
  · exact ⟨hsame.trans hs, hreg⟩
  · simp [hs] at hopen
  · exact ⟨hset, hreg⟩

/-- A frame keeps the sealed registry: its command does, and an answer or a fault writes no registry. -/
theorem runFrame_keeps_sealed_registry {f : Frame} {s t : State} (hs : s.isSealed = true)
    (h : runFrame f s = .next t) : t.isSealed = true ∧ ∀ fam, t.regOf fam = s.regOf fam := by
  rcases runFrame_cases f s with ⟨-, hr⟩ | ⟨-, -, hr⟩ | ⟨-, -, i, -, hr⟩ <;> rw [hr] at h
  · cases h
    exact ⟨hs, by simp⟩
  · cases h
    exact ⟨hs, fun fam => by cases fam <;> rfl⟩
  · obtain ⟨hseal, hreg⟩ := exec_keeps_sealed_registry (s := { s with cur := f.ctx }) hs h
    exact ⟨hseal, fun fam => (hreg fam).trans (by cases fam <;> rfl)⟩

/-- Settles O14, by the three kinds of step: with no input nothing changes, the reset signal is excluded, and a frame
keeps the sealed registry. -/
theorem sealedRegistryIsReadOnly : Obligations.SealedRegistryIsReadOnly := by
  intro s t hs h hreset
  simp only [step, runInput] at h
  split at h
  next => cases h; exact ⟨rfl, rfl, hs⟩
  next rest hin => exact absurd hin (hreset rest)
  next f rest _ =>
    obtain ⟨hseal, hreg⟩ := runFrame_keeps_sealed_registry (s := { s with inputs := rest }) hs h
    exact ⟨hreg .igmp, hreg .mld, hseal⟩

/-! The flags. -/

/-- No effect clears a register's flag, and the flag is set only where the register is loaded (R34). -/
theorem CtxEffect.flags {cap : Nat} {i : Instr} {c c' : Context} (h : CtxEffect cap i c c') :
    (c.msgValid = true → c'.msgValid = true) ∧ (c.grValid = true → c'.grValid = true) ∧
    (c'.msgValid ≠ c.msgValid → LoadsMessage i) ∧ (c'.grValid ≠ c.grValid → LoadsRecord i) := by
  cases h with
  | recLoaded loads _ => exact ⟨id, fun _ => rfl, fun hne => absurd rfl hne, fun _ => loads⟩
  | msgLoaded loads _ => exact ⟨fun _ => rfl, id, fun _ => loads, fun hne => absurd rfl hne⟩
  | _ => exact ⟨id, id, fun hne => absurd rfl hne, fun hne => absurd rfl hne⟩

/-- Settles O15: the seal by `exec_registry_cases`, the fault by `exec_fault_cases`, the two register flags by the
command's effect on its context. -/
theorem flagsSetOnlyByTheirCommands : Obligations.FlagsSetOnlyByTheirCommands := by
  intro i s t c h hc
  refine ⟨fun hs => (exec_keeps_sealed_registry hs h).1, ?_, ?_, ?_, ?_⟩
  · rcases exec_fault_cases h with ⟨hsame, -⟩ | ⟨-, hset, -⟩ | ⟨-, -, -, hset, -⟩
    · exact hsame.trans
    · exact fun _ => hset
    · exact fun _ => hset
  · intro hne
    rcases exec_registry_cases h with ⟨hsame, -⟩ | ⟨hs, ht, -⟩ | ⟨hi, -⟩
    · exact absurd hsame hne
    · exact absurd (ht.trans hs.symm) hne
    · exact hi
  · intro hne
    rcases exec_fault_cases h with ⟨hsame, -⟩ | ⟨hn, -⟩ | ⟨hs, hi, -⟩
    · exact absurd hsame hne
    · simp [hc] at hn
    · exact ⟨hs, hi⟩
  · obtain ⟨c', hc', heff⟩ := exec_hasEffect i s t c h hc
    exact ⟨c', hc', heff.flags⟩

end Sys2Proof.Machine
end

section
/-! PROOFS. The invariant of the machine (R23 to R33): each effect on a context keeps its registers legal, each write to
the registry keeps it canonical, and so every command, every frame and every step keeps the invariant. -/

namespace Sys2Proof.Machine

/-! The buffer (R26). -/

theorem Context.bufLegal_store {cap off : Nat} {c : Context} {bytes : List Byte} (h : c.BufLegal cap)
    (inside : off + bytes.length ≤ c.bufLen) :
    ({ c with buf := c.buf.writeBytes off bytes } : Context).BufLegal cap := by
  obtain ⟨hwf, hbelow, hcap⟩ := h
  have hwf' := Memory.wf_writeBytes hwf off bytes
  refine ⟨hwf', (Memory.below_iff hwf' _).mpr fun x hx => ?_, hcap⟩
  rw [Memory.read_writeBytes_outside hwf (.inr (Nat.le_trans inside hx))]
  exact (Memory.below_iff hwf _).mp hbelow x hx

theorem Context.bufLegal_bufReplace {cap : Nat} (c : Context) {data : List Byte} (fits : data.length ≤ cap) :
    (c.bufReplace data).BufLegal cap := by
  have hwf := Memory.wf_ofBytes 0 data
  refine ⟨hwf, (Memory.below_iff hwf _).mpr fun x hx => ?_, fits⟩
  rw [Memory.read_ofBytes, if_pos (Nat.zero_le x)]
  exact List.getD_eq_default _ _ hx

theorem Context.bufLegal_bufSetLen {cap n : Nat} {c : Context} (h : c.BufLegal cap) (fits : n ≤ cap) :
    (c.bufSetLen n).BufLegal cap := by
  obtain ⟨hwf, hbelow, -⟩ := h
  have hwf' := Memory.wf_zeroRange hwf n c.bufLen
  refine ⟨hwf', (Memory.below_iff hwf' _).mpr fun x hx => ?_, fits⟩
  rw [Context.bufSetLen_bufLen] at hx
  rw [Memory.read_zeroRange]
  split_ifs with hin
  · rfl
  · exact (Memory.below_iff hwf _).mp hbelow x (by omega)

/-- Every message has room for its checksum field (R102). -/
theorem Message.len_ge (m : Message) : 8 ≤ m.len := by
  simp only [Message.len]
  split <;> omega

/-- `MSG_ENCODE` of a legal message fills the buffer and stores a checksum inside it (R268). -/
theorem Context.bufLegal_encodeMsg {cap : Nat} (c : Context) {m : Message} (h : m.Legal) (fits : m.len ≤ cap) :
    (c.encodeMsg m).BufLegal cap := by
  have hlen := Message.wire_length h
  have hfilled : ({ c.bufReplace m.wire with bufLen := m.len } : Context).BufLegal cap := by
    simpa [Context.bufReplace, hlen] using c.bufLegal_bufReplace (hlen.trans_le fits)
  exact Context.bufLegal_store hfilled (Nat.le_trans (by simp) m.len_ge)

/-! A context. -/

/-- Every effect that a command can have on its context keeps the registers legal. -/
theorem CtxEffect.legal {cap : Nat} {i : Instr} {c c' : Context} (h : CtxEffect cap i c c') (hc : c.Legal cap) :
    c'.Legal cap := by
  have hc₀ := hc
  obtain ⟨hbuf, hsrc, hdst, hmsg, hgr⟩ := hc
  cases h with
  | kept => exact hc₀
  | bufReplaced fits => exact ⟨c.bufLegal_bufReplace fits, hsrc, hdst, hmsg, hgr⟩
  | bufResized fits => exact ⟨Context.bufLegal_bufSetLen hbuf fits, hsrc, hdst, hmsg, hgr⟩
  | bufStored inside => exact ⟨Context.bufLegal_store hbuf inside, hsrc, hdst, hmsg, hgr⟩
  | srcSet wide => exact ⟨hbuf, wide, hdst, hmsg, hgr⟩
  | dstSet wide => exact ⟨hbuf, hsrc, wide, hmsg, hgr⟩
  | recLoaded _ legal => exact ⟨hbuf, hsrc, hdst, hmsg, fun _ => legal hc₀⟩
  | recEdited held legal => exact ⟨hbuf, hsrc, hdst, hmsg, fun _ => legal (hgr held)⟩
  | msgLoaded _ legal => exact ⟨hbuf, hsrc, hdst, fun _ => legal, hgr⟩
  | msgEdited held legal => exact ⟨hbuf, hsrc, hdst, fun _ => legal hc₀, hgr⟩
  | msgEncoded held fits => exact ⟨c.bufLegal_encodeMsg (hmsg held) fits, hsrc, hdst, hmsg, hgr⟩

theorem Context.reset_legal (cap : Nat) : Context.reset.Legal cap :=
  ⟨⟨rfl, rfl, Nat.zero_le cap⟩, rfl, rfl, fun hv => Bool.noConfusion hv, fun hv => Bool.noConfusion hv⟩

/-! The registry (R23, R291). -/

/-- A byte store lists nothing but what was listed and the byte stored, if that is not 0. -/
theorem Memory.mem_write {m : Memory} {a : Nat} {b : Byte} {cell : Host.Cell} (h : cell ∈ m.write a b) :
    cell ∈ m ∨ b ≠ 0 ∧ cell = (a, b) := by
  induction m with
  | nil =>
    simp only [Memory.write] at h
    split_ifs at h with hb
    · exact .inl h
    · exact .inr ⟨hb, List.mem_singleton.mp h⟩
  | cons head rest ih =>
    obtain ⟨k, v⟩ := head
    simp only [Memory.write] at h
    split_ifs at h with hlt hb heq hb
    · exact .inl h
    · exact (List.mem_cons.mp h).elim (fun hc => .inr ⟨hb, hc⟩) .inl
    · exact .inl (List.mem_cons_of_mem _ h)
    · exact (List.mem_cons.mp h).elim (fun hc => .inr ⟨hb, hc⟩) fun hr => .inl (List.mem_cons_of_mem _ hr)
    · rcases List.mem_cons.mp h with rfl | hr
      · exact .inl List.mem_cons_self
      · exact (ih hr).imp_left (List.mem_cons_of_mem _)

/-- Both registry tables are legal. -/
def State.RegistryLegal (s : State) : Prop := ∀ f, regLegal f (s.regOf f)

theorem State.registryLegal_iff {s : State} :
    s.RegistryLegal ↔ regLegal .igmp s.regIgmp ∧ regLegal .mld s.regMld :=
  ⟨fun h => ⟨h .igmp, h .mld⟩, fun ⟨higmp, hmld⟩ f => by cases f <;> assumption⟩

theorem State.RegistryLegal.congr {s t : State} (h : s.RegistryLegal) (heq : ∀ f, t.regOf f = s.regOf f) :
    t.RegistryLegal := fun f => heq f ▸ h f

/-- A decoder written at its own entry, or 0 anywhere, keeps a table legal. -/
theorem regLegal_write {f : Family} {reg : Memory} (h : regLegal f reg) {tag dec : Byte}
    (hd : dec = 0 ∨ canon dec = some (f, tag)) : regLegal f (reg.write tag.toNat dec) := by
  refine ⟨Memory.wf_write h.1 _ _, fun cell hcell => ?_⟩
  rcases Memory.mem_write hcell with hold | ⟨hne, rfl⟩
  · exact h.2 cell hold
  · exact ⟨tag.isLt, by simpa using hd.resolve_left hne⟩

theorem State.RegistryLegal.regWrite {s : State} (h : s.RegistryLegal) {f : Family} {tag dec : Byte}
    (hd : dec = 0 ∨ canon dec = some (f, tag)) : (s.regWrite f tag dec).RegistryLegal := by
  rw [State.registryLegal_iff] at h ⊢
  cases f with
  | igmp => exact ⟨regLegal_write h.1 hd, h.2⟩
  | mld => exact ⟨h.1, regLegal_write h.2 hd⟩

/-- `REG_BUILD` writes eight decoders, each at its own entry (R294). -/
theorem State.RegistryLegal.regBuild {s : State} (h : s.RegistryLegal) : s.regBuild.RegistryLegal :=
  h |>.regWrite (.inr rfl) |>.regWrite (.inr rfl) |>.regWrite (.inr rfl) |>.regWrite (.inr rfl)
    |>.regWrite (.inr rfl) |>.regWrite (.inr rfl) |>.regWrite (.inr rfl) |>.regWrite (.inr rfl)

theorem exec_keeps_registryLegal {i : Instr} {s t : State} (hs : s.RegistryLegal) (h : exec i s = .next t) :
    t.RegistryLegal := by
  rcases exec_registry_cases h with ⟨-, hreg⟩ | ⟨-, -, ⟨f, tag, dec, hd, hreg⟩ | hreg⟩ | ⟨-, -, hreg⟩
  · exact hs.congr hreg
  · exact (hs.regWrite hd).congr hreg
  · exact hs.regBuild.congr hreg
  · exact hs.congr hreg

/-! The fault registers (R25). -/

theorem exec_keeps_faultLegal {i : Instr} {s t : State} (hs : s.FaultLegal) (h : exec i s = .next t) :
    t.FaultLegal := by
  rcases exec_fault_cases h with ⟨hf, hcause⟩ | ⟨-, hf, hcause⟩ | ⟨-, -, hseal, hf, hcause⟩
  · obtain ⟨hnone, hsome, honce⟩ := hs
    rw [State.FaultLegal, hf, hcause]
    exact ⟨hnone, hsome, fun h1 => (exec_keeps_sealed_registry (honce h1) h).1⟩
  · simp [State.FaultLegal, hf, hcause]
  · simp [State.FaultLegal, hf, hcause, hseal]

/-! The contexts. -/

/-- After a command its own context holds legal values by the command's effect, and every other one as before. -/
theorem exec_keeps_contextsLegal {i : Instr} {s t : State} (hs : ∀ c ∈ s.ctxs, c.Legal s.bufCap)
    (h : exec i s = .next t) : ∀ c ∈ t.ctxs, c.Legal t.bufCap := by
  obtain ⟨hlen, hcap, hcur, -, hother⟩ := commandKeepsOtherContexts i s t h
  rw [hcap]
  intro c' hmem
  obtain ⟨k, hk⟩ := List.mem_iff_getElem?.mp hmem
  by_cases hown : k = s.cur.toNat
  · have hlt : s.cur.toNat < s.ctxs.length := by
      rw [← hown, ← hlen]; exact (List.getElem?_eq_some_iff.mp hk).1
    have hc : s.ctx? = some s.ctxs[s.cur.toNat] := List.getElem?_eq_getElem hlt
    obtain ⟨c'', hc'', heff⟩ := exec_hasEffect i s t _ h hc
    rw [State.ctx?, hcur, ← hown, hk] at hc''
    cases hc''
    exact heff.legal (hs _ (List.getElem_mem hlt))
  · rw [hother k hown] at hk
    exact hs c' (List.mem_of_getElem? hk)

/-! The machine. -/

theorem exec_keeps_inv {i : Instr} {s t : State} (hs : s.Inv) (h : exec i s = .next t) : t.Inv := by
  obtain ⟨hpar, higmp, hmld, hfault, hctxs⟩ := hs
  obtain ⟨hlen, hcap, -⟩ := commandKeepsOtherContexts i s t h
  obtain ⟨higmp', hmld'⟩ :=
    State.registryLegal_iff.mp (exec_keeps_registryLegal (State.registryLegal_iff.mpr ⟨higmp, hmld⟩) h)
  refine ⟨?_, higmp', hmld', exec_keeps_faultLegal hfault h, exec_keeps_contextsLegal hctxs h⟩
  rwa [State.ParamsLegal, State.nCtx, hlen, hcap]

/-- A frame keeps the invariant: the answer of a faulted block changes no register, the fault of an ill-formed frame
records cause 2, and a command keeps it. -/
theorem runFrame_keeps_inv {f : Frame} {s t : State} (hs : s.Inv) (h : runFrame f s = .next t) : t.Inv := by
  rcases runFrame_cases f s with ⟨-, hr⟩ | ⟨-, -, hr⟩ | ⟨-, -, i, -, hr⟩ <;> rw [hr] at h
  · cases h
    exact hs
  · cases h
    obtain ⟨hpar, higmp, hmld, -, hctxs⟩ := hs
    exact ⟨hpar, higmp, hmld, by simp [State.FaultLegal], hctxs⟩
  · exact exec_keeps_inv (s := { s with cur := f.ctx }) hs h

/-- The reset signal keeps the parameters and puts every register at its reset value (R350). -/
theorem applyReset_inv {s : State} (hs : s.ParamsLegal) : s.applyReset.Inv := by
  refine ⟨by simpa [State.ParamsLegal] using hs, ⟨rfl, by simp⟩, ⟨rfl, by simp⟩, by simp [State.FaultLegal], ?_⟩
  intro c hc
  rw [List.eq_of_mem_replicate hc]
  exact Context.reset_legal _

/-- Settles O3, by the three kinds of step: no input, the reset signal, a frame. -/
theorem stepKeepsInvariant : Obligations.StepKeepsInvariant := by
  intro s t hs h
  simp only [step, runInput] at h
  split at h
  next => cases h; exact hs
  next rest _ =>
    cases h
    obtain ⟨hpar, -⟩ := hs
    exact applyReset_inv (s := { s with inputs := rest }) hpar
  next f rest _ => exact runFrame_keeps_inv (s := { s with inputs := rest }) hs h

end Sys2Proof.Machine
end

section
/-! PROOFS. Non-interference of the contexts (R70): a command sees of the state the shared part and its own context
alone. Two blocks that agree on what it sees stay so under every operation that commands are built from, and give the
same responses. -/

namespace Sys2Proof.Machine

/-! Blocks that look alike to the command being executed. -/

/-- The blocks agree on the shared part (R20), and the frame's context exists in both and holds `c` in both. -/
structure Alike (c : Context) (s s' : State) : Prop where
  shared : SharedEq s s'
  own : s.ctx? = some c
  own' : s'.ctx? = some c

section
variable {c : Context} {s s' : State}

theorem Alike.isSealed (h : Alike c s s') : s'.isSealed = s.isSealed := by
  obtain ⟨-, -, -, hseal, -⟩ := h.shared
  exact hseal.symm

theorem Alike.regOf (h : Alike c s s') (f : Family) : s'.regOf f = s.regOf f := by
  obtain ⟨-, higmp, hmld, -⟩ := h.shared
  cases f with
  | igmp => exact higmp.symm
  | mld => exact hmld.symm

theorem Alike.setCtx (h : Alike c s s') (c' : Context) : Alike c' (s.setCtx c') (s'.setCtx c') :=
  ⟨h.shared, State.ctx?_setCtx h.own, State.ctx?_setCtx h.own'⟩

theorem Alike.seal (h : Alike c s s') : Alike c s.seal s'.seal := by
  obtain ⟨⟨hcap, higmp, hmld, -, hfault⟩, hown, hown'⟩ := h
  exact ⟨⟨hcap, higmp, hmld, rfl, hfault⟩, hown, hown'⟩

theorem Alike.regWrite (h : Alike c s s') (f : Family) (tag dec : Byte) :
    Alike c (s.regWrite f tag dec) (s'.regWrite f tag dec) := by
  obtain ⟨⟨hcap, higmp, hmld, hrest⟩, hown, hown'⟩ := h
  cases f with
  | igmp => exact ⟨⟨hcap, congrArg (·.write tag.toNat dec) higmp, hmld, hrest⟩, hown, hown'⟩
  | mld => exact ⟨⟨hcap, higmp, congrArg (·.write tag.toNat dec) hmld, hrest⟩, hown, hown'⟩

theorem Alike.regBuild (h : Alike c s s') : Alike c s.regBuild s'.regBuild :=
  h |>.regWrite _ _ _ |>.regWrite _ _ _ |>.regWrite _ _ _ |>.regWrite _ _ _
    |>.regWrite _ _ _ |>.regWrite _ _ _ |>.regWrite _ _ _ |>.regWrite _ _ _

theorem Alike.setFault (h : Alike c s s') (cause : Byte) :
    Alike c { s with fault := true, faultCause := cause } { s' with fault := true, faultCause := cause } := by
  obtain ⟨⟨hcap, higmp, hmld, hseal, -⟩, hown, hown'⟩ := h
  exact ⟨⟨hcap, higmp, hmld, hseal, rfl, rfl⟩, hown, hown'⟩

end

/-! Answers that tell no more than what the command sees. -/

/-- The results `x` in `s` and `x'` in `s'` are next states that add the same response and agree on the shared part and
the frame's context. -/
def AnswersAlike (s s' : State) (x x' : StepResult) : Prop :=
  ∃ t t' r, x = .next t ∧ x' = .next t' ∧ SharedEq t t' ∧ t.ctx? = t'.ctx? ∧
    t.responses = s.responses ++ [r] ∧ t'.responses = s'.responses ++ [r]

section
variable {c : Context} {s s' : State}

/-- Whatever a command has written (`u`, `u'`), one response is all it adds to the responses. -/
theorem Alike.emit {u u' : State} (h : Alike c u u') (hu : u.responses = s.responses)
    (hu' : u'.responses = s'.responses) (r : List Byte) : AnswersAlike s s' (.next (u.emit r)) (.next (u'.emit r)) :=
  ⟨_, _, r, rfl, rfl, h.shared, h.own.trans h.own'.symm, by simp [hu], by simp [hu']⟩

theorem Alike.raise (h : Alike c s s') (e : ErrorStatus) : AnswersAlike s s' (s.raise e) (s'.raise e) :=
  h.emit rfl rfl _

theorem Alike.respond (h : Alike c s s') (p : List Byte) : AnswersAlike s s' (s.respond p) (s'.respond p) :=
  h.emit rfl rfl _

theorem Alike.takeFault (h : Alike c s s') (cause : FaultCause) :
    AnswersAlike s s' (s.takeFault cause) (s'.takeFault cause) :=
  (h.setFault cause.code).emit rfl rfl _

/-- One result, committed in both blocks. -/
theorem Alike.commit (h : Alike c s s') (r : CmdResult) : AnswersAlike s s' (s.commit r) (s'.commit r) := by
  match r with
  | .error e => exact h.raise e
  | .ok (c', p) => exact (h.setCtx c').respond p

/-- The frame's context is all of the contexts that a command is handed. -/
theorem Alike.inCtx (h : Alike c s s') {run run' : Context → StepResult}
    (hrun : AnswersAlike s s' (run c) (run' c)) : AnswersAlike s s' (s.inCtx run) (s'.inCtx run') := by
  rwa [State.inCtx_some h.own, State.inCtx_some h.own']

theorem AnswersAlike.ite {b : Prop} [Decidable b] {x x' y y' : StepResult} (hx : AnswersAlike s s' x x')
    (hy : AnswersAlike s s' y y') : AnswersAlike s s' (if b then x else y) (if b then x' else y') := by
  by_cases hb : b
  · simpa [hb] using hx
  · simpa [hb] using hy

/-- A registry write after the seal faults in both blocks or in neither (R322). -/
theorem Alike.unlessSealed (h : Alike c s s') {x x' : StepResult} (hx : AnswersAlike s s' x x') :
    AnswersAlike s s' (if s.isSealed then s.takeFault .registryWriteAfterSeal else x)
      (if s'.isSealed then s'.takeFault .registryWriteAfterSeal else x') := by
  rw [h.isSealed]
  exact (h.takeFault _).ite hx

/-! The five commands of the registry. -/

theorem Alike.execRegRegister (h : Alike c s s') (fam tag dec : Byte) :
    AnswersAlike s s' (execRegRegister fam tag dec s) (execRegRegister fam tag dec s') := by
  refine h.inCtx ?_
  cases familyOf fam with
  | none => exact h.raise _
  | some f =>
    refine (h.raise _).ite ((h.raise _).ite (h.unlessSealed ?_))
    exact (h.regWrite f tag dec).emit (by simp) (by simp) _

theorem Alike.execRegLookup (h : Alike c s s') (fam tag : Byte) :
    AnswersAlike s s' (execRegLookup fam tag s) (execRegLookup fam tag s') := by
  refine h.inCtx ?_
  cases familyOf fam with
  | none => exact h.raise _
  | some f =>
    have hread : s'.regRead f tag = s.regRead f tag := by rw [State.regRead, State.regRead, h.regOf]
    simp only [hread]
    exact h.respond _

theorem Alike.execRegBuild (h : Alike c s s') : AnswersAlike s s' (execRegBuild s) (execRegBuild s') :=
  h.inCtx (h.unlessSealed (h.regBuild.emit (by simp) (by simp) _))

theorem Alike.execRegSeal (h : Alike c s s') : AnswersAlike s s' (execRegSeal s) (execRegSeal s') :=
  h.inCtx (h.seal.respond [])

theorem Alike.execParse (h : Alike c s s') (fam : Byte) :
    AnswersAlike s s' (execParse fam s) (execParse fam s') := by
  refine h.inCtx ?_
  cases familyOf fam with
  | none => exact h.raise _
  | some f =>
    simp only [h.regOf]
    exact h.seal.commit _

/-! All 69 commands. -/

/-- The commands confined to their context run one rule on the same context and capacity (`exec_local`); the other five
see the registry besides, which is shared. -/
theorem Alike.exec (h : Alike c s s') (i : Instr) : AnswersAlike s s' (exec i s) (exec i s') := by
  rcases exec_local i with ⟨rule, hrule⟩ | ⟨fam, tag, dec, rfl⟩ | ⟨fam, tag, rfl⟩ | rfl | rfl | ⟨fam, rfl⟩
  · obtain ⟨hcap, -⟩ := h.shared
    rw [hrule, hrule, hcap]
    exact h.inCtx (h.commit _)
  · exact h.execRegRegister fam tag dec
  · exact h.execRegLookup fam tag
  · exact h.execRegBuild
  · exact h.execRegSeal
  · exact h.execParse fam

end

/-- Settles O13: blocks that agree on the shared part and on the command's own context are alike, and so answer alike
(`Alike.exec`). -/
theorem contextsDoNotInterfere : Obligations.ContextsDoNotInterfere := by
  intro i s s' hshared hctx hsome
  obtain ⟨c, hc⟩ := Option.ne_none_iff_exists'.mp hsome
  have halike : Alike c s s' := ⟨hshared, hc, hctx.symm.trans hc⟩
  exact halike.exec i

end Sys2Proof.Machine
end

section
/-! PROOFS. The command encoding (R110 to R114): the decoder undoes the encoder on every well-formed command, accepts
nothing but encodings, and refuses the unassigned opcodes; and what one step makes of a frame it takes. -/

namespace Sys2Proof

open Sys2Proof.Machine

/-! Decoding what the encoder wrote. -/

/-- Settles O4, by the command's format (R111): the opcode map of R112 finds it, and the format's own lemma reads the
operands back. A byte string fits its declared length because the command is well-formed. -/
theorem decodeOfEncode : Obligations.DecodeOfEncode := by
  intro i hwf
  cases i with
  | bufGetlen | grGetType | grGetGroup | grGetNsrc | grClearSrc | grGetAuxlen | grGetAux | grLength | msgGetVariant
  | msgGetGroup | msgGetMaxrespCode | msgGetMaxrespTime | msgGetS | msgGetQrv | msgGetQqic | msgGetQqi | msgGetNsrc
  | msgClearSrc | msgGetNrec | msgAddRec | msgClearRec | msgLength | regBuild | regSeal => exact decode_N rfl
  | fldGetU8 off | fldGetU16 off | fldGetU32 off | grEncode off => exact decode_O rfl off
  | fldSetU8 off v | fldSetU16 off v | fldSetU32 off v => exact decode_OV rfl off v
  | fldGetBits off sh w => exact decode_OSW rfl off sh w
  | fldSetBits off sh w v => exact decode_OSWV rfl off sh w v
  | fldGetBytes off n => exact decode_ON rfl off n
  | fldSetBytes off data => exact decode_OD rfl off (of_decide_eq_true hwf)
  | bufLoad data | grSetAux data => exact decode_D rfl (of_decide_eq_true hwf)
  | ctxSetSrc addr | ctxSetDst addr | grSetGroup addr | grAddSrc addr | msgSetGroup addr | msgAddSrc addr =>
    exact decode_A rfl (of_decide_eq_true hwf)
  | tc8Encode v | tc16Encode v | msgSetMaxrespCode v | msgSetMaxrespTime v | msgSetS v | msgSetQrv v | msgSetQqic v
  | msgSetQqi v => exact decode_V rfl v
  | tc16Decode code => exact decode_H rfl code
  | tc8Decode t | grSetType t | msgNew t => exact decode_T rfl t
  | bufSetlen n | grGetSrc n | msgGetSrc n | msgGetRec n | msgEncode n => exact decode_I rfl n
  | csumCompute len p | csumVerify len p | csumWrite len p => exact decode_LP rfl len p
  | parse fam => exact decode_F rfl fam
  | grNew fam t | regLookup fam t => exact decode_FT rfl fam t
  | regRegister fam tag dec => exact decode_FTD rfl fam tag dec
  | grDecode off fam | grPeekLength off fam => exact decode_OF rfl off fam

/-! Encoding what the decoder read. -/

theorem encHalf_be16 (hi lo : Byte) : encHalf (be16 hi lo) = [hi, lo] := bytes16_be16 hi lo

theorem encWord_be32 (b0 b1 b2 b3 : Byte) : encWord (be32 b0 b1 b2 b3) = [b0, b1, b2, b3] := bytes32_be32 b0 b1 b2 b3

/-- All that it takes for the decoder to accept (R113): an assigned opcode, a whole declared length, the computed length,
and the operands at their places. -/
theorem decode_ok_cases {cmd : List Byte} {i : Instr} (h : decode cmd = .ok i) :
    ∃ op args sh n, cmd = op :: args ∧ shapeOf op = some sh ∧ sh.dataLen args = some n ∧
      args.length + 1 = sh.fixedLen + n ∧ sh.operands args = some i := by
  cases cmd with
  | nil => simp [decode] at h
  | cons op args =>
    cases hs : shapeOf op with
    | none => simp [decode, hs] at h
    | some sh =>
      cases hn : sh.dataLen args with
      | none => simp [decode, hs, hn] at h
      | some n =>
        cases hi : sh.operands args with
        | none => simp [decode, hs, hn, hi] at h
        | some j =>
          simp only [decode, hs, hn, hi] at h
          split_ifs at h with hlen
          cases h
          exact ⟨op, args, sh, n, rfl, hs, hn, hlen, hi⟩

/-- The operand bytes a format accepts are those the encoder writes for the command it builds, format by format: in a
fixed format the operands' bytes are the bytes read; in D, OD and A the computed length makes the byte string as long
as it is declared. -/
theorem Shape.Encodes.encode_operands {op : Byte} {sh : Shape} {args : List Byte} {n : Nat} {i : Instr}
    (henc : sh.Encodes op) (hn : sh.dataLen args = some n) (hlen : args.length + 1 = sh.fixedLen + n)
    (hi : sh.operands args = some i) : i.wf = true ∧ encode i = op :: args := by
  unfold Shape.operands at hi
  split at hi <;> cases hi
  -- format OD
  case h_7 k o1 o0 n1 n0 data =>
    cases hn
    have hdata : data.length = (be16 n1 n0).toNat := by simp [Shape.fixedLen] at hlen; omega
    obtain ⟨he, hwf⟩ := henc (be16 o1 o0) data
    exact ⟨hwf (hdata ▸ Nat.le_of_lt_succ (be16 n1 n0).isLt), by rw [he, hdata, encHalf_be16, bytes16_be16]; rfl⟩
  -- format D
  case h_8 k n1 n0 data =>
    cases hn
    have hdata : data.length = (be16 n1 n0).toNat := by simp [Shape.fixedLen] at hlen; omega
    obtain ⟨he, hwf⟩ := henc data
    exact ⟨hwf (hdata ▸ Nat.le_of_lt_succ (be16 n1 n0).isLt), by rw [he, hdata, bytes16_be16]; rfl⟩
  -- format A
  case h_9 k n0 addr =>
    cases hn
    have haddr : addr.length = n0.toNat := by simp [Shape.fixedLen] at hlen; omega
    obtain ⟨he, hwf⟩ := henc addr
    exact ⟨hwf (haddr ▸ Nat.le_of_lt_succ n0.isLt), by rw [he, haddr, bytes8_toNat]; rfl⟩
  -- the fixed formats
  all_goals
    simp only [Shape.Encodes] at henc
    simp [henc, encHalf_be16, encWord_be32]

/-- Settles O5: what the decoder reads (`decode_ok_cases`) is written again by the encoder, since opcode map and
encoder agree on the opcode's format (`shapeOf_encodes`). -/
theorem encodeOfDecode : Obligations.EncodeOfDecode := by
  intro cmd i h
  obtain ⟨op, args, sh, n, rfl, hs, hn, hlen, hi⟩ := decode_ok_cases h
  exact (shapeOf_encodes hs).encode_operands hn hlen hi

/-- Settles O6: each word is the encoding of its command, so it decodes to that command (`decodeOfEncode`). -/
theorem wordsDecodeRight : Obligations.WordsDecodeRight :=
  ⟨decodeOfEncode (.fldSetBits 8 0 3 2) rfl, decodeOfEncode (.fldSetBytes 0x0102 [0xAA, 0xBB]) rfl,
    decodeOfEncode (.csumCompute 24 1) rfl, decodeOfEncode (.tc16Decode 0x986A) rfl,
    decodeOfEncode (.grDecode 16 0) rfl, decodeOfEncode (.msgSetGroup [0xE0, 0x01, 0x02, 0x03]) rfl,
    decodeOfEncode (.msgEncode 12) rfl, decodeOfEncode (.regRegister 0 0x16 2) rfl, decodeOfEncode (.parse 1) rfl⟩

/-! Bytes that are no command. -/

/-- An opcode in the map of R112 is none of those R114 leaves unassigned. -/
theorem shapeOf_assigned {op : Byte} {sh : Shape} (h : shapeOf op = some sh) : ¬ unassignedOpcode op.toNat := by
  unfold shapeOf at h
  split at h
  -- no opcode of the map
  case h_70 => cases h
  all_goals
    rename_i hop
    rw [hop]
    decide

/-- The bytes that R113 and R114 call illegal do not decode: what decodes is the encoding of a well-formed command and
so starts with an assigned opcode. -/
theorem decode_rejects {cmd : List Byte}
    (h : cmd = [] ∨ (∃ op args, cmd = op :: args ∧ unassignedOpcode op.toNat) ∨
      ∀ i : Instr, i.wf = true → encode i ≠ cmd) (i : Instr) : decode cmd ≠ .ok i := by
  intro hd
  obtain ⟨op, args, sh, n, hcmd, hs, -⟩ := decode_ok_cases hd
  rcases h with hnil | ⟨op', args', hcmd', hun⟩ | hnot
  · cases hnil.symm.trans hcmd
  · cases hcmd'.symm.trans hcmd
    exact shapeOf_assigned hs hun
  · obtain ⟨hwf, henc⟩ := encodeOfDecode cmd i hd
    exact hnot i hwf henc

/-! One step. -/

theorem step_idle {s : State} (h : s.inputs = []) : step s = .next s := by
  simp only [step, runInput, h]

theorem step_frame {s : State} {f : Frame} {rest : List HostInput} (h : s.inputs = .frame f :: rest) :
    step s = runFrame f { s with inputs := rest } := by
  simp only [step, runInput, h]

/-- Settles O8: of the three things a frame can do, an unfaulted block does not answer an old fault, and a frame that
is illegal in one of these ways holds no command to run. -/
theorem illegalFramesFault : Obligations.IllegalFramesFault := by
  intro s f rest hin hfault hbad
  rw [step_frame hin]
  rcases runFrame_cases f { s with inputs := rest } with ⟨hf, -⟩ | ⟨-, -, hrun⟩ | ⟨-, hctx, i, hd, -⟩
  · cases hf.symm.trans hfault
  · exact hrun
  · rcases hbad with hno | hcmd
    · exact absurd hctx (Nat.not_lt.mpr hno)
    · exact absurd hd (decode_rejects hcmd i)

/-- Settles O7: an unfaulted block, a context that exists and bytes that decode leave only the third case of
`runFrame_cases`. -/
theorem stepRunsDecodedCommand : Obligations.StepRunsDecodedCommand := by
  refine ⟨fun s f rest i hin hfault hctx hd => ⟨?_, s.ctxs[f.ctx.toNat], ?_⟩, fun s hin => step_idle hin⟩
  · rw [step_frame hin]
    rcases runFrame_cases f { s with inputs := rest } with ⟨hf, -⟩ | ⟨-, hno | ⟨e, he⟩, -⟩ | ⟨-, -, j, hj, hrun⟩
    · cases hf.symm.trans hfault
    · exact absurd hctx (Nat.not_lt.mpr hno)
    · cases he.symm.trans hd
    · cases hj.symm.trans hd
      exact hrun
  · have hsome : s.ctxs[f.ctx.toNat]? = some s.ctxs[f.ctx.toNat] := List.getElem?_eq_getElem hctx
    exact ⟨hsome, hsome⟩

end Sys2Proof
end

section
/-! PROOFS. The field codec (R140 to R154), the part that other families use too: which bytes a set stores and a get
answers, said once for every command that is one of them; bit-fields as bits of a byte; and sets that commute. -/

namespace Sys2Proof.Machine

/-! The bytes of an operand. -/

theorem ofNat_div_two_pow (v : Word) (k : Nat) : BitVec.ofNat 8 (v.toNat / 2 ^ k) = v.extractLsb' k 8 := by
  rw [← Nat.shiftRight_eq_div_pow]; rfl

theorem bytes8_word (v : Word) : bytes8 v.toNat = [v.extractLsb' 0 8] := rfl

theorem bytes16_word (v : Word) : bytes16 v.toNat = [v.extractLsb' 8 8, v.extractLsb' 0 8] := by
  rw [bytes16, ofNat_div_two_pow]; rfl

theorem bytes32_word (v : Word) :
    bytes32 v.toNat = [v.extractLsb' 24 8, v.extractLsb' 16 8, v.extractLsb' 8 8, v.extractLsb' 0 8] := by
  rw [bytes32, ofNat_div_two_pow, ofNat_div_two_pow, ofNat_div_two_pow]; rfl

theorem bytes8_mod (n : Nat) : bytes8 (n % 2 ^ 8) = bytes8 n := by
  simp only [bytes8, List.cons.injEq, and_true]
  apply BitVec.eq_of_toNat_eq; simp only [BitVec.toNat_ofNat]; omega

theorem bytes16_mod (n : Nat) : bytes16 (n % 2 ^ 16) = bytes16 n := by
  simp only [bytes16, List.cons.injEq, and_true]
  constructor <;> apply BitVec.eq_of_toNat_eq <;> simp only [BitVec.toNat_ofNat] <;> omega

/-! Stored byte strings. -/

theorem Memory.storedAt_writeBytes {m : Memory} (h : m.wf = true) (off : Nat) (bs : List Byte) :
    StoredAt m off bs (m.writeBytes off bs) :=
  ⟨Memory.wf_writeBytes h off bs, fun a => Memory.read_writeBytes h off a bs⟩

/-- Byte strings that do not overlap can be stored in either order. -/
theorem Memory.writeBytes_comm {m : Memory} (h : m.wf = true) {o₁ o₂ : Nat} {d₁ d₂ : List Byte}
    (disjoint : o₁ + d₁.length ≤ o₂ ∨ o₂ + d₂.length ≤ o₁) :
    (m.writeBytes o₁ d₁).writeBytes o₂ d₂ = (m.writeBytes o₂ d₂).writeBytes o₁ d₁ := by
  have h₁ := Memory.wf_writeBytes h o₁ d₁
  have h₂ := Memory.wf_writeBytes h o₂ d₂
  refine Memory.eq_of_read (Memory.wf_writeBytes h₁ o₂ d₂) (Memory.wf_writeBytes h₂ o₁ d₁) fun x => ?_
  rw [Memory.read_writeBytes h₁, Memory.read_writeBytes h, Memory.read_writeBytes h₂, Memory.read_writeBytes h]
  by_cases hx : o₂ ≤ x ∧ x < o₂ + d₂.length
  · rw [if_pos hx, if_pos hx, if_neg (by omega)]
  · rw [if_neg hx, if_neg hx]

/-- Of two bytes stored at the same place, the later one stays. -/
theorem Memory.write_write_same {m : Memory} (h : m.wf = true) (a : Nat) (b b' : Byte) :
    (m.write a b).write a b' = m.write a b' := by
  have hb := Memory.wf_write h a b
  refine Memory.eq_of_read (Memory.wf_write hb a b') (Memory.wf_write h a b') fun x => ?_
  rw [Memory.read_write hb, Memory.read_write h, Memory.read_write h]
  split_ifs <;> rfl

/-- Bytes at two places can be stored in either order. -/
theorem Memory.write_comm {m : Memory} (h : m.wf = true) {a a' : Nat} (hne : a ≠ a') (b b' : Byte) :
    (m.write a b).write a' b' = (m.write a' b').write a b :=
  Memory.writeBytes_comm h (d₁ := [b]) (d₂ := [b']) (by simp only [List.length_singleton]; omega)

/-! Bit-fields of a byte (R62). -/

theorem bitsLegal_iff {sh w : Byte} : bitsLegal sh w = true ↔ 1 ≤ w.toNat ∧ sh.toNat + w.toNat ≤ 8 := by
  simp only [bitsLegal, decide_eq_true_eq]; omega

theorem bitsLegal_false_iff {sh w : Byte} : bitsLegal sh w = false ↔ w.toNat < 1 ∨ 8 < sh.toNat + w.toNat := by
  rw [← Bool.not_eq_true, bitsLegal_iff]; omega

theorem bitsLegal_of_not {sh w : Byte} (h : ¬(w.toNat < 1 ∨ 8 < sh.toNat + w.toNat)) : bitsLegal sh w = true :=
  Bool.of_not_eq_false fun hbad => h (bitsLegal_false_iff.mp hbad)

theorem bitsOf_eq (b sh w : Nat) : bitsOf b sh w = b / 2 ^ sh % 2 ^ w := by
  rw [bitsOf, Nat.and_two_pow_sub_one_eq_mod, Nat.shiftRight_eq_div_pow]

/-- A replaced field: the operand's bits inside it, the byte's own outside. -/
theorem testBit_bitsInto {b sh w v k : Nat} (hfit : sh + w ≤ 8) (hk : k < 8) :
    (bitsInto b sh w v).testBit k = if sh ≤ k ∧ k < sh + w then v.testBit (k - sh) else b.testBit k := by
  have hmask : (2 ^ w - 1) <<< sh < 2 ^ 8 := by
    have hw : 2 ^ w - 1 < 2 ^ w := Nat.sub_lt (Nat.two_pow_pos w) Nat.one_pos
    calc (2 ^ w - 1) <<< sh = (2 ^ w - 1) * 2 ^ sh := Nat.shiftLeft_eq _ _
      _ < 2 ^ w * 2 ^ sh := Nat.mul_lt_mul_of_pos_right hw (Nat.two_pow_pos sh)
      _ = 2 ^ (w + sh) := (Nat.pow_add 2 w sh).symm
      _ ≤ 2 ^ 8 := Nat.pow_le_pow_right (by decide) (by omega)
  have hrest : (0xFF - (2 ^ w - 1) <<< sh).testBit k = !((2 ^ w - 1) <<< sh).testBit k := by
    rw [show 0xFF - (2 ^ w - 1) <<< sh = 2 ^ 8 - ((2 ^ w - 1) <<< sh + 1) by omega,
      Nat.testBit_two_pow_sub_succ hmask]
    simp [hk]
  simp only [bitsInto, Nat.testBit_or, Nat.testBit_and, hrest]
  simp only [Nat.testBit_shiftLeft, Nat.testBit_two_pow_sub_one]
  by_cases hlo : sh ≤ k
  · by_cases hhi : k < sh + w
    · simp [hlo, hhi, show k - sh < w by omega]
    · simp [hhi, show ¬k - sh < w by omega]
  · simp [hlo]

/-- The byte that `FLD_SET_BITS` stores in place of `b` (R151). -/
def bitsByte (b sh w : Byte) (v : Word) : Byte := BitVec.ofNat 8 (bitsInto b.toNat sh.toNat w.toNat v.toNat)

theorem getLsbD_bitsByte {b sh w : Byte} {v : Word} (hfit : sh.toNat + w.toNat ≤ 8) {k : Nat} (hk : k < 8) :
    (bitsByte b sh w v).getLsbD k =
      if sh.toNat ≤ k ∧ k < sh.toNat + w.toNat then v.getLsbD (k - sh.toNat) else b.getLsbD k := by
  rw [bitsByte, BitVec.getLsbD_ofNat, testBit_bitsInto hfit hk]
  simp [hk, BitVec.getLsbD]

/-- The field just set reads as the operand's low bits. -/
theorem bitsOf_bitsByte {b sh w : Byte} {v : Word} (hfit : sh.toNat + w.toNat ≤ 8) :
    bitsOf (bitsByte b sh w v).toNat sh.toNat w.toNat = v.toNat % 2 ^ w.toNat := by
  refine Nat.eq_of_testBit_eq fun k => ?_
  rw [bitsOf, Nat.testBit_and, Nat.testBit_shiftRight, Nat.testBit_two_pow_sub_one, Nat.testBit_mod_two_pow]
  by_cases hk : k < w.toNat
  · have hbit : (bitsByte b sh w v).toNat.testBit (sh.toNat + k) = v.toNat.testBit k := by
      have hb := getLsbD_bitsByte (b := b) (v := v) hfit (show sh.toNat + k < 8 by omega)
      rwa [if_pos (by omega), Nat.add_sub_cancel_left] at hb
    simp [hk, hbit]
  · simp [hk]

/-- Fields of different bits of one byte can be replaced in either order. -/
theorem bitsByte_comm {b sh₁ w₁ sh₂ w₂ : Byte} {v₁ v₂ : Word} (hfit₁ : sh₁.toNat + w₁.toNat ≤ 8)
    (hfit₂ : sh₂.toNat + w₂.toNat ≤ 8)
    (disjoint : sh₁.toNat + w₁.toNat ≤ sh₂.toNat ∨ sh₂.toNat + w₂.toNat ≤ sh₁.toNat) :
    bitsByte (bitsByte b sh₁ w₁ v₁) sh₂ w₂ v₂ = bitsByte (bitsByte b sh₂ w₂ v₂) sh₁ w₁ v₁ := by
  refine BitVec.eq_of_getLsbD_eq fun k hk => ?_
  rw [getLsbD_bitsByte hfit₂ hk, getLsbD_bitsByte hfit₁ hk, getLsbD_bitsByte hfit₁ hk, getLsbD_bitsByte hfit₂ hk]
  by_cases hin : sh₂.toNat ≤ k ∧ k < sh₂.toNat + w₂.toNat
  · rw [if_pos hin, if_pos hin, if_neg (by omega)]
  · rw [if_neg hin, if_neg hin]

/-- The buffer after `FLD_SET_BITS` (R151). -/
def Memory.setBits (m : Memory) (off : Nat) (sh w : Byte) (v : Word) : Memory :=
  m.write off (bitsByte (m.read off) sh w v)

theorem Memory.read_setBits {m : Memory} (h : m.wf = true) (off x : Nat) (sh w : Byte) (v : Word) :
    (m.setBits off sh w v).read x = if x = off then bitsByte (m.read off) sh w v else m.read x :=
  Memory.read_write h off x _

/-- Bit-fields of different bytes, or of different bits of one byte, can be set in either order: the second set sees
what the first left at its byte. -/
theorem Memory.setBits_comm {m : Memory} (h : m.wf = true) {o₁ o₂ : Nat} {sh₁ w₁ sh₂ w₂ : Byte} {v₁ v₂ : Word}
    (hfit₁ : sh₁.toNat + w₁.toNat ≤ 8) (hfit₂ : sh₂.toNat + w₂.toNat ≤ 8)
    (disjoint : o₁ ≠ o₂ ∨ sh₁.toNat + w₁.toNat ≤ sh₂.toNat ∨ sh₂.toNat + w₂.toNat ≤ sh₁.toNat) :
    (m.setBits o₁ sh₁ w₁ v₁).setBits o₂ sh₂ w₂ v₂ = (m.setBits o₂ sh₂ w₂ v₂).setBits o₁ sh₁ w₁ v₁ := by
  simp only [Memory.setBits, Memory.read_write h]
  by_cases ho : o₁ = o₂
  · subst ho
    rw [if_pos rfl, if_pos rfl, Memory.write_write_same h, Memory.write_write_same h,
      bitsByte_comm hfit₁ hfit₂ (disjoint.resolve_left (· rfl))]
  · rw [if_neg (Ne.symm ho), if_neg ho]
    exact Memory.write_comm h ho _ _

/-! Gets. -/

/-- The command is a get of `n` bytes at `off` (R144 to R146). -/
def GetsField (i : Instr) (off n : Nat) : Prop := ∀ s, exec i s = s.runCtx fun c => c.getField off n

theorem fldGetU8_gets (off : Half) : GetsField (.fldGetU8 off) off.toNat 1 := fun _ => rfl
theorem fldGetU16_gets (off : Half) : GetsField (.fldGetU16 off) off.toNat 2 := fun _ => rfl
theorem fldGetU32_gets (off : Half) : GetsField (.fldGetU32 off) off.toNat 4 := fun _ => rfl

section
variable {s : State} {c : Context} {i : Instr} {off n : Nat}

theorem GetsField.inside (hi : GetsField i off n) (hc : s.ctx? = some c) (h : off + n ≤ c.bufLen) :
    exec i s = .next (s.emit (0x00 :: c.buf.readBytes off n)) :=
  (hi s).trans (State.runCtx_read hc (Context.getField_ok h))

theorem GetsField.outside (hi : GetsField i off n) (hc : s.ctx? = some c) (h : c.bufLen < off + n) :
    exec i s = .next (s.emit [0x01]) :=
  (hi s).trans (State.runCtx_error (e := .bufferTooShort) hc (Context.getField_short h))

end

/-! Sets. -/

/-- After a command's answer, the frame's context is the one it wrote. -/
theorem State.ctx?_setCtx_emit {s : State} {c c' : Context} (hc : s.ctx? = some c) (r : List Byte) :
    ((s.setCtx c').emit r).ctx? = some c' := State.ctx?_setCtx hc

/-- The command is a set of a byte string at `off` (R147 to R149, R153). -/
def SetsField (i : Instr) (off : Nat) (bytes : List Byte) : Prop :=
  ∀ s, exec i s = s.runCtx fun c => c.setField off bytes

theorem fldSetU8_sets (off : Half) (v : Word) : SetsField (.fldSetU8 off v) off.toNat (bytes8 v.toNat) := fun _ => rfl
theorem fldSetU16_sets (off : Half) (v : Word) : SetsField (.fldSetU16 off v) off.toNat (bytes16 v.toNat) :=
  fun _ => rfl
theorem fldSetU32_sets (off : Half) (v : Word) : SetsField (.fldSetU32 off v) off.toNat (bytes32 v.toNat) :=
  fun _ => rfl
theorem fldSetBytes_sets (off : Half) (data : List Byte) : SetsField (.fldSetBytes off data) off.toNat data :=
  fun _ => rfl

/-- Run in a context that differs from `c` in its buffer's bytes at most, the command answers OK and leaves the context
with the buffer that `store` makes of the one it had. -/
def StoresBuf (i : Instr) (c : Context) (store : Memory → Memory) : Prop :=
  ∀ (s : State) (b : Memory), s.ctx? = some { c with buf := b } →
    exec i s = .next ((s.setCtx { c with buf := store b }).emit [0x00])

section
variable {s : State} {c : Context} {i : Instr} {off : Nat} {bytes : List Byte}

theorem SetsField.outside (hi : SetsField i off bytes) (hc : s.ctx? = some c) (h : c.bufLen < off + bytes.length) :
    exec i s = .next (s.emit [0x01]) :=
  (hi s).trans (State.runCtx_error (e := .bufferTooShort) hc (Context.setField_short h))

theorem SetsField.storesBuf (hi : SetsField i off bytes) (h : off + bytes.length ≤ c.bufLen) :
    StoresBuf i c (·.writeBytes off bytes) :=
  fun s b hb => (hi s).trans (State.runCtx_ok hb (Context.setField_ok (c := { c with buf := b }) h))

/-- A set in bounds stores its bytes, and nothing else. -/
theorem SetsField.inside (hi : SetsField i off bytes) (hc : s.ctx? = some c) (hwf : c.buf.wf = true)
    (h : off + bytes.length ≤ c.bufLen) :
    ∃ b, StoredAt c.buf off bytes b ∧ exec i s = .next ((s.setCtx { c with buf := b }).emit [0x00]) :=
  ⟨_, Memory.storedAt_writeBytes hwf off bytes, hi.storesBuf h s c.buf hc⟩

/-- A get of the bytes just set answers them. -/
theorem SetsField.get {j : Instr} (hi : SetsField i off bytes) (hj : GetsField j off bytes.length)
    (hc : s.ctx? = some c) (hwf : c.buf.wf = true) (h : off + bytes.length ≤ c.bufLen) :
    ∃ t, exec i s = .next t ∧ exec j t = .next (t.emit (0x00 :: bytes)) := by
  refine ⟨_, hi.storesBuf h s c.buf hc, ?_⟩
  rw [hj.inside (c := { c with buf := c.buf.writeBytes off bytes }) (State.ctx?_setCtx_emit hc _) h,
    Memory.readBytes_writeBytes hwf]

/-- Two sets whose stores commute on the buffer commute on the whole state. -/
theorem StoresBuf.commute {j : Instr} {f g : Memory → Memory} (hi : StoresBuf i c f) (hj : StoresBuf j c g)
    (hc : s.ctx? = some c) (hcomm : g (f c.buf) = f (g c.buf)) :
    ∃ t₁ t₂ t, exec i s = .next t₁ ∧ exec j s = .next t₂ ∧ exec j t₁ = .next t ∧ exec i t₂ = .next t := by
  refine ⟨_, _, _, hi s c.buf hc, hj s c.buf hc, hj _ (f c.buf) (State.ctx?_setCtx_emit hc _), ?_⟩
  rw [hi _ (g c.buf) (State.ctx?_setCtx_emit hc _), hcomm]
  simp [State.setCtx, State.emit]

end

/-! Bit-field commands. -/

section
variable {s : State} {c : Context} {off : Half} {sh w : Byte}

theorem fldGetBits_illegal (hc : s.ctx? = some c) (h : bitsLegal sh w = false) :
    exec (.fldGetBits off sh w) s = .next (s.emit [0x14]) :=
  State.runCtx_error (e := .invalidOperand) hc (if_pos h)

theorem fldGetBits_outside (hc : s.ctx? = some c) (hleg : bitsLegal sh w = true) (h : c.bufLen < off.toNat + 1) :
    exec (.fldGetBits off sh w) s = .next (s.emit [0x01]) :=
  State.runCtx_error (e := .bufferTooShort) hc (by simp [hleg, Context.bufRead_short h])

theorem fldGetBits_inside (hc : s.ctx? = some c) (hleg : bitsLegal sh w = true) (h : off.toNat + 1 ≤ c.bufLen) :
    exec (.fldGetBits off sh w) s =
      .next (s.emit (0x00 :: bytes8 (bitsOf (c.buf.read off.toNat).toNat sh.toNat w.toNat))) :=
  State.runCtx_read hc (by simp [hleg, Context.bufRead_ok h])

variable {v : Word}

theorem fldSetBits_illegal (hc : s.ctx? = some c) (h : bitsLegal sh w = false) :
    exec (.fldSetBits off sh w v) s = .next (s.emit [0x14]) :=
  State.runCtx_error (e := .invalidOperand) hc (if_pos h)

theorem fldSetBits_outside (hc : s.ctx? = some c) (hleg : bitsLegal sh w = true) (h : c.bufLen < off.toNat + 1) :
    exec (.fldSetBits off sh w v) s = .next (s.emit [0x01]) :=
  State.runCtx_error (e := .bufferTooShort) hc ((if_neg (by simp [hleg])).trans (Context.setField_short h))

theorem fldSetBits_storesBuf (hleg : bitsLegal sh w = true) (h : off.toNat + 1 ≤ c.bufLen) :
    StoresBuf (.fldSetBits off sh w v) c (·.setBits off.toNat sh w v) :=
  fun _ b hb => State.runCtx_ok hb
    ((if_neg (by simp [hleg])).trans (Context.setField_ok (c := { c with buf := b }) h))

end

end Sys2Proof.Machine
end

section
/-! PROOFS. The field codec primitives (R141 to R154): the settled statements of 41_fields.md. Each command's bytes
decode to it because they are its encoding (`decodeOfEncode`). -/

namespace Sys2Proof.Machine

/-! The buffer and its length. -/

/-- Settles O17: the new buffer is the table made of the data. -/
theorem bufLoad : Obligations.BufLoad := by
  intro s c data hc
  refine ⟨fun h => decodeOfEncode (.bufLoad data) (decide_eq_true h), fun h => ?_, fun h => ?_⟩
  · exact ⟨Memory.ofBytes 0 data, Memory.wf_ofBytes 0 data, fun k => by simp [Memory.read_ofBytes],
      State.runCtx_ok hc (if_neg (Nat.not_lt.mpr h))⟩
  · exact State.runCtx_error (e := .bufferTooShort) hc (if_pos h)

/-- Settles O18: the new buffer is the old one with the dropped range cleared. -/
theorem bufSetlen : Obligations.BufSetlen := by
  intro s c n hc hwf
  refine ⟨decodeOfEncode (.bufSetlen n) rfl, fun h => ?_, fun h => ?_⟩
  · exact ⟨c.buf.zeroRange n.toNat c.bufLen, Memory.wf_zeroRange hwf _ _, Memory.read_zeroRange _ _ _,
      State.runCtx_ok hc (if_neg (Nat.not_lt.mpr h))⟩
  · exact State.runCtx_error (e := .bufferTooShort) hc (if_pos h)

/-! Integers. -/

/-- Settles O19: the three reads are gets of 1, 2 and 4 bytes. -/
theorem integerReads : Obligations.IntegerReads := by
  intro s c off hc
  exact ⟨decodeOfEncode .bufGetlen rfl, State.runCtx_read hc rfl,
    decodeOfEncode (.fldGetU8 off) rfl, (fldGetU8_gets off).inside hc, (fldGetU8_gets off).outside hc,
    decodeOfEncode (.fldGetU16 off) rfl, (fldGetU16_gets off).inside hc, (fldGetU16_gets off).outside hc,
    decodeOfEncode (.fldGetU32 off) rfl, (fldGetU32_gets off).inside hc, (fldGetU32_gets off).outside hc⟩

/-- Settles O20: the three writes are sets of the operand's big-endian bytes. -/
theorem integerWrites : Obligations.IntegerWrites := by
  intro s c off v hc hwf
  rw [← bytes32_word, ← bytes16_word, ← bytes8_word]
  exact ⟨decodeOfEncode (.fldSetU8 off v) rfl, (fldSetU8_sets off v).inside hc hwf, (fldSetU8_sets off v).outside hc,
    decodeOfEncode (.fldSetU16 off v) rfl, (fldSetU16_sets off v).inside hc hwf, (fldSetU16_sets off v).outside hc,
    decodeOfEncode (.fldSetU32 off v) rfl, (fldSetU32_sets off v).inside hc hwf, (fldSetU32_sets off v).outside hc⟩

/-! Bit-fields. -/

/-- Settles O21: the field is a quotient and a remainder of the byte, and so is itself below 2^8. -/
theorem bitFieldRead : Obligations.BitFieldRead := by
  intro s c off sh w hc
  refine ⟨decodeOfEncode (.fldGetBits off sh w) rfl, ?_⟩
  split_ifs with hbad hout
  · exact fldGetBits_illegal hc (bitsLegal_false_iff.mpr hbad)
  · exact fldGetBits_outside hc (bitsLegal_of_not hbad) hout
  · refine ⟨_, ?_, fldGetBits_inside hc (bitsLegal_of_not hbad) (Nat.le_of_not_lt hout)⟩
    rw [← bitsOf_eq, BitVec.toNat_ofNat, Nat.mod_eq_of_lt]
    calc bitsOf (c.buf.read off.toNat).toNat sh.toNat w.toNat
      _ ≤ (c.buf.read off.toNat).toNat >>> sh.toNat := Nat.and_le_left
      _ ≤ (c.buf.read off.toNat).toNat := Nat.shiftRight_le _ _
      _ < 2 ^ 8 := (c.buf.read off.toNat).isLt

/-- Settles O22: the byte stored is `bitsByte`, whose bits are known one by one. -/
theorem bitFieldWrite : Obligations.BitFieldWrite := by
  intro s c off sh w v hc hwf
  refine ⟨decodeOfEncode (.fldSetBits off sh w v) rfl, ?_⟩
  split_ifs with hbad hout
  · exact fldSetBits_illegal hc (bitsLegal_false_iff.mpr hbad)
  · exact fldSetBits_outside hc (bitsLegal_of_not hbad) hout
  · have hleg := bitsLegal_of_not hbad
    obtain ⟨-, hfit⟩ := bitsLegal_iff.mp hleg
    exact ⟨bitsByte (c.buf.read off.toNat) sh w v, c.buf.setBits off.toNat sh w v, fun _ => getLsbD_bitsByte hfit,
      Memory.storedAt_writeBytes hwf _ _, fldSetBits_storesBuf hleg (Nat.le_of_not_lt hout) s c.buf hc⟩

/-! Byte arrays. -/

/-- Settles O23: the read's count is the operand itself, as that many bytes are read. -/
theorem byteArrays : Obligations.ByteArrays := by
  intro s c off n data hc hwf
  refine ⟨decodeOfEncode (.fldGetBytes off n) rfl, fun h => ?_, fun h => ?_,
    fun h => decodeOfEncode (.fldSetBytes off data) (decide_eq_true h), (fldSetBytes_sets off data).inside hc hwf,
    (fldSetBytes_sets off data).outside hc⟩
  · refine ⟨c.buf.readBytes off.toNat n.toNat, Memory.length_readBytes _ _ _, fun k hk => ?_, ?_⟩
    · rw [Memory.getElem?_readBytes, if_pos hk]
    · exact State.runCtx_read hc (by simp [Context.bufRead_ok h, payloadBytes])
  · exact State.runCtx_error (e := .bufferTooShort) hc (by rw [Context.bufRead_short h])

/-! Laws (R154). -/

/-- Settles O24: an integer get answers the bytes just set, which are those of the operand modulo 2 to the width; a
bit-field get reads the byte just stored. -/
theorem getAfterSet : Obligations.GetAfterSet := by
  intro s c off v sh w hc hwf
  rw [bytes8_mod, bytes16_mod]
  refine ⟨(fldSetU8_sets off v).get (fldGetU8_gets off) hc hwf, (fldSetU16_sets off v).get (fldGetU16_gets off) hc hwf,
    (fldSetU32_sets off v).get (fldGetU32_gets off) hc hwf, fun hw hfit h => ?_⟩
  have hleg := bitsLegal_iff.mpr ⟨hw, hfit⟩
  refine ⟨_, fldSetBits_storesBuf hleg h s c.buf hc, ?_⟩
  rw [fldGetBits_inside (c := { c with buf := c.buf.setBits off.toNat sh w v }) (State.ctx?_setCtx_emit hc _) hleg h,
    Memory.read_setBits hwf, if_pos rfl, bitsOf_bitsByte hfit]

/-- Settles O25: the stores commute on the buffer, by its bytes or by the bits of one byte. -/
theorem disjointSetsCommute : Obligations.DisjointSetsCommute := by
  intro s c hc hwf
  refine ⟨fun o₁ o₂ d₁ d₂ h₁ h₂ disjoint => ?_, fun o₁ o₂ sh₁ w₁ sh₂ w₂ v₁ v₂ h₁ h₂ hw₁ hfit₁ hw₂ hfit₂ disjoint => ?_,
    fun off v => ⟨rfl, rfl, rfl⟩⟩
  · exact ((fldSetBytes_sets o₁ d₁).storesBuf h₁).commute ((fldSetBytes_sets o₂ d₂).storesBuf h₂) hc
      (Memory.writeBytes_comm hwf disjoint)
  · exact (fldSetBits_storesBuf (bitsLegal_iff.mpr ⟨hw₁, hfit₁⟩) h₁).commute
      (fldSetBits_storesBuf (bitsLegal_iff.mpr ⟨hw₂, hfit₂⟩) h₂) hc
      (Memory.setBits_comm hwf hfit₁ hfit₂ (disjoint.imp_left (mt BitVec.eq_of_toNat_eq)))

end Sys2Proof.Machine
end

section
/-! PROOFS. The value of a checksum (R170 to R174): the word sum of a byte string as a sum over its words, the sum the
checksum engine folds as the sum the statements write, and what a single changed byte does to it. -/

namespace Sys2Proof.Machine

/-! Word sums as sums over the words. -/

/-- Word `k` of a byte string stands at bytes `2k` and `2k + 1`; a byte that is not there counts as 0 (R170, R172). -/
theorem wordSum_eq_sum (d : List Byte) :
    wordSum d = ((List.range ((d.length + 1) / 2)).map fun k =>
      (d.getD (2 * k) 0).toNat * 256 + (d.getD (2 * k + 1) 0).toNat).sum := by
  induction d using wordSum.induct with
  | case1 => rfl
  | case2 hi => simp [wordSum]
  | case3 hi lo rest ih =>
    have hwords : ((hi :: lo :: rest).length + 1) / 2 = (rest.length + 1) / 2 + 1 := by
      simp only [List.length_cons]; omega
    have hword : ∀ k, 2 * (k + 1) = 2 * k + 1 + 1 := fun k => Nat.mul_succ 2 k
    rw [hwords, List.range_succ_eq_map]
    simp only [List.map_cons, List.map_map, List.sum_cons, Function.comp_def, Nat.succ_eq_add_one, hword, Nat.mul_zero,
      List.getD_cons_zero, List.getD_cons_succ, wordSum, ih]

theorem wordSum_address {addr : List Byte} (h : addr.length = 16) : wordSum addr = addrSum addr := by
  rw [wordSum_eq_sum, h]; rfl

/-! The sum of a span (R170, R172, R173). -/

@[simp] theorem length_zeroChecksumField (d : List Byte) : (zeroChecksumField d).length = d.length := by
  simp [zeroChecksumField]

/-- The bytes of the span as they are summed. -/
theorem getElem?_zeroChecksumField (b : Memory) (len k : Nat) :
    (zeroChecksumField (b.readBytes 0 len))[k]? =
      if k < len then some (if k = 2 ∨ k = 3 then 0 else b.read k) else none := by
  simp only [zeroChecksumField, List.getElem?_set, List.length_set, Memory.length_readBytes, Memory.getElem?_readBytes,
    Nat.zero_add]
  by_cases h3 : 3 = k
  · simp [← h3]
  · by_cases h2 : 2 = k
    · simp [← h2]
    · simp [h2, h3, Ne.symm h2, Ne.symm h3]

/-- What the engine sums of byte `k` is what the statements say of it. -/
theorem getD_zeroChecksumField (b : Memory) (len k : Nat) :
    ((zeroChecksumField (b.readBytes 0 len)).getD k 0).toNat = spanByte b len k := by
  rw [List.getD_eq_getElem?_getD, getElem?_zeroChecksumField, spanByte]
  by_cases hk : k < len
  · by_cases hfield : k = 2 ∨ k = 3
    · rw [if_pos hk, if_pos hfield, if_neg (by omega)]; rfl
    · rw [if_pos hk, if_neg hfield, if_pos (by omega)]; rfl
  · rw [if_neg hk, if_neg (by omega)]; rfl

theorem wordSum_zeroChecksumField (b : Memory) (len : Nat) :
    wordSum (zeroChecksumField (b.readBytes 0 len)) = spanSum b len := by
  simp only [wordSum_eq_sum, length_zeroChecksumField, Memory.length_readBytes, getD_zeroChecksumField, spanSum]

/-- The sum of a span is that of its bytes outside the checksum field. -/
theorem spanSum_congr {b b' : Memory} {len : Nat} (h : ∀ k, k < len → k ≠ 2 → k ≠ 3 → b.read k = b'.read k) :
    spanSum b len = spanSum b' len := by
  have hbyte : ∀ k, spanByte b len k = spanByte b' len k := fun k => by
    rw [spanByte, spanByte]
    split_ifs with hk
    · obtain ⟨hlt, h2, h3⟩ := hk
      rw [h k hlt h2 h3]
    · rfl
  simp only [spanSum, hbyte]

/-- A byte stored in the span, outside the checksum field, is set in the byte string that is summed. -/
theorem zeroChecksumField_write {m : Memory} (h : m.wf = true) {k len : Nat} (h2 : k ≠ 2) (h3 : k ≠ 3) (x : Byte) :
    zeroChecksumField ((m.write k x).readBytes 0 len) = (zeroChecksumField (m.readBytes 0 len)).set k x := by
  refine List.ext_getElem? fun j => ?_
  rw [getElem?_zeroChecksumField, List.getElem?_set, getElem?_zeroChecksumField, Memory.read_write h,
    length_zeroChecksumField, Memory.length_readBytes]
  by_cases hj : k = j
  · rw [← hj, if_neg (show ¬(k = 2 ∨ k = 3) by omega), if_pos rfl, if_pos rfl]
  · rw [if_neg hj, if_neg (Ne.symm hj)]

/-- Storing a byte in the span, outside the checksum field, exchanges its weight in the sum. -/
theorem spanSum_write {m : Memory} (h : m.wf = true) {k len : Nat} (hk : k < len) (h2 : k ≠ 2) (h3 : k ≠ 3) (x : Byte) :
    spanSum (m.write k x) len + (m.read k).toNat * (if k % 2 = 0 then 256 else 1) =
      spanSum m len + x.toNat * (if k % 2 = 0 then 256 else 1) := by
  have hold : ((zeroChecksumField (m.readBytes 0 len)).getD k 0).toNat = (m.read k).toNat := by
    rw [getD_zeroChecksumField, spanByte, if_pos ⟨hk, h2, h3⟩]
  have hset := wordSum_set (zeroChecksumField (m.readBytes 0 len)) k x (by simpa using hk)
  rwa [hold, ← zeroChecksumField_write h h2 h3, wordSum_zeroChecksumField, wordSum_zeroChecksumField] at hset

/-! The sum of the pseudo-header (R174). -/

/-- The pseudo-header adds the words of the addresses, of the length and of the next header. -/
theorem pseudoSum_true {src dst : List Byte} (hs : src.length = 16) (hd : dst.length = 16) (len : Nat) :
    pseudoSum src dst len true = addrSum src + addrSum dst + wordSum (bytes32 len) + 58 := by
  have hnext : wordSum [0, 0, 0, 58] = 58 := rfl
  rw [pseudoSum, if_pos rfl, pseudoHeader, wordSum_append (by simp [hs, hd]), wordSum_append (by simp [hs, hd]),
    wordSum_append (by simp [hs]), wordSum_address hs, wordSum_address hd, hnext]

theorem wordSum_bytes32 {n : Nat} (h : n < 2 ^ 32) : wordSum (bytes32 n) = n / 65536 + n % 65536 := by
  simp only [bytes32, wordSum, BitVec.toNat_ofNat]; omega

theorem pseudoSum_eq_headerSum {src dst : List Byte} (hs : src.length = 16) (hd : dst.length = 16) {len : Nat}
    (h : len < 2 ^ 32) : pseudoSum src dst len true = headerSum src dst len := by
  rw [pseudoSum_true hs hd, wordSum_bytes32 h, headerSum]; omega

/-! The checksum of a context (R170, R171). -/

theorem isChecksumOf_fold (sum : Nat) : IsChecksumOf sum (0xFFFF - foldCarries sum) := by
  obtain ⟨hlt, hmod, hzero⟩ := foldCarries_spec sum
  exact ⟨Nat.sub_le _ _, by omega, by omega⟩

/-- The sum that the checksum of a context folds. -/
def Context.csumSum (c : Context) (len : Nat) (p : Bool) : Nat := pseudoSum c.src c.dst len p + spanSum c.buf len

theorem Context.csum_eq (c : Context) (len : Nat) (p : Bool) :
    c.csum len p = 0xFFFF - foldCarries (c.csumSum len p) := by
  rw [Context.csum, checksumOf, wordSum_zeroChecksumField, Memory.length_readBytes, Context.csumSum]

theorem Context.isChecksumOf_csum (c : Context) (len : Nat) (p : Bool) :
    IsChecksumOf (c.csumSum len p) (c.csum len p) := by
  rw [Context.csum_eq]
  exact isChecksumOf_fold _

theorem Context.csumSum_false (c : Context) (len : Nat) : c.csumSum len false = spanSum c.buf len := by
  simp [Context.csumSum, pseudoSum]

/-- Equal checksums go with sums that agree modulo 0xFFFF. -/
theorem IsChecksumOf.mod_eq {a b v : Nat} (ha : IsChecksumOf a v) (hb : IsChecksumOf b v) : a % 0xFFFF = b % 0xFFFF :=
  let ⟨_, hamod, _⟩ := ha
  let ⟨_, hbmod, _⟩ := hb
  hamod.symm.trans hbmod

/-- Storing a checksum changes no checksum: its own field is summed as 0 (R173). -/
theorem Context.csum_storeChecksum {c : Context} (h : c.buf.wf = true) (v len : Nat) (p : Bool) :
    (c.storeChecksum v).csum len p = c.csum len p :=
  Context.csum_congr (c := c.storeChecksum v) (c' := c) rfl rfl
    (fun k _ h2 h3 => Memory.read_writeBytes_outside h (by rw [bytes16_length]; omega)) p

/-- Another value in a byte of the span outside the checksum field gives another checksum: the sum moves by less than
0xFFFF. -/
theorem Context.csum_write_ne {c : Context} (h : c.buf.wf = true) {k len : Nat} (hk : k < len) (h2 : k ≠ 2) (h3 : k ≠ 3)
    {x : Byte} (hx : x ≠ c.buf.read k) (p : Bool) :
    ({ c with buf := c.buf.write k x } : Context).csum len p ≠ c.csum len p := by
  intro heq
  have hmod := (Context.isChecksumOf_csum { c with buf := c.buf.write k x } len p).mod_eq
    (heq ▸ c.isChecksumOf_csum len p)
  have hsum := spanSum_write h hk h2 h3 x
  have hne : x.toNat ≠ (c.buf.read k).toNat := fun hn => hx (BitVec.eq_of_toNat_eq hn)
  have hnew := x.isLt
  have hold := (c.buf.read k).isLt
  simp only [Context.csumSum] at hmod
  split_ifs at hsum <;> omega

end Sys2Proof.Machine
end

section
/-! PROOFS. The checksum commands (R175 to R179): the checks the three of them share and what each does past them. -/

namespace Sys2Proof.Machine

/-! The pseudo-header operand (R115). -/

theorem pseudoOf_illegal {p : Byte} (h : 1 < p.toNat) : pseudoOf p = none := by
  unfold pseudoOf
  split
  · omega
  · omega
  · rfl

theorem pseudoOf_legal {p : Byte} (h : ¬1 < p.toNat) : pseudoOf p = some (decide (p = 1)) := by
  have hp : p = 0 ∨ p = 1 := by bv_omega
  rcases hp with rfl | rfl <;> rfl

/-! The checks that the three commands share. -/

/-- A checksum command's rule: the operand's check, the bounds check, and the result. -/
def csumRule (p : Byte) (short : Context → Prop) [DecidablePred short] (result : Bool → Context → Context × List Byte)
    (c : Context) : CmdResult :=
  match pseudoOf p with
  | none => .error .invalidOperand
  | some ph => if short c then .error .bufferTooShort else .ok (result ph c)

/-- The command is a checksum command with the given bounds check and result. -/
def RunsCsum (i : Instr) (p : Byte) (short : Context → Prop) [DecidablePred short]
    (result : Bool → Context → Context × List Byte) : Prop :=
  ∀ s, exec i s = s.runCtx (csumRule p short result)

section
variable {i : Instr} {p : Byte} {short : Context → Prop} [DecidablePred short]
  {result : Bool → Context → Context × List Byte} {s : State} {c : Context}

theorem RunsCsum.illegal (hi : RunsCsum i p short result) (hc : s.ctx? = some c) (hp : 1 < p.toNat) :
    exec i s = .next (s.emit [0x14]) :=
  (hi s).trans (State.runCtx_error (e := .invalidOperand) hc (by simp [csumRule, pseudoOf_illegal hp]))

theorem RunsCsum.outside (hi : RunsCsum i p short result) (hc : s.ctx? = some c) (hp : ¬1 < p.toNat) (h : short c) :
    exec i s = .next (s.emit [0x01]) :=
  (hi s).trans (State.runCtx_error (e := .bufferTooShort) hc (by simp [csumRule, pseudoOf_legal hp, h]))

theorem RunsCsum.inside (hi : RunsCsum i p short result) (hc : s.ctx? = some c) (hp : ¬1 < p.toNat) (h : ¬short c) :
    exec i s = .next ((s.setCtx (result (decide (p = 1)) c).1).emit (0x00 :: (result (decide (p = 1)) c).2)) :=
  (hi s).trans (State.runCtx_ok hc (by simp [csumRule, pseudoOf_legal hp, h]))

end

/-! The three commands. -/

/-- The bounds check of the commands that use the checksum field (R178, R179). -/
abbrev Context.ShortForField (len : Half) (c : Context) : Prop := c.bufLen < len.toNat ∨ c.bufLen < 4

theorem csumCompute_runs (len : Half) (p : Byte) :
    RunsCsum (.csumCompute len p) p (fun c => c.bufLen < len.toNat)
      fun ph c => (c, bytes16 (c.csum len.toNat ph)) := fun _ => rfl

theorem csumVerify_runs (len : Half) (p : Byte) :
    RunsCsum (.csumVerify len p) p (Context.ShortForField len)
      fun ph c => (c, bytes8 (if c.csum len.toNat ph = c.buf.u16 2 then 1 else 0)) := fun _ => rfl

theorem csumWrite_runs (len : Half) (p : Byte) :
    RunsCsum (.csumWrite len p) p (Context.ShortForField len)
      fun ph c => (c.storeChecksum (c.csum len.toNat ph), bytes16 (c.csum len.toNat ph)) := fun _ => rfl

section
variable {s : State} {c : Context} {len : Half} {p : Byte}

theorem csumVerify_match (hc : s.ctx? = some c) (hp : ¬1 < p.toNat) (h : ¬c.ShortForField len)
    (heq : c.csum len.toNat (decide (p = 1)) = c.buf.u16 2) :
    exec (.csumVerify len p) s = .next (s.emit [0x00, 1]) := by
  rw [(csumVerify_runs len p).inside hc hp h, State.setCtx_self hc, if_pos heq]; rfl

theorem csumVerify_mismatch (hc : s.ctx? = some c) (hp : ¬1 < p.toNat) (h : ¬c.ShortForField len)
    (hne : c.csum len.toNat (decide (p = 1)) ≠ c.buf.u16 2) :
    exec (.csumVerify len p) s = .next (s.emit [0x00, 0]) := by
  rw [(csumVerify_runs len p).inside hc hp h, State.setCtx_self hc, if_neg hne]; rfl

/-- The last response given tells two answers apart. -/
theorem next_emit_inj {r r' : List Byte} (h : (Host.Outcome.next (s.emit r) : StepResult) = .next (s.emit r')) :
    r = r' := by
  have hresp := congrArg State.responses (Host.Outcome.next.inj h)
  simpa using hresp

/-- `CSUM_VERIFY` answers 1 only for a legal operand and the checksum that is stored. -/
theorem csumVerify_answers_one (hc : s.ctx? = some c) (h : ¬c.ShortForField len)
    (hv : exec (.csumVerify len p) s = .next (s.emit [0x00, 1])) :
    ¬1 < p.toNat ∧ c.csum len.toNat (decide (p = 1)) = c.buf.u16 2 := by
  have hp : ¬1 < p.toNat := fun hp => by
    have hr := next_emit_inj (((csumVerify_runs len p).illegal hc hp).symm.trans hv)
    simp at hr
  refine ⟨hp, by_contra fun hne => ?_⟩
  have hr := next_emit_inj ((csumVerify_mismatch hc hp h hne).symm.trans hv)
  simp at hr

end

/-! Storing the checksum. -/

/-- A byte string stored twice at the same place is stored once. -/
theorem Memory.writeBytes_idem {m : Memory} (h : m.wf = true) (a : Nat) (bs : List Byte) :
    (m.writeBytes a bs).writeBytes a bs = m.writeBytes a bs := by
  have h' := Memory.wf_writeBytes h a bs
  refine Memory.eq_of_read (Memory.wf_writeBytes h' a bs) h' fun x => ?_
  rw [Memory.read_writeBytes h', Memory.read_writeBytes h]
  split_ifs <;> rfl

theorem Context.storeChecksum_idem {c : Context} (h : c.buf.wf = true) (v : Nat) :
    (c.storeChecksum v).storeChecksum v = c.storeChecksum v := by
  simp [Context.storeChecksum, Memory.writeBytes_idem h]

theorem Context.u16_storeChecksum_csum {c : Context} (h : c.buf.wf = true) (len : Nat) (p : Bool) :
    (c.storeChecksum (c.csum len p)).buf.u16 2 = c.csum len p :=
  Memory.u16_writeBytes h 2 (Nat.lt_succ_of_le (c.csum_le len p))

/-- One byte of the checksum field, changed, changes the value stored there. -/
theorem Memory.u16_write_ne {m : Memory} (h : m.wf = true) {a k : Nat} (hk : k = a ∨ k = a + 1) {x : Byte}
    (hx : x ≠ m.read k) : (m.write k x).u16 a ≠ m.u16 a := by
  have hne : x.toNat ≠ (m.read k).toNat := fun hn => hx (BitVec.eq_of_toNat_eq hn)
  have hnew := x.isLt
  have hlow := (m.read (a + 1)).isLt
  simp only [Memory.u16, Memory.read_write h]
  rcases hk with rfl | rfl
  · rw [if_pos rfl, if_neg (by omega)]; omega
  · rw [if_neg (by omega), if_pos rfl]; omega

/-- A context whose stored checksum is right has a wrong one after any one byte of the span is changed: in the checksum
field the stored value moves and the computed one stays, outside it the other way round. -/
theorem Context.csum_ne_of_write {c : Context} (h : c.buf.wf = true) {k len : Nat} (hk : k < len) {x : Byte}
    (hx : x ≠ c.buf.read k) {p : Bool} (hright : c.csum len p = c.buf.u16 2) :
    ({ c with buf := c.buf.write k x } : Context).csum len p ≠ (c.buf.write k x).u16 2 := by
  by_cases hfield : k = 2 ∨ k = 3
  · have hcomputed : ({ c with buf := c.buf.write k x } : Context).csum len p = c.csum len p :=
      Context.csum_congr (c := { c with buf := c.buf.write k x }) (c' := c) rfl rfl
        (fun j _ h2 h3 => (Memory.read_write h k j x).trans (if_neg (by omega))) p
    rw [hcomputed, hright]
    exact (Memory.u16_write_ne h hfield hx).symm
  · have hstored : (c.buf.write k x).u16 2 = c.buf.u16 2 := by
      rw [Memory.u16, Memory.u16, Memory.read_write h, Memory.read_write h, if_neg (by omega), if_neg (by omega)]
    rw [hstored, ← hright]
    exact Context.csum_write_ne h hk (by omega) (by omega) hx p

end Sys2Proof.Machine
end

section
/-! PROOFS. The checksum engine (R170 to R180): the settled statements of 42_checksum.md. Each command's bytes decode to
it because they are its encoding (`decodeOfEncode`). -/

namespace Sys2Proof.Machine

/-! The address registers and the value. -/

/-- Settles O26: the length is the one check of both commands. -/
theorem addressRegisters : Obligations.AddressRegisters := by
  intro s c addr hc
  refine ⟨fun h => ⟨decodeOfEncode (.ctxSetSrc addr) (decide_eq_true h),
      decodeOfEncode (.ctxSetDst addr) (decide_eq_true h)⟩, fun h => ⟨?_, ?_⟩, fun h => ⟨?_, ?_⟩⟩
  · exact State.runCtx_ok hc (if_neg (not_not.mpr h))
  · exact State.runCtx_ok hc (if_neg (not_not.mpr h))
  · exact State.runCtx_error (e := .invalidAddressLength) hc (if_pos h)
  · exact State.runCtx_error (e := .invalidAddressLength) hc (if_pos h)

/-- Settles O27: the checksum folds `Context.csumSum`, which is the sum of the statement. -/
theorem checksumValue : Obligations.ChecksumValue := by
  intro c len
  refine ⟨?_, fun hs hd hlen => ?_⟩
  · rw [← Context.csumSum_false]
    exact c.isChecksumOf_csum len false
  · rw [← pseudoSum_eq_headerSum hs hd hlen]
    exact c.isChecksumOf_csum len true

/-! The commands. -/

/-- Settles O28: the statement's three cases are those of the command's rule (`RunsCsum`). -/
theorem csumCompute : Obligations.CsumCompute := by
  intro s c len p hc
  refine ⟨decodeOfEncode (.csumCompute len p) rfl, ?_⟩
  split_ifs with hp hshort
  · exact (csumCompute_runs len p).illegal hc hp
  · exact (csumCompute_runs len p).outside hc hp hshort
  · rw [(csumCompute_runs len p).inside hc hp hshort, State.setCtx_self hc]

/-- Settles O29: past the shared checks the answer compares the computed value with the stored one. -/
theorem csumVerify : Obligations.CsumVerify := by
  intro s c len p hc
  refine ⟨decodeOfEncode (.csumVerify len p) rfl, ?_⟩
  split_ifs with hp hshort heq
  · exact (csumVerify_runs len p).illegal hc hp
  · exact (csumVerify_runs len p).outside hc hp hshort
  · exact csumVerify_match hc hp hshort heq
  · exact csumVerify_mismatch hc hp hshort heq

/-- Settles O30: the checksum is stored as the byte string of its two bytes. -/
theorem csumWrite : Obligations.CsumWrite := by
  intro s c len p hc hwf
  refine ⟨decodeOfEncode (.csumWrite len p) rfl, ?_⟩
  split_ifs with hp hshort
  · exact (csumWrite_runs len p).illegal hc hp
  · exact (csumWrite_runs len p).outside hc hp hshort
  · exact ⟨_, Memory.storedAt_writeBytes hwf 2 _, (csumWrite_runs len p).inside hc hp hshort⟩

/-! Laws (R180). -/

/-- Settles O31: the stored checksum reads back and, as its field is summed as 0, is the checksum of the new buffer too;
so the second write stores what is there. -/
theorem verifyAfterWrite : Obligations.VerifyAfterWrite := by
  intro s c len p hc hwf hp h4 hlen
  have hp' : ¬1 < p.toNat := by omega
  have hin : ¬c.ShortForField len := by simp only [Context.ShortForField]; omega
  obtain ⟨v, hv⟩ : ∃ v, v = c.csum len.toNat (decide (p = 1)) := ⟨_, rfl⟩
  have hwrite : exec (.csumWrite len p) s = .next ((s.setCtx (c.storeChecksum v)).emit (0x00 :: bytes16 v)) := by
    rw [(csumWrite_runs len p).inside hc hp' hin, hv]
  have hc' := State.ctx?_setCtx_emit (c' := c.storeChecksum v) hc (0x00 :: bytes16 v)
  have hv' : (c.storeChecksum v).csum len.toNat (decide (p = 1)) = v :=
    (Context.csum_storeChecksum hwf v _ _).trans hv.symm
  refine ⟨_, v, hwrite, rfl, csumVerify_match hc' hp' hin ?_, ?_⟩
  · rw [hv', hv, Context.u16_storeChecksum_csum hwf]
  · rw [(csumWrite_runs len p).inside hc' hp' hin, hv', Context.storeChecksum_idem hwf, State.setCtx_self hc']

/-- Settles O32: the first verification found the stored checksum right, so after the change it is wrong
(`Context.csum_ne_of_write`). -/
theorem singleByteCorruptionDetected : Obligations.SingleByteCorruptionDetected := by
  intro s c len off p v hc hwf h4 hlen hoff hverified hchanged
  have hin : ¬c.ShortForField len := by simp only [Context.ShortForField]; omega
  obtain ⟨hp, hright⟩ := csumVerify_answers_one hc hin hverified
  have hset : exec (.fldSetU8 off v) s =
      .next ((s.setCtx { c with buf := c.buf.write off.toNat (v.setWidth 8) }).emit [0x00]) :=
    (fldSetU8_sets off v).storesBuf (by rw [bytes8_length]; omega) s c.buf hc
  exact ⟨_, hset, csumVerify_mismatch (State.ctx?_setCtx_emit hc _) hp hin
    (Context.csum_ne_of_write hwf hoff hchanged hright)⟩

/-- Settles O33: the sum that is folded is the same, as the span's sum is and the addresses enter by their sums. -/
theorem checksumInputs : Obligations.ChecksumInputs := by
  intro c c' len hagree
  have hspan := spanSum_congr hagree
  refine ⟨?_, fun hs hd hs' hd' haddr => ?_⟩
  · rw [Context.csum_eq, Context.csum_eq, Context.csumSum_false, Context.csumSum_false, hspan]
  · rw [Context.csum_eq, Context.csum_eq, Context.csumSum, Context.csumSum, pseudoSum_true hs hd,
      pseudoSum_true hs' hd', haddr, hspan]

end Sys2Proof.Machine
end

section
/-! PROOFS. The time codes as an order embedding (R190 to R193), for every mantissa width: a code is its exponent and
its mantissa side by side, the value of the next code is one step further, and so encoding is the adjoint of decoding. -/

namespace Sys2Proof.Machine

variable {M e m code v : Nat}

/-! The parts of a floating code (R190). -/

/-- The code with the flag set, exponent `e` and mantissa `m` (R190). -/
def tcCode (M e m : Nat) : Nat := 2 ^ (M + 3) + e * 2 ^ M + m

theorem threshold_le_tcCode (M e m : Nat) : 2 ^ (M + 3) ≤ tcCode M e m := by
  rw [tcCode]; omega

theorem tcCode_eq_mul (M e m : Nat) : tcCode M e m = (8 + e) * 2 ^ M + m := by
  rw [tcCode, Nat.add_mul, Nat.pow_add, Nat.mul_comm (2 ^ M)]

theorem tcCode_lt_iff (hm : m < 2 ^ M) : tcCode M e m < 2 ^ (M + 4) ↔ e < 8 := by
  rw [tcCode_eq_mul, Nat.pow_add, Nat.mul_comm (2 ^ M), ← Nat.div_lt_iff_lt_mul (Nat.two_pow_pos M), Nat.mul_comm,
    Nat.mul_add_div (Nat.two_pow_pos M), Nat.div_eq_of_lt hm]
  omega

theorem tcCode_mantissa (hm : m < 2 ^ M) : tcCode M e m % 2 ^ M = m := by
  rw [tcCode_eq_mul, Nat.mul_comm, Nat.mul_add_mod, Nat.mod_eq_of_lt hm]

theorem tcCode_exponent (he : e < 8) (hm : m < 2 ^ M) : tcCode M e m / 2 ^ M % 8 = e := by
  rw [tcCode_eq_mul, Nat.mul_comm, Nat.mul_add_div (Nat.two_pow_pos M), Nat.div_eq_of_lt hm]
  omega

/-- Every code with the flag set has such parts. -/
theorem exists_tcCode (lo : 2 ^ (M + 3) ≤ code) (hi : code < 2 ^ (M + 4)) :
    ∃ e m, e < 8 ∧ m < 2 ^ M ∧ code = tcCode M e m := by
  have hm : (code - 2 ^ (M + 3)) % 2 ^ M < 2 ^ M := Nat.mod_lt _ (Nat.two_pow_pos M)
  have heq : code = tcCode M ((code - 2 ^ (M + 3)) / 2 ^ M) ((code - 2 ^ (M + 3)) % 2 ^ M) := by
    rw [tcCode, Nat.add_assoc, Nat.div_add_mod']
    omega
  exact ⟨_, _, (tcCode_lt_iff hm).mp (heq ▸ hi), hm, heq⟩

/-- The value of a code, from its parts (R191). -/
theorem tcDecode_tcCode (he : e < 8) (hm : m < 2 ^ M) : tcDecode M (tcCode M e m) = (2 ^ M + m) * 2 ^ (e + 3) := by
  rw [tcDecode_large (threshold_le_tcCode M e m), tcCode_mantissa hm, tcCode_exponent he hm]

/-! Decoding is strictly increasing. -/

/-- How far the value of the next code is from a code's own: 1 below the threshold, from there the exponent's unit. -/
def tcStep (M code : Nat) : Nat := if code < 2 ^ (M + 3) then 1 else 2 ^ (code / 2 ^ M % 8 + 3)

theorem tcStep_pos (M code : Nat) : 0 < tcStep M code := by
  unfold tcStep
  split_ifs
  · exact Nat.one_pos
  · exact Nat.two_pow_pos _

theorem tcStep_small (h : code < 2 ^ (M + 3)) : tcStep M code = 1 := if_pos h

theorem tcStep_large (h : 2 ^ (M + 3) ≤ code) : tcStep M code = 2 ^ (code / 2 ^ M % 8 + 3) := if_neg (Nat.not_lt.2 h)

theorem tcStep_tcCode (he : e < 8) (hm : m < 2 ^ M) : tcStep M (tcCode M e m) = 2 ^ (e + 3) := by
  rw [tcStep_large (threshold_le_tcCode M e m), tcCode_exponent he hm]

/-- Where the mantissa is full the next code has the next exponent, and twice the leading bit is its leading bit. -/
theorem tcDecode_tcCode_succ (hm : m < 2 ^ M) (hnext : tcCode M e m + 1 < 2 ^ (M + 4)) :
    tcDecode M (tcCode M e m + 1) = tcDecode M (tcCode M e m) + 2 ^ (e + 3) := by
  have he : e < 8 := (tcCode_lt_iff hm).mp (by omega)
  rw [tcDecode_tcCode he hm]
  by_cases hfull : m + 1 < 2 ^ M
  · calc tcDecode M (tcCode M e (m + 1))
      _ = (2 ^ M + (m + 1)) * 2 ^ (e + 3) := tcDecode_tcCode he hfull
      _ = (2 ^ M + m) * 2 ^ (e + 3) + 2 ^ (e + 3) := by ring
  · have hlast : m + 1 = 2 ^ M := by omega
    have hcode : tcCode M e m + 1 = tcCode M (e + 1) 0 := by
      rw [tcCode, tcCode, Nat.add_mul]; omega
    have he' : e + 1 < 8 := (tcCode_lt_iff (Nat.two_pow_pos M)).mp (hcode ▸ hnext)
    calc tcDecode M (tcCode M e m + 1)
      _ = (2 ^ M + 0) * 2 ^ (e + 1 + 3) := by rw [hcode, tcDecode_tcCode he' (Nat.two_pow_pos M)]
      _ = (2 ^ M + (m + 1)) * 2 ^ (e + 3) := by rw [hlast]; ring
      _ = (2 ^ M + m) * 2 ^ (e + 3) + 2 ^ (e + 3) := by ring

/-- Up to the threshold, itself the value of the first floating code, the values are the codes. -/
theorem tcDecode_le_threshold (h : code ≤ 2 ^ (M + 3)) : tcDecode M code = code := by
  rcases h.lt_or_eq with hlt | rfl
  · exact tcDecode_small hlt
  · have hcode : 2 ^ (M + 3) = tcCode M 0 0 := by simp [tcCode]
    rw [hcode, tcDecode_tcCode (by decide) (Nat.two_pow_pos M), ← hcode]
    ring

theorem tcDecode_succ (hnext : code + 1 < 2 ^ (M + 4)) :
    tcDecode M (code + 1) = tcDecode M code + tcStep M code := by
  by_cases lo : code < 2 ^ (M + 3)
  · rw [tcStep_small lo, tcDecode_small lo, tcDecode_le_threshold lo]
  · obtain ⟨e, m, he, hm, rfl⟩ := exists_tcCode (Nat.not_lt.1 lo) (Nat.lt_of_succ_lt hnext)
    rw [tcStep_tcCode he hm, tcDecode_tcCode_succ hm hnext]

/-- Decoding is strictly increasing on the codes (R198), as each step of it is positive. -/
theorem tcDecode_strictMonoOn (M : Nat) : StrictMonoOn (tcDecode M) (Set.Iio (2 ^ (M + 4))) := by
  intro a _ b hb hab
  induction b, hab using Nat.le_induction with
  | base => exact tcDecode_succ hb ▸ Nat.lt_add_of_pos_right (tcStep_pos M a)
  | succ b _ ih =>
    calc tcDecode M a
      _ < tcDecode M b := ih (Nat.lt_of_succ_lt hb)
      _ < tcDecode M (b + 1) := tcDecode_succ hb ▸ Nat.lt_add_of_pos_right (tcStep_pos M b)

/-! Encoding is its adjoint. -/

/-- The largest representable value is the value of the all-ones code (R193). -/
theorem tcDecode_allOnes (M : Nat) : tcDecode M (2 ^ (M + 4) - 1) = (2 ^ (M + 1) - 1) * 2 ^ 10 := by
  have hpos := Nat.two_pow_pos M
  have hcode : 2 ^ (M + 4) - 1 = tcCode M 7 (2 ^ M - 1) := by
    rw [tcCode_eq_mul, Nat.pow_add]; omega
  rw [hcode, tcDecode_tcCode (by decide) (by omega), Nat.pow_succ]
  omega

theorem threshold_le_of_max_lt (h : (2 ^ (M + 1) - 1) * 2 ^ 10 < v) : 2 ^ (M + 3) ≤ v := by
  have hpos := Nat.two_pow_pos M
  rw [Nat.pow_succ] at h
  rw [Nat.pow_add]
  omega

/-- Above the largest representable value the code saturates (R193). -/
theorem tcEncode_of_max_lt (h : (2 ^ (M + 1) - 1) * 2 ^ 10 < v) : tcEncode M v = 2 ^ (M + 4) - 1 :=
  tcEncode_saturates h (threshold_le_of_max_lt h)

/-- Between the threshold and the largest representable value the encoder rounds down to a multiple of the step of the
code it answers (R192). -/
theorem tcDecode_tcEncode_large (lo : 2 ^ (M + 3) ≤ v) (hi : v ≤ (2 ^ (M + 1) - 1) * 2 ^ 10) :
    tcDecode M (tcEncode M v) = v / tcStep M (tcEncode M v) * tcStep M (tcEncode M v) := by
  obtain ⟨he, hlt, hge⟩ := tcExponent_spec lo hi
  have hm : v / 2 ^ (tcExponent M v + 3) - 2 ^ M < 2 ^ M := by
    rw [pow_succ 2 M] at hlt; omega
  have hcode : tcEncode M v = tcCode M (tcExponent M v) (v / 2 ^ (tcExponent M v + 3) - 2 ^ M) := tcEncode_large lo hi
  rw [hcode, tcStep_tcCode he hm, tcDecode_tcCode he hm, Nat.add_sub_cancel' hge]

/-- The encoder rounds down (R192), by less than one step unless it saturates. -/
theorem tcDecode_tcEncode_le (M v : Nat) : tcDecode M (tcEncode M v) ≤ v := by
  by_cases lo : v < 2 ^ (M + 3)
  · rw [tcEncode_small lo, tcDecode_small lo]
  · by_cases hi : (2 ^ (M + 1) - 1) * 2 ^ 10 < v
    · rw [tcEncode_of_max_lt hi, tcDecode_allOnes]; exact hi.le
    · rw [tcDecode_tcEncode_large (Nat.not_lt.1 lo) (Nat.not_lt.1 hi)]
      exact Nat.div_mul_le_self v _

theorem lt_tcDecode_tcEncode_add_step (hi : v ≤ (2 ^ (M + 1) - 1) * 2 ^ 10) :
    v < tcDecode M (tcEncode M v) + tcStep M (tcEncode M v) := by
  by_cases lo : v < 2 ^ (M + 3)
  · rw [tcEncode_small lo, tcDecode_small lo]; exact Nat.lt_add_of_pos_right (tcStep_pos M v)
  · rw [tcDecode_tcEncode_large (Nat.not_lt.1 lo) hi]
    exact Nat.lt_div_mul_add (tcStep_pos M _)

/-- The code after the one the encoder answers, if there is one, has a value above the operand. -/
theorem lt_tcDecode_tcEncode_succ (hnext : tcEncode M v + 1 < 2 ^ (M + 4)) : v < tcDecode M (tcEncode M v + 1) := by
  have hi : v ≤ (2 ^ (M + 1) - 1) * 2 ^ 10 := Nat.le_of_not_lt fun h => by
    rw [tcEncode_of_max_lt h] at hnext; omega
  rw [tcDecode_succ hnext]
  exact lt_tcDecode_tcEncode_add_step hi

/-- Encoding is the upper adjoint of decoding: a code's value is not above `v` exactly if the code is not above that of
`v`. The largest code, the round trip and monotonicity all follow from it. -/
theorem le_tcEncode_iff (hcode : code < 2 ^ (M + 4)) : code ≤ tcEncode M v ↔ tcDecode M code ≤ v := by
  have mono := (tcDecode_strictMonoOn M).monotoneOn
  constructor
  · intro hle
    exact (mono hcode (tcEncode_lt M v) hle).trans (tcDecode_tcEncode_le M v)
  · intro hle
    by_contra hgt
    have hnext : tcEncode M v + 1 ≤ code := Nat.lt_of_not_le hgt
    have habove := lt_tcDecode_tcEncode_succ (hnext.trans_lt hcode)
    exact absurd (habove.trans_le (mono (hnext.trans_lt hcode) hcode hnext)) (Nat.not_lt.2 hle)

/-- A value with no linear code has a floating one: the threshold is the value of the first. -/
theorem threshold_le_tcEncode (lo : 2 ^ (M + 3) ≤ v) : 2 ^ (M + 3) ≤ tcEncode M v := by
  rw [le_tcEncode_iff (Nat.pow_lt_pow_right (by decide) (by omega)), tcDecode_le_threshold le_rfl]
  exact lo

/-- Every code round-trips (R198). -/
theorem tcEncode_tcDecode (hcode : code < 2 ^ (M + 4)) : tcEncode M (tcDecode M code) = code := by
  apply Nat.le_antisymm
  · exact ((tcDecode_strictMonoOn M).le_iff_le (tcEncode_lt M _) hcode).mp (tcDecode_tcEncode_le M _)
  · exact (le_tcEncode_iff hcode).mpr le_rfl

/-- Encoding is non-decreasing (R198). -/
theorem tcEncode_mono (M : Nat) : Monotone (tcEncode M) := fun v _ hvw =>
  (le_tcEncode_iff (tcEncode_lt M v)).mpr ((tcDecode_tcEncode_le M v).trans hvw)

end Sys2Proof.Machine
end

section
/-! PROOFS. The time-code converter (R194 to R198): the settled statements of 43_timecode.md. Its four commands read
their operand and nothing else, so each answers what its rule says and leaves the state as it was
(`State.runCtx_read`). -/

namespace Sys2Proof.Machine

/-- The value of a code as R191 says it, both cases. -/
theorem tcDecode_eq (M code : Nat) : tcDecode M code =
    if code < 2 ^ (M + 3) then code else (2 ^ M + code % 2 ^ M) * 2 ^ (code / 2 ^ M % 8 + 3) := by
  split_ifs with h
  · exact tcDecode_small h
  · exact tcDecode_large (Nat.not_lt.1 h)

/-- Settles O34: both widths answer `tcDecode_eq` at their own mantissa width. -/
theorem timeCodeDecode : Obligations.TimeCodeDecode := by
  intro s c code8 code16 hc
  have value8 := tcDecode_eq 4 code8.toNat
  have value16 := tcDecode_eq 12 code16.toNat
  norm_num only at value8 value16
  refine ⟨decodeOfEncode (.tc8Decode code8) rfl, decodeOfEncode (.tc16Decode code16) rfl, ?_, ?_⟩
  · rw [← value8]; exact State.runCtx_read hc rfl
  · rw [← value16]; exact State.runCtx_read hc rfl

/-- Settles O35: the answered code is the largest of those not above the operand by `le_tcEncode_iff`. -/
theorem timeCodeEncode : Obligations.TimeCodeEncode := by
  intro s c v hc
  refine ⟨decodeOfEncode (.tc8Encode v) rfl, decodeOfEncode (.tc16Encode v) rfl,
    ⟨tcEncode 4 v.toNat, tcEncode_lt 4 _, State.runCtx_read hc rfl, tcDecode_tcEncode_le 4 _,
      fun _ hcode => (le_tcEncode_iff hcode).mpr, fun h => tcEncode_of_max_lt h⟩,
    ⟨tcEncode 12 v.toNat, tcEncode_lt 12 _, State.runCtx_read hc rfl, tcDecode_tcEncode_le 12 _,
      fun _ hcode => (le_tcEncode_iff hcode).mpr, fun h => tcEncode_of_max_lt h⟩⟩

/-- Settles O36: the laws hold for every mantissa width. -/
theorem timeCodeLaws : Obligations.TimeCodeLaws := by
  intro M _
  refine ⟨fun v hv => ?exact, fun _ hcode => tcEncode_tcDecode hcode, fun v lo hi => ?loss,
    fun _ _ hab hb => tcDecode_strictMonoOn M (hab.trans hb) hb hab, fun _ _ hvw _ => tcEncode_mono M hvw⟩
  case exact => rw [tcEncode_small hv, tcDecode_small hv]
  case loss =>
    rw [← tcStep_large (threshold_le_tcEncode lo)]
    exact ⟨tcDecode_tcEncode_le M v, lt_tcDecode_tcEncode_add_step hi⟩

end Sys2Proof.Machine
end

section
/-! PROOFS. The group record commands (R210 to R231): the family and type operands, the check that the commands on the
record register share, and what the codec's three commands do in each case of the codec's own rules. -/

namespace Sys2Proof.Machine

/-! The operands (R115). -/

theorem familyOf_illegal {fam : Byte} (h : 1 < fam.toNat) : familyOf fam = none := by
  unfold familyOf
  split
  · omega
  · omega
  · rfl

theorem familyOf_legal {fam : Byte} {f : Family} (h : ¬1 < fam.toNat) (hf : f = if fam = 0 then .igmp else .mld) :
    familyOf fam = some f := by
  have hfam : fam = 0 ∨ fam = 1 := by bv_omega
  rcases hfam with rfl | rfl <;> rw [hf] <;> rfl

@[simp] theorem familyOf_id (f : Family) : familyOf f.id = some f := by cases f <;> rfl

theorem rtypeLegal_iff {rtype : Byte} : rtypeLegal rtype = true ↔ ¬(rtype.toNat < 1 ∨ 6 < rtype.toNat) := by
  simp only [rtypeLegal, decide_eq_true_eq]; omega

theorem rtypeLegal_false_iff {rtype : Byte} : rtypeLegal rtype = false ↔ rtype.toNat < 1 ∨ 6 < rtype.toNat := by
  simp only [rtypeLegal, decide_eq_false_iff_not]; omega

/-! The lengths of a record (R211, R223). -/

theorem Record.len_igmp {g : Record} (h : g.fam = .igmp) : g.len = 8 + 4 * g.srcs.length + 4 * (g.aux.length / 4) := by
  rw [Record.len, h]; rfl

theorem Record.len_mld {g : Record} (h : g.fam = .mld) : g.len = 20 + 16 * g.srcs.length + 4 * (g.aux.length / 4) := by
  rw [Record.len, h]; rfl

/-- The padding is the shortest that makes whole words. -/
theorem padAux_eq (data : List Byte) :
    ∃ pad, pad < 4 ∧ (data.length + pad) % 4 = 0 ∧ padAux data = data ++ zeros pad :=
  ⟨(4 - data.length % 4) % 4, by omega, by omega, rfl⟩

/-! Commands on the record register (R210). -/

/-- The command runs the rule on the record that is held. -/
def OnRecord (i : Instr) (rule : Context → Record → CmdResult) : Prop :=
  ∀ s, exec i s = s.runCtx fun c => c.withRec (rule c)

section
variable {i : Instr} {rule : Context → Record → CmdResult} {s : State} {c : Context}

theorem OnRecord.noRecord (hi : OnRecord i rule) (hc : s.ctx? = some c) (hv : c.grValid = false) :
    exec i s = .next (s.emit [0x16]) :=
  (hi s).trans (State.runCtx_error (e := .noRecord) hc (Context.withRec_noRecord hv _))

theorem OnRecord.error {e : ErrorStatus} (hi : OnRecord i rule) (hc : s.ctx? = some c) (hv : c.grValid = true)
    (hr : rule c c.gr = .error e) : exec i s = .next (s.emit [e.code]) :=
  (hi s).trans (State.runCtx_error hc ((Context.withRec_run hv _).trans hr))

theorem OnRecord.ok {c' : Context} {p : List Byte} (hi : OnRecord i rule) (hc : s.ctx? = some c)
    (hv : c.grValid = true) (hr : rule c c.gr = .ok (c', p)) : exec i s = .next ((s.setCtx c').emit (0x00 :: p)) :=
  (hi s).trans (State.runCtx_ok hc ((Context.withRec_run hv _).trans hr))

theorem OnRecord.read {p : List Byte} (hi : OnRecord i rule) (hc : s.ctx? = some c) (hv : c.grValid = true)
    (hr : rule c c.gr = .ok (c, p)) : exec i s = .next (s.emit (0x00 :: p)) :=
  (hi s).trans (State.runCtx_read hc ((Context.withRec_run hv _).trans hr))

end

theorem grGetType_onRecord : OnRecord .grGetType fun c g => .ok (c, [g.rtype]) := fun _ => rfl
theorem grGetGroup_onRecord : OnRecord .grGetGroup fun c g => .ok (c, payloadBytes g.group) := fun _ => rfl
theorem grGetNsrc_onRecord : OnRecord .grGetNsrc fun c g => .ok (c, bytes16 g.srcs.length) := fun _ => rfl
theorem grGetAuxlen_onRecord : OnRecord .grGetAuxlen fun c g => .ok (c, bytes8 g.auxLen) := fun _ => rfl
theorem grGetAux_onRecord : OnRecord .grGetAux fun c g => .ok (c, payloadBytes g.aux) := fun _ => rfl
theorem grLength_onRecord : OnRecord .grLength fun c g => .ok (c, bytes32 g.len) := fun _ => rfl

/-- The rule of `GR_GET_SRC` (R218). -/
def sourceRule (k : Half) (c : Context) (g : Record) : CmdResult :=
  match g.srcs[k.toNat]? with
  | none => .error .indexOutOfRange
  | some addr => .ok (c, payloadBytes addr)

theorem grGetSrc_onRecord (k : Half) : OnRecord (.grGetSrc k) (sourceRule k) := fun _ => rfl

theorem grSetType_onRecord (rtype : Byte) : OnRecord (.grSetType rtype) fun c g =>
    if rtypeLegal rtype = false then .error .invalidRecordType
    else .ok ({ c with gr := { g with rtype := rtype } }, []) := fun _ => rfl

theorem grSetGroup_onRecord (addr : List Byte) : OnRecord (.grSetGroup addr) fun c g =>
    if addr.length ≠ g.fam.aw then .error .invalidAddressFamily
    else .ok ({ c with gr := { g with group := addr } }, []) := fun _ => rfl

theorem grAddSrc_onRecord (addr : List Byte) : OnRecord (.grAddSrc addr) fun c g =>
    if addr.length ≠ g.fam.aw then .error .invalidAddressLength
    else if maxCount ≤ g.srcs.length then .error .countOverflow
    else .ok ({ c with gr := { g with srcs := g.srcs ++ [addr] } }, []) := fun _ => rfl

theorem grClearSrc_onRecord : OnRecord .grClearSrc fun c g => .ok ({ c with gr := { g with srcs := [] } }, []) :=
  fun _ => rfl

theorem grSetAux_onRecord (data : List Byte) : OnRecord (.grSetAux data) fun c g =>
    if maxAux < data.length then .error .invalidAuxDataLength
    else .ok ({ c with gr := { g with aux := padAux data } }, []) := fun _ => rfl

/-- The rule of `GR_ENCODE` (R228). -/
def encodeRule (off : Half) (c : Context) (g : Record) : CmdResult :=
  match c.bufWrite off.toNat (encodeRecord g) with
  | .error e => .error e
  | .ok c' => .ok (c', bytes32 (encodeRecord g).length)

theorem grEncode_onRecord (off : Half) : OnRecord (.grEncode off) (encodeRule off) := fun _ => rfl

theorem msgAddRec_noRecord {s : State} {c : Context} (hc : s.ctx? = some c) (hv : c.grValid = false)
    (hm : c.msgValid = true) (hr : c.msg.variant.isReport3 = true) : exec .msgAddRec s = .next (s.emit [0x16]) :=
  State.runCtx_error (e := .noRecord) hc ((Context.withMsg_run hm hr _).trans (Context.withRec_noRecord hv _))

theorem isReport3_of_mem_reports {v : Variant} (h : v ∈ reports) : v.isReport3 = true := by
  simp only [reports, List.mem_cons, List.not_mem_nil, or_false] at h
  rcases h with rfl | rfl <;> rfl

/-! A record in the buffer. -/

/-- Loading the record that is held changes nothing. -/
theorem Context.loadRec_self {c : Context} (hv : c.grValid = true) : c.loadRec c.gr = c := by
  rw [Context.loadRec, ← hv]

/-- The bytes of a stored record read back. -/
theorem Memory.readBytes_encodeRecord {b : Memory} (hwf : b.wf = true) {g : Record} (hg : g.Legal) (off : Nat) :
    (b.writeBytes off (encodeRecord g)).readBytes off g.len = encodeRecord g := by
  rw [← encodeRecord_length hg]
  exact Memory.readBytes_writeBytes hwf off _

/-! `GR_NEW` (R212). -/

section
variable {s : State} {c : Context} {off : Half} {fam rtype : Byte} {f : Family}

theorem grNew_illegal (hc : s.ctx? = some c) (h : 1 < fam.toNat) :
    exec (.grNew fam rtype) s = .next (s.emit [0x14]) :=
  State.runCtx_error (e := .invalidOperand) hc (by simp [familyOf_illegal h])

theorem grNew_badType (hc : s.ctx? = some c) (hf : familyOf fam = some f) (h : rtypeLegal rtype = false) :
    exec (.grNew fam rtype) s = .next (s.emit [0x05]) :=
  State.runCtx_error (e := .invalidRecordType) hc (by simp [hf, h])

theorem grNew_ok (hc : s.ctx? = some c) (hf : familyOf fam = some f) (h : rtypeLegal rtype = true) :
    exec (.grNew fam rtype) s = .next ((s.setCtx (c.loadRec (Record.new f rtype))).emit [0x00]) :=
  State.runCtx_ok hc (by simp [hf, h])

/-! `GR_ENCODE` (R228). -/

theorem grEncode_inside (hc : s.ctx? = some c) (hv : c.grValid = true) (hg : c.gr.Legal)
    (h : off.toNat + c.gr.len ≤ c.bufLen) : exec (.grEncode off) s =
      .next ((s.setCtx { c with buf := c.buf.writeBytes off.toNat (encodeRecord c.gr) }).emit
        (0x00 :: bytes32 c.gr.len)) := by
  rw [← encodeRecord_length hg] at h ⊢
  exact (grEncode_onRecord off).ok hc hv (by rw [encodeRule, Context.bufWrite_ok h])

theorem grEncode_outside (hc : s.ctx? = some c) (hv : c.grValid = true) (hg : c.gr.Legal)
    (h : c.bufLen < off.toNat + c.gr.len) : exec (.grEncode off) s = .next (s.emit [0x01]) := by
  rw [← encodeRecord_length hg] at h
  exact (grEncode_onRecord off).error (e := .bufferTooShort) hc hv (by rw [encodeRule, Context.bufWrite_short h])

/-! `GR_DECODE` (R226). -/

theorem grDecode_illegal (hc : s.ctx? = some c) (h : 1 < fam.toNat) :
    exec (.grDecode off fam) s = .next (s.emit [0x14]) :=
  State.runCtx_error (e := .invalidOperand) hc (by simp [familyOf_illegal h])

theorem grDecode_error {e : ErrorStatus} (hc : s.ctx? = some c) (hf : familyOf fam = some f)
    (h : decodeRecord c.buf off.toNat f c.bufLen = .error e) :
    exec (.grDecode off fam) s = .next (s.emit [e.code]) :=
  State.runCtx_error hc (by simp [hf, h])

theorem grDecode_ok {g : Record} {n : Nat} (hc : s.ctx? = some c) (hf : familyOf fam = some f)
    (h : decodeRecord c.buf off.toNat f c.bufLen = .ok (g, off.toNat + n)) :
    exec (.grDecode off fam) s = .next ((s.setCtx (c.loadRec g)).emit (0x00 :: bytes32 n)) :=
  State.runCtx_ok hc (by simp [hf, h])

/-- Decoding the record that is held already leaves the state as it is. -/
theorem grDecode_held {n : Nat} (hc : s.ctx? = some c) (hv : c.grValid = true) (hf : familyOf fam = some f)
    (h : decodeRecord c.buf off.toNat f c.bufLen = .ok (c.gr, off.toNat + n)) :
    exec (.grDecode off fam) s = .next (s.emit (0x00 :: bytes32 n)) := by
  rw [grDecode_ok hc hf h, Context.loadRec_self hv, State.setCtx_self hc]

/-! `GR_PEEK_LENGTH` (R230). -/

theorem grPeekLength_illegal (hc : s.ctx? = some c) (h : 1 < fam.toNat) :
    exec (.grPeekLength off fam) s = .next (s.emit [0x14]) :=
  State.runCtx_error (e := .invalidOperand) hc (by simp [familyOf_illegal h])

theorem grPeekLength_outside (hc : s.ctx? = some c) (hf : familyOf fam = some f) (h : c.bufLen < off.toNat + 4) :
    exec (.grPeekLength off fam) s = .next (s.emit [0x01]) :=
  State.runCtx_error (e := .bufferTooShort) hc (by simp [hf, peekRecordLength, h])

theorem grPeekLength_inside (hc : s.ctx? = some c) (hf : familyOf fam = some f) (h : off.toNat + 4 ≤ c.bufLen) :
    exec (.grPeekLength off fam) s = .next (s.emit (0x00 :: bytes32 (recordSize c.buf f off.toNat))) := by
  rcases peekRecordLength_cases c.buf off.toNat f c.bufLen with ⟨hshort, -⟩ | ⟨-, hpeek⟩
  · omega
  · exact State.runCtx_read hc (by simp [hf, hpeek])

end

end Sys2Proof.Machine
end

section
/-! PROOFS. The group record codec (R210 to R231): the settled statements of 44_group_record.md. Each command's bytes
decode to it because they are its encoding (`decodeOfEncode`). -/

namespace Sys2Proof.Machine

/-! The record register. -/

/-- Settles O37: the family is checked before the type, and the new record is `Record.new`. -/
theorem recordNew : Obligations.RecordNew := by
  intro s c fam rtype hc
  refine ⟨decodeOfEncode (.grNew fam rtype) rfl, ?_⟩
  split_ifs with hfam htype hzero
  · exact grNew_illegal hc hfam
  · exact grNew_badType hc (familyOf_legal hfam rfl) (rtypeLegal_false_iff.mpr htype)
  · exact grNew_ok hc (familyOf_legal hfam (if_pos hzero).symm) (rtypeLegal_iff.mpr htype)
  · exact grNew_ok hc (familyOf_legal hfam (if_neg hzero).symm) (rtypeLegal_iff.mpr htype)

/-- Settles O38: each read answers from the record that is held (`OnRecord.read`). -/
theorem recordReads : Obligations.RecordReads := by
  intro s c k hc hv
  refine ⟨decodeOfEncode .grGetType rfl, grGetType_onRecord.read hc hv rfl,
    decodeOfEncode .grGetGroup rfl, grGetGroup_onRecord.read hc hv rfl,
    decodeOfEncode .grGetNsrc rfl, grGetNsrc_onRecord.read hc hv rfl,
    decodeOfEncode (.grGetSrc k) rfl, fun addr haddr => ?listed, fun hpast => ?unlisted,
    decodeOfEncode .grGetAuxlen rfl, grGetAuxlen_onRecord.read hc hv rfl,
    decodeOfEncode .grGetAux rfl, grGetAux_onRecord.read hc hv rfl, decodeOfEncode .grLength rfl, ?length⟩
  case listed => exact (grGetSrc_onRecord k).read hc hv (by rw [sourceRule, haddr]; rfl)
  case unlisted =>
    exact (grGetSrc_onRecord k).error (e := .indexOutOfRange) hc hv
      (by rw [sourceRule, List.getElem?_eq_none hpast])
  case length =>
    rw [grLength_onRecord.read hc hv rfl]
    split
    next hfam => rw [Record.len_igmp hfam]
    next hfam => rw [Record.len_mld hfam]

/-- Settles O39: the checks of each write's rule, in the rule's order, are those of the statement. -/
theorem recordWrites : Obligations.RecordWrites := by
  intro s c rtype addr data hc hv
  refine ⟨decodeOfEncode (.grSetType rtype) rfl, ?type,
    fun h => ⟨decodeOfEncode (.grSetGroup addr) (decide_eq_true h), decodeOfEncode (.grAddSrc addr) (decide_eq_true h)⟩,
    fun hwidth => ⟨?groupBad, ?sourceBad⟩, fun hwidth => ⟨?group, fun hfull => ?sourceFull, fun hroom => ?source⟩,
    decodeOfEncode .grClearSrc rfl, grClearSrc_onRecord.ok hc hv rfl,
    fun h => decodeOfEncode (.grSetAux data) (decide_eq_true h), fun hlong => ?auxBad, fun hfits => ?aux⟩
  case type =>
    split_ifs with htype
    · exact (grSetType_onRecord rtype).error (e := .invalidRecordType) hc hv (if_pos (rtypeLegal_false_iff.mpr htype))
    · exact (grSetType_onRecord rtype).ok hc hv (if_neg (by simp [rtypeLegal_iff.mpr htype]))
  case groupBad => exact (grSetGroup_onRecord addr).error (e := .invalidAddressFamily) hc hv (if_pos hwidth)
  case sourceBad => exact (grAddSrc_onRecord addr).error (e := .invalidAddressLength) hc hv (if_pos hwidth)
  case group => exact (grSetGroup_onRecord addr).ok hc hv (if_neg (not_not.mpr hwidth))
  case sourceFull =>
    exact (grAddSrc_onRecord addr).error (e := .countOverflow) hc hv
      ((if_neg (not_not.mpr hwidth)).trans (if_pos hfull.ge))
  case source =>
    exact (grAddSrc_onRecord addr).ok hc hv ((if_neg (not_not.mpr hwidth)).trans (if_neg (Nat.not_le.mpr hroom)))
  case auxBad => exact (grSetAux_onRecord data).error (e := .invalidAuxDataLength) hc hv (if_pos hlong)
  case aux =>
    obtain ⟨pad, hpad, hwords, heq⟩ := padAux_eq data
    refine ⟨pad, hpad, hwords, ?_⟩
    rw [← heq]
    exact (grSetAux_onRecord data).ok hc hv (if_neg (Nat.not_lt.mpr hfits))

/-- Settles O44: thirteen commands share the check of the record register; `MSG_ADD_REC` reaches it past the checks of
the message register. -/
theorem noRecord : Obligations.NoRecord := by
  intro s c i hc hv hi
  rcases hi with rfl | ⟨ty, rfl⟩ | rfl | ⟨a, rfl⟩ | rfl | ⟨k, rfl⟩ | ⟨a, rfl⟩ | rfl | rfl | rfl | ⟨d, rfl⟩ | rfl |
    ⟨off, rfl⟩ | ⟨rfl, hm, hr⟩
  · exact grGetType_onRecord.noRecord hc hv
  · exact (grSetType_onRecord ty).noRecord hc hv
  · exact grGetGroup_onRecord.noRecord hc hv
  · exact (grSetGroup_onRecord a).noRecord hc hv
  · exact grGetNsrc_onRecord.noRecord hc hv
  · exact (grGetSrc_onRecord k).noRecord hc hv
  · exact (grAddSrc_onRecord a).noRecord hc hv
  · exact grClearSrc_onRecord.noRecord hc hv
  · exact grGetAuxlen_onRecord.noRecord hc hv
  · exact grGetAux_onRecord.noRecord hc hv
  · exact (grSetAux_onRecord d).noRecord hc hv
  · exact grLength_onRecord.noRecord hc hv
  · exact (grEncode_onRecord off).noRecord hc hv
  · exact msgAddRec_noRecord hc hv hm (isReport3_of_mem_reports hr)

/-! The codec. -/

/-- Settles O40: the cases of `decodeRecord_cases`; a header past the buffer length is a record past it, as no record is
shorter than its header. -/
theorem recordDecode : Obligations.RecordDecode := by
  intro s c off fam f hc hf
  refine ⟨decodeOfEncode (.grDecode off fam) rfl, ?_⟩
  by_cases hfam : 1 < fam.toNat
  · rw [if_pos hfam]
    exact grDecode_illegal hc hfam
  have hf := familyOf_legal hfam hf
  have hheader := recordSize_ge c.buf f off.toNat
  rw [if_neg hfam]
  rcases decodeRecord_cases c.buf off.toNat f c.bufLen with
    ⟨hshort, hd⟩ | ⟨hin, htype, hd⟩ | ⟨hin, htype, g, hat, -, hd⟩
  · rw [if_pos hshort, ite_self]
    exact grDecode_error hc hf hd
  · rw [if_neg (by omega), if_neg (by omega), if_pos (rtypeLegal_false_iff.mp htype)]
    exact grDecode_error hc hf hd
  · rw [if_neg (by omega), if_neg (by omega), if_neg (rtypeLegal_iff.mp htype)]
    exact ⟨g, hat, grDecode_ok hc hf hd⟩

/-- Settles O41: the stored bytes are those of the record, so the record stands there. -/
theorem recordEncode : Obligations.RecordEncode := by
  intro s c off hc hwf hv hg
  refine ⟨decodeOfEncode (.grEncode off) rfl, fun hfits => ?_, grEncode_outside hc hv hg⟩
  obtain ⟨hat, haux, -⟩ := RecordAt_of_bytes hg (Memory.readBytes_encodeRecord hwf hg off.toNat)
  refine ⟨_, Memory.wf_writeBytes hwf _ _, hat, ?_, fun k hk => ?_, grEncode_inside hc hv hg hfits⟩
  · rw [haux, Record.aux_length hg]
  · exact Memory.read_writeBytes_outside hwf (by rwa [encodeRecord_length hg])

/-- Settles O42: past the checks of the operand and of the four bytes with the counts, it answers the declared length. -/
theorem recordPeek : Obligations.RecordPeek := by
  intro s c off fam hc
  refine ⟨decodeOfEncode (.grPeekLength off fam) rfl, ?_⟩
  split_ifs with hfam hshort hzero
  · exact grPeekLength_illegal hc hfam
  · exact grPeekLength_outside hc (familyOf_legal hfam rfl) hshort
  · exact grPeekLength_inside hc (familyOf_legal hfam (if_pos hzero).symm) (Nat.le_of_not_lt hshort)
  · exact grPeekLength_inside hc (familyOf_legal hfam (if_neg hzero).symm) (Nat.le_of_not_lt hshort)

/-- Settles O43: the stored bytes decode to the record that is still held, and loading that record writes nothing. -/
theorem recordRoundTrip : Obligations.RecordRoundTrip := by
  intro s c off hc hwf hv hg hfits
  have hbytes := Memory.readBytes_encodeRecord hwf hg off.toNat
  obtain ⟨-, -, hsize⟩ := RecordAt_of_bytes hg hbytes
  have hheader := recordSize_ge (c.buf.writeBytes off.toNat (encodeRecord c.gr)) c.gr.fam off.toNat
  have hc' := State.ctx?_setCtx_emit (c' := { c with buf := c.buf.writeBytes off.toNat (encodeRecord c.gr) }) hc
    (0x00 :: bytes32 c.gr.len)
  refine ⟨grLength_onRecord.read hc hv rfl, _, _, grEncode_inside hc hv hg hfits, rfl, hc', rfl, ?decode, ?peek⟩
  case decode => exact grDecode_held hc' hv (familyOf_id _) (decodeRecord_of_bytes hg hbytes hfits)
  case peek => rw [grPeekLength_inside hc' (familyOf_id _) (by simp only; omega), hsize]

end Sys2Proof.Machine
end

section
/-! PROOFS. The message commands (R240 to R268): the tables of R29 as checks and as lists, the check that the commands
on the message register share, and which field of a variant each of them needs. -/

namespace Sys2Proof.Machine

/-! The tables of R29. -/

theorem Variant.isQuery_iff {v : Variant} : v.isQuery = true ↔ v ∈ queries := by cases v <;> decide

theorem Variant.isExtQuery_iff {v : Variant} : v.isExtQuery = true ↔ v ∈ extQueries := by cases v <;> decide

theorem Variant.isReport3_iff {v : Variant} : v.isReport3 = true ↔ v ∈ reports := by cases v <;> decide

theorem Variant.hasGroup_iff {v : Variant} : v.hasGroup = true ↔ v ∉ reports := by cases v <;> decide

theorem Variant.isQuery_false_iff {v : Variant} : v.isQuery = false ↔ v ∉ queries := by
  rw [← Variant.isQuery_iff, Bool.not_eq_true]

theorem Variant.isExtQuery_false_iff {v : Variant} : v.isExtQuery = false ↔ v ∉ extQueries := by
  rw [← Variant.isExtQuery_iff, Bool.not_eq_true]

theorem Variant.isReport3_false_iff {v : Variant} : v.isReport3 = false ↔ v ∉ reports := by
  rw [← Variant.isReport3_iff, Bool.not_eq_true]

theorem Variant.hasGroup_false_iff {v : Variant} : v.hasGroup = false ↔ v ∈ reports := by
  rw [← Bool.not_eq_true, Variant.hasGroup_iff, not_not]

theorem Family.aw_eq (f : Family) : f.aw = if f = .igmp then 4 else 16 := by cases f <;> rfl

theorem Family.pseudo_eq (f : Family) : f.pseudo = decide (f = .mld) := by cases f <;> rfl

/-- A family's number is a legal `p` operand, and selects the pseudo-header as the family does (R115). -/
theorem Family.not_one_lt_id (f : Family) : ¬1 < f.id.toNat := by cases f <;> decide

theorem Family.decide_id_eq_one (f : Family) : decide (f.id = 1) = f.pseudo := by cases f <;> rfl

/-! Commands on the message register (R240). -/

/-- In the state `s` the command runs the rule on the message that is held, if its variant has the field. -/
def OnMessage (s : State) (i : Instr) (present : Variant → Bool) (rule : Context → Message → CmdResult) : Prop :=
  exec i s = s.runCtx fun c => c.withMsg present (rule c)

section
variable {i : Instr} {present : Variant → Bool} {rule : Context → Message → CmdResult} {s : State} {c : Context}

theorem OnMessage.noMessage (hi : OnMessage s i present rule) (hc : s.ctx? = some c) (hv : c.msgValid = false) :
    exec i s = .next (s.emit [0x15]) :=
  Eq.trans hi (State.runCtx_error (e := .noMessage) hc (Context.withMsg_noMessage _ hv _))

theorem OnMessage.fieldNotPresent (hi : OnMessage s i present rule) (hc : s.ctx? = some c) (hv : c.msgValid = true)
    (hp : present c.msg.variant = false) : exec i s = .next (s.emit [0x10]) :=
  Eq.trans hi (State.runCtx_error (e := .fieldNotPresent) hc (Context.withMsg_fieldNotPresent hv hp _))

theorem OnMessage.error {e : ErrorStatus} (hi : OnMessage s i present rule) (hc : s.ctx? = some c)
    (hv : c.msgValid = true) (hp : present c.msg.variant = true) (hr : rule c c.msg = .error e) :
    exec i s = .next (s.emit [e.code]) :=
  Eq.trans hi (State.runCtx_error hc ((Context.withMsg_run hv hp _).trans hr))

theorem OnMessage.ok {c' : Context} {p : List Byte} (hi : OnMessage s i present rule) (hc : s.ctx? = some c)
    (hv : c.msgValid = true) (hp : present c.msg.variant = true) (hr : rule c c.msg = .ok (c', p)) :
    exec i s = .next ((s.setCtx c').emit (0x00 :: p)) :=
  Eq.trans hi (State.runCtx_ok hc ((Context.withMsg_run hv hp _).trans hr))

theorem OnMessage.read {p : List Byte} (hi : OnMessage s i present rule) (hc : s.ctx? = some c)
    (hv : c.msgValid = true) (hp : present c.msg.variant = true) (hr : rule c c.msg = .ok (c, p)) :
    exec i s = .next (s.emit (0x00 :: p)) :=
  Eq.trans hi (State.runCtx_read hc ((Context.withMsg_run hv hp _).trans hr))

end

/-! The rule of each command. -/

section
variable (s : State)

theorem msgGetVariant_onMessage :
    OnMessage s .msgGetVariant anyVariant fun c m => .ok (c, [m.variant.id, m.variant.tag]) := rfl

theorem msgGetGroup_onMessage :
    OnMessage s .msgGetGroup Variant.hasGroup fun c m => .ok (c, payloadBytes m.group) := rfl

theorem msgSetGroup_onMessage (addr : List Byte) : OnMessage s (.msgSetGroup addr) Variant.hasGroup fun c m =>
    if addr.length ≠ m.variant.fam.aw then .error .invalidAddressFamily
    else .ok ({ c with msg := { m with group := addr } }, []) := rfl

theorem msgGetMaxrespCode_onMessage :
    OnMessage s .msgGetMaxrespCode Variant.isQuery fun c m => .ok (c, bytes16 m.mrc.toNat) := rfl

theorem msgSetMaxrespCode_onMessage (v : Word) : OnMessage s (.msgSetMaxrespCode v) Variant.isQuery fun c m =>
    .ok ({ c with msg := { m with mrc := truncMrc m.variant.fam v.toNat } }, []) := rfl

theorem msgGetMaxrespTime_onMessage : OnMessage s .msgGetMaxrespTime Variant.isQuery fun c m =>
    .ok (c, bytes32 (mrcTime m.variant.fam m.mrc.toNat)) := rfl

theorem msgSetMaxrespTime_onMessage (ms : Word) : OnMessage s (.msgSetMaxrespTime ms) Variant.isQuery fun c m =>
    .ok ({ c with msg := { m with mrc := BitVec.ofNat 16 (mrcOfTime m.variant.fam ms.toNat) } }, []) := rfl

theorem msgGetS_onMessage : OnMessage s .msgGetS Variant.isExtQuery fun c m => .ok (c, bytes8 m.sFlag.toNat) := rfl

theorem msgSetS_onMessage (v : Word) : OnMessage s (.msgSetS v) Variant.isExtQuery fun c m =>
    .ok ({ c with msg := { m with sFlag := v.setWidth 1 } }, []) := rfl

theorem msgGetQrv_onMessage : OnMessage s .msgGetQrv Variant.isExtQuery fun c m => .ok (c, bytes8 m.qrv.toNat) := rfl

theorem msgSetQrv_onMessage (v : Word) : OnMessage s (.msgSetQrv v) Variant.isExtQuery fun c m =>
    .ok ({ c with msg := { m with qrv := v.setWidth 3 } }, []) := rfl

theorem msgGetQqic_onMessage : OnMessage s .msgGetQqic Variant.isExtQuery fun c m => .ok (c, bytes8 m.qqic.toNat) := rfl

theorem msgSetQqic_onMessage (v : Word) : OnMessage s (.msgSetQqic v) Variant.isExtQuery fun c m =>
    .ok ({ c with msg := { m with qqic := v.setWidth 8 } }, []) := rfl

theorem msgGetQqi_onMessage :
    OnMessage s .msgGetQqi Variant.isExtQuery fun c m => .ok (c, bytes32 (tcDecode 4 m.qqic.toNat)) := rfl

theorem msgSetQqi_onMessage (v : Word) : OnMessage s (.msgSetQqi v) Variant.isExtQuery fun c m =>
    .ok ({ c with msg := { m with qqic := BitVec.ofNat 8 (tcEncode 4 v.toNat) } }, []) := rfl

theorem msgGetNsrc_onMessage :
    OnMessage s .msgGetNsrc Variant.isExtQuery fun c m => .ok (c, bytes16 m.srcs.length) := rfl

/-- The rule of `MSG_GET_SRC` (R260). -/
def messageSourceRule (k : Half) (c : Context) (m : Message) : CmdResult :=
  match m.srcs[k.toNat]? with
  | none => .error .indexOutOfRange
  | some addr => .ok (c, payloadBytes addr)

theorem msgGetSrc_onMessage (k : Half) : OnMessage s (.msgGetSrc k) Variant.isExtQuery (messageSourceRule k) := rfl

theorem msgAddSrc_onMessage (addr : List Byte) : OnMessage s (.msgAddSrc addr) Variant.isExtQuery fun c m =>
    if addr.length ≠ m.variant.fam.aw then .error .invalidAddressLength
    else if maxCount ≤ m.srcs.length then .error .countOverflow
    else .ok ({ c with msg := { m with srcs := m.srcs ++ [addr] } }, []) := rfl

theorem msgClearSrc_onMessage : OnMessage s .msgClearSrc Variant.isExtQuery fun c m =>
    .ok ({ c with msg := { m with srcs := [] } }, []) := rfl

theorem msgGetNrec_onMessage :
    OnMessage s .msgGetNrec Variant.isReport3 fun c m => .ok (c, bytes16 m.recs.length) := rfl

/-- The rule of `MSG_GET_REC` (R264). -/
def messageRecordRule (k : Half) (c : Context) (m : Message) : CmdResult :=
  match m.recs[k.toNat]? with
  | none => .error .indexOutOfRange
  | some g => .ok (c.loadRec g, [])

theorem msgGetRec_onMessage (k : Half) : OnMessage s (.msgGetRec k) Variant.isReport3 (messageRecordRule k) := rfl

/-- The rule of `MSG_ADD_REC` (R265). -/
def addRecordRule (c : Context) (m : Message) : CmdResult :=
  c.withRec fun g =>
    if g.fam ≠ m.variant.fam then .error .invalidAddressFamily
    else if maxCount ≤ m.recs.length then .error .countOverflow
    else .ok ({ c with msg := { m with recs := m.recs ++ [g] } }, [])

theorem msgAddRec_onMessage : OnMessage s .msgAddRec Variant.isReport3 addRecordRule := rfl

theorem msgClearRec_onMessage : OnMessage s .msgClearRec Variant.isReport3 fun c m =>
    .ok ({ c with msg := { m with recs := [] } }, []) := rfl

theorem msgLength_onMessage : OnMessage s .msgLength anyVariant fun c m => .ok (c, payloadLength m.len) := rfl

theorem msgEncode_onMessage (cap : Half) : OnMessage s (.msgEncode cap) anyVariant fun c m =>
    if cap.toNat < m.len ∨ s.bufCap < m.len then .error .bufferTooShort
    else .ok (c.encodeMsg m, bytes16 m.len) := rfl

/-! The field each command needs. -/

/-- The command has a rule on messages whose variant has the field (R240). -/
def NeedsField (i : Instr) (present : Variant → Bool) : Prop := ∃ rule, OnMessage s i present rule

variable {s}

theorem NeedsField.noMessage {i : Instr} {present : Variant → Bool} {c : Context} (hi : NeedsField s i present)
    (hc : s.ctx? = some c) (hv : c.msgValid = false) : exec i s = .next (s.emit [0x15]) :=
  let ⟨_, hrule⟩ := hi
  hrule.noMessage hc hv

theorem NeedsField.fieldNotPresent {i : Instr} {present : Variant → Bool} {c : Context} (hi : NeedsField s i present)
    (hc : s.ctx? = some c) (hv : c.msgValid = true) (hp : present c.msg.variant = false) :
    exec i s = .next (s.emit [0x10]) :=
  let ⟨_, hrule⟩ := hi
  hrule.fieldNotPresent hc hv hp

variable {i : Instr}

theorem groupCommand_needsField (h : i = .msgGetGroup ∨ ∃ a, i = .msgSetGroup a) :
    NeedsField s i Variant.hasGroup := by
  rcases h with rfl | ⟨a, rfl⟩
  · exact ⟨_, msgGetGroup_onMessage s⟩
  · exact ⟨_, msgSetGroup_onMessage s a⟩

theorem mrcCommand_needsField (h : i = .msgGetMaxrespCode ∨ (∃ v, i = .msgSetMaxrespCode v) ∨ i = .msgGetMaxrespTime ∨
    ∃ v, i = .msgSetMaxrespTime v) : NeedsField s i Variant.isQuery := by
  rcases h with rfl | ⟨v, rfl⟩ | rfl | ⟨v, rfl⟩
  · exact ⟨_, msgGetMaxrespCode_onMessage s⟩
  · exact ⟨_, msgSetMaxrespCode_onMessage s v⟩
  · exact ⟨_, msgGetMaxrespTime_onMessage s⟩
  · exact ⟨_, msgSetMaxrespTime_onMessage s v⟩

theorem tuningCommand_needsField (h : i = .msgGetS ∨ (∃ v, i = .msgSetS v) ∨ i = .msgGetQrv ∨ (∃ v, i = .msgSetQrv v) ∨
    i = .msgGetQqic ∨ (∃ v, i = .msgSetQqic v) ∨ i = .msgGetQqi ∨ ∃ v, i = .msgSetQqi v) :
    NeedsField s i Variant.isExtQuery := by
  rcases h with rfl | ⟨v, rfl⟩ | rfl | ⟨v, rfl⟩ | rfl | ⟨v, rfl⟩ | rfl | ⟨v, rfl⟩
  · exact ⟨_, msgGetS_onMessage s⟩
  · exact ⟨_, msgSetS_onMessage s v⟩
  · exact ⟨_, msgGetQrv_onMessage s⟩
  · exact ⟨_, msgSetQrv_onMessage s v⟩
  · exact ⟨_, msgGetQqic_onMessage s⟩
  · exact ⟨_, msgSetQqic_onMessage s v⟩
  · exact ⟨_, msgGetQqi_onMessage s⟩
  · exact ⟨_, msgSetQqi_onMessage s v⟩

theorem sourceCommand_needsField (h : i = .msgGetNsrc ∨ (∃ k, i = .msgGetSrc k) ∨ (∃ a, i = .msgAddSrc a) ∨
    i = .msgClearSrc) : NeedsField s i Variant.isExtQuery := by
  rcases h with rfl | ⟨k, rfl⟩ | ⟨a, rfl⟩ | rfl
  · exact ⟨_, msgGetNsrc_onMessage s⟩
  · exact ⟨_, msgGetSrc_onMessage s k⟩
  · exact ⟨_, msgAddSrc_onMessage s a⟩
  · exact ⟨_, msgClearSrc_onMessage s⟩

theorem recordCommand_needsField (h : i = .msgGetNrec ∨ (∃ k, i = .msgGetRec k) ∨ i = .msgAddRec ∨ i = .msgClearRec) :
    NeedsField s i Variant.isReport3 := by
  rcases h with rfl | ⟨k, rfl⟩ | rfl | rfl
  · exact ⟨_, msgGetNrec_onMessage s⟩
  · exact ⟨_, msgGetRec_onMessage s k⟩
  · exact ⟨_, msgAddRec_onMessage s⟩
  · exact ⟨_, msgClearRec_onMessage s⟩

end

/-! `MSG_NEW` (R243). -/

theorem variantOf_illegal {id : Byte} (h : 9 < id.toNat) : variantOf id = none := by
  unfold variantOf
  split
  case h_11 => rfl
  all_goals omega

/-- The variant's number, `k` of R27, reads back as the variant. -/
theorem variantOf_eq {id : Byte} {v : Variant} (h : id = v.id) : variantOf id = some v := by
  subst h; cases v <;> rfl

section
variable {s : State} {c : Context} {id : Byte}

theorem msgNew_illegal (hc : s.ctx? = some c) (h : 9 < id.toNat) : exec (.msgNew id) s = .next (s.emit [0x14]) :=
  State.runCtx_error (e := .invalidOperand) hc (by simp [variantOf_illegal h])

theorem msgNew_ok {v : Variant} (hc : s.ctx? = some c) (h : id = v.id) :
    exec (.msgNew id) s = .next ((s.setCtx (c.loadMsg (Message.new v))).emit [0x00]) :=
  State.runCtx_ok hc (by simp [variantOf_eq h])

end

/-! The values that the setters store. -/

theorem truncMrc_toNat (f : Family) (v : Nat) :
    (truncMrc f v).toNat = if f = .igmp then v % 2 ^ 8 else v % 2 ^ 16 := by
  cases f <;> simp only [truncMrc, BitVec.toNat_ofNat, reduceCtorEq, if_true, if_false] <;> omega

theorem mrcTime_eq (f : Family) (code : Nat) :
    mrcTime f code = if f = .igmp then tcDecode 4 code * 100 else tcDecode 12 code := by cases f <;> rfl

theorem mrcOfTime_eq (f : Family) (ms : Nat) :
    mrcOfTime f ms = if f = .igmp then tcEncode 4 (ms / 100) else tcEncode 12 ms := by cases f <;> rfl

/-- Every time code fits the 16 bits of the field (R190). -/
theorem mrcOfTime_lt_two_pow (f : Family) (ms : Nat) : mrcOfTime f ms < 2 ^ 16 := by
  cases f
  · exact (tcEncode_lt 4 (ms / 100)).trans (by decide)
  · exact tcEncode_lt 12 ms

end Sys2Proof.Machine
end

section
/-! PROOFS. The message variants (R240 to R267): the settled statements of 45_message.md on the message register. Each
command's bytes decode to it because they are its encoding (`decodeOfEncode`). -/

namespace Sys2Proof.Machine

/-! The register and its variant. -/

/-- The variants with their numbers and type tags (R27). -/
abbrev variantTable : List (Variant × Nat × Byte) :=
  [(.igmpv2Query, 0, 0x11), (.igmpv3Query, 1, 0x11), (.igmpv2Report, 2, 0x16), (.igmpv2Leave, 3, 0x17),
   (.igmpv3Report, 4, 0x22), (.mldv1Query, 5, 0x82), (.mldv2Query, 6, 0x82), (.mldv1Report, 7, 0x83),
   (.mldv1Done, 8, 0x84), (.mldv2Report, 9, 0x8F)]

/-- The rows are the model's numbers and tags; the numbers below 5 are those of IGMP. -/
theorem variantTable_row : ∀ e ∈ variantTable,
    e.2.1 = e.1.id.toNat ∧ e.2.2 = e.1.tag ∧ (if e.2.1 < 5 then 4 else 16) = e.1.fam.aw := by decide

/-- Settles O45: a row's number selects the row's variant, and the new message is `Message.new`. -/
theorem messageNewAndVariant : Obligations.MessageNewAndVariant := by
  intro s c id hc
  refine ⟨decodeOfEncode (.msgNew id) rfl, decodeOfEncode .msgGetVariant rfl, msgNew_illegal hc,
    fun v k tag hrow => ?_⟩
  obtain ⟨hk, htag, hwidth⟩ := variantTable_row _ hrow
  simp only at hk htag hwidth
  refine ⟨fun hid => ?new, fun hv hvariant => ?variant⟩
  case new =>
    rw [hwidth]
    exact msgNew_ok hc (BitVec.eq_of_toNat_eq (hid.trans hk))
  case variant =>
    rw [(msgGetVariant_onMessage s).read hc hv rfl rfl, hvariant, hk, htag, BitVec.ofNat_toNat, BitVec.setWidth_eq]

/-- Settles O46: the one check of the set is the width of the family's addresses. -/
theorem messageGroup : Obligations.MessageGroup := by
  intro s c addr hc hv hvariant
  have hp := Variant.hasGroup_iff.mpr hvariant
  rw [← Family.aw_eq]
  refine ⟨decodeOfEncode .msgGetGroup rfl, (msgGetGroup_onMessage s).read hc hv hp rfl,
    fun h => decodeOfEncode (.msgSetGroup addr) (decide_eq_true h), ?_⟩
  split_ifs with hwidth
  · exact (msgSetGroup_onMessage s addr).ok hc hv hp (if_neg (not_not.mpr hwidth))
  · exact (msgSetGroup_onMessage s addr).error (e := .invalidAddressFamily) hc hv hp (if_pos hwidth)

/-! The fields of a query. -/

/-- Settles O47: the stored codes are `truncMrc` and `mrcOfTime`, which fit the field. -/
theorem maxResponse : Obligations.MaxResponse := by
  intro s c v hc hv hvariant
  have hp := Variant.isQuery_iff.mpr hvariant
  rw [← mrcTime_eq, ← mrcOfTime_eq]
  refine ⟨decodeOfEncode .msgGetMaxrespCode rfl, (msgGetMaxrespCode_onMessage s).read hc hv hp rfl,
    decodeOfEncode (.msgSetMaxrespCode v) rfl,
    ⟨_, truncMrc_toNat _ _, (msgSetMaxrespCode_onMessage s v).ok hc hv hp rfl⟩,
    decodeOfEncode .msgGetMaxrespTime rfl, (msgGetMaxrespTime_onMessage s).read hc hv hp rfl,
    decodeOfEncode (.msgSetMaxrespTime v) rfl, ⟨_, ?_, (msgSetMaxrespTime_onMessage s v).ok hc hv hp rfl⟩⟩
  rw [BitVec.toNat_ofNat, Nat.mod_eq_of_lt (mrcOfTime_lt_two_pow _ _)]

/-- Settles O48: each set stores the operand's low bits; the interval's code has 8 bits (`tcEncode_lt`). -/
theorem queryTuning : Obligations.QueryTuning := by
  intro s c v hc hv hvariant
  have hp := Variant.isExtQuery_iff.mpr hvariant
  refine ⟨decodeOfEncode .msgGetS rfl, (msgGetS_onMessage s).read hc hv hp rfl,
    decodeOfEncode (.msgSetS v) rfl, ⟨_, BitVec.toNat_setWidth 1 v, (msgSetS_onMessage s v).ok hc hv hp rfl⟩,
    decodeOfEncode .msgGetQrv rfl, (msgGetQrv_onMessage s).read hc hv hp rfl,
    decodeOfEncode (.msgSetQrv v) rfl, ⟨_, BitVec.toNat_setWidth 3 v, (msgSetQrv_onMessage s v).ok hc hv hp rfl⟩,
    decodeOfEncode .msgGetQqic rfl, ?qqic,
    decodeOfEncode (.msgSetQqic v) rfl, ⟨_, BitVec.toNat_setWidth 8 v, (msgSetQqic_onMessage s v).ok hc hv hp rfl⟩,
    decodeOfEncode .msgGetQqi rfl, (msgGetQqi_onMessage s).read hc hv hp rfl,
    decodeOfEncode (.msgSetQqi v) rfl, ⟨_, ?qqi, (msgSetQqi_onMessage s v).ok hc hv hp rfl⟩⟩
  case qqic => rw [← bytes8_toNat]; exact (msgGetQqic_onMessage s).read hc hv hp rfl
  case qqi => rw [BitVec.toNat_ofNat, Nat.mod_eq_of_lt (tcEncode_lt 4 _)]

/-- Settles O49: the checks of the append, in its rule's order, are those of the statement. -/
theorem messageSources : Obligations.MessageSources := by
  intro s c k addr hc hv hvariant
  have hp := Variant.isExtQuery_iff.mpr hvariant
  refine ⟨decodeOfEncode .msgGetNsrc rfl, (msgGetNsrc_onMessage s).read hc hv hp rfl,
    decodeOfEncode (.msgGetSrc k) rfl, fun a ha => ?listed, fun hpast => ?unlisted,
    fun h => decodeOfEncode (.msgAddSrc addr) (decide_eq_true h), fun hwidth => ?badWidth,
    fun hwidth hfull => ?full, fun hwidth hroom => ?room,
    decodeOfEncode .msgClearSrc rfl, (msgClearSrc_onMessage s).ok hc hv hp rfl⟩
  case listed => exact (msgGetSrc_onMessage s k).read hc hv hp (by rw [messageSourceRule, ha]; rfl)
  case unlisted =>
    exact (msgGetSrc_onMessage s k).error (e := .indexOutOfRange) hc hv hp
      (by rw [messageSourceRule, List.getElem?_eq_none hpast])
  case badWidth => exact (msgAddSrc_onMessage s addr).error (e := .invalidAddressLength) hc hv hp (if_pos hwidth)
  case full =>
    exact (msgAddSrc_onMessage s addr).error (e := .countOverflow) hc hv hp
      ((if_neg (not_not.mpr hwidth)).trans (if_pos hfull.ge))
  case room =>
    exact (msgAddSrc_onMessage s addr).ok hc hv hp
      ((if_neg (not_not.mpr hwidth)).trans (if_neg (Nat.not_le.mpr hroom)))

/-! The records of a report. -/

/-- Settles O50: past the check of the record register the append checks the family, then the count. -/
theorem messageRecords : Obligations.MessageRecords := by
  intro s c k hc hv hvariant
  have hp := Variant.isReport3_iff.mpr hvariant
  refine ⟨decodeOfEncode .msgGetNrec rfl, (msgGetNrec_onMessage s).read hc hv hp rfl,
    decodeOfEncode (.msgGetRec k) rfl, fun g hg => ?listed, fun hpast => ?unlisted,
    decodeOfEncode .msgAddRec rfl, fun hgv hfam => ?badFamily, fun hgv hfam hfull => ?full,
    fun hgv hfam hroom => ?room,
    decodeOfEncode .msgClearRec rfl, (msgClearRec_onMessage s).ok hc hv hp rfl⟩
  case listed => exact (msgGetRec_onMessage s k).ok hc hv hp (by rw [messageRecordRule, hg]; rfl)
  case unlisted =>
    exact (msgGetRec_onMessage s k).error (e := .indexOutOfRange) hc hv hp
      (by rw [messageRecordRule, List.getElem?_eq_none hpast])
  case badFamily =>
    exact (msgAddRec_onMessage s).error (e := .invalidAddressFamily) hc hv hp
      ((Context.withRec_run hgv _).trans (if_pos hfam))
  case full =>
    exact (msgAddRec_onMessage s).error (e := .countOverflow) hc hv hp
      ((Context.withRec_run hgv _).trans ((if_neg (not_not.mpr hfam)).trans (if_pos hfull.ge)))
  case room =>
    exact (msgAddRec_onMessage s).ok hc hv hp
      ((Context.withRec_run hgv _).trans ((if_neg (not_not.mpr hfam)).trans (if_neg (Nat.not_le.mpr hroom))))

/-! The length. -/

/-- Settles O51: the variants' lengths are those of `Message.len`, the records' those of `Record.len`. -/
theorem messageLength : Obligations.MessageLength := by
  intro s c hc hv
  refine ⟨decodeOfEncode .msgLength rfl, ?_⟩
  intro len
  have hlen : len = c.msg.len := by
    cases hvariant : c.msg.variant <;> simp only [len, Message.len, hvariant]
    -- the two reports
    all_goals
      refine congrArg (fun l => 8 + List.sum l) (List.map_congr_left fun g _ => ?_)
      split
      next hfam => exact (Record.len_igmp hfam).symm
      next hfam => exact (Record.len_mld hfam).symm
  rw [hlen]
  exact (msgLength_onMessage s).read hc hv rfl rfl

/-! The checks of R240. -/

/-- Settles O54: every command checks for a message first, and then that the variant has the field the command needs, if
it needs one. -/
theorem messageGuards : Obligations.MessageGuards := by
  intro s c i hc onGroup onMrc onTuning onSources onRecords
  refine ⟨fun hv hi => ?noMessage, fun hv hi => ?fieldNotPresent⟩
  case noMessage =>
    rcases hi with h | h | h | h | h | rfl | rfl | ⟨cap, rfl⟩
    · exact (groupCommand_needsField h).noMessage hc hv
    · exact (mrcCommand_needsField h).noMessage hc hv
    · exact (tuningCommand_needsField h).noMessage hc hv
    · exact (sourceCommand_needsField h).noMessage hc hv
    · exact (recordCommand_needsField h).noMessage hc hv
    · exact (msgGetVariant_onMessage s).noMessage hc hv
    · exact (msgLength_onMessage s).noMessage hc hv
    · exact (msgEncode_onMessage s cap).noMessage hc hv
  case fieldNotPresent =>
    rcases hi with ⟨h, hvariant⟩ | ⟨h, hvariant⟩ | ⟨h | h, hvariant⟩ | ⟨h, hvariant⟩
    · exact (groupCommand_needsField h).fieldNotPresent hc hv (Variant.hasGroup_false_iff.mpr hvariant)
    · exact (mrcCommand_needsField h).fieldNotPresent hc hv (Variant.isQuery_false_iff.mpr hvariant)
    · exact (tuningCommand_needsField h).fieldNotPresent hc hv (Variant.isExtQuery_false_iff.mpr hvariant)
    · exact (sourceCommand_needsField h).fieldNotPresent hc hv (Variant.isExtQuery_false_iff.mpr hvariant)
    · exact (recordCommand_needsField h).fieldNotPresent hc hv (Variant.isReport3_false_iff.mpr hvariant)

end Sys2Proof.Machine
end

section
/-! PROOFS. The wire form (R242): the layouts of R91 to R100 as three shapes, and what a table that holds a legal
message's wire form holds at each field. The checksum field is left open, so that all of it also holds of the encoded
message, which has a checksum there. -/

namespace Sys2Proof.Machine

/-! The lengths (R102). -/

theorem Message.len_extQuery {m : Message} (h : m.variant ∈ extQueries) :
    m.len = m.variant.fixedLen + m.variant.fam.aw * m.srcs.length := by
  rcases List.mem_pair.mp h with hv | hv <;> simp [Message.len, hv, Variant.fixedLen, Variant.fam, Family.aw]

theorem Message.len_report {m : Message} (h : m.variant ∈ reports) : m.len = 8 + (m.recs.map Record.len).sum := by
  rcases List.mem_pair.mp h with hv | hv <;> simp [Message.len, hv]

theorem Message.len_plain {m : Message} (hext : m.variant ∉ extQueries) (hrep : m.variant ∉ reports) :
    m.len = m.variant.fixedLen := by
  cases hv : m.variant
  case igmpv3Query | mldv2Query => simp [hv] at hext
  case igmpv3Report | mldv2Report => simp [hv] at hrep
  all_goals simp [Message.len, hv, Variant.fixedLen]

/-- Every message has its fixed part. -/
theorem Message.fixedLen_le_len (m : Message) : m.variant.fixedLen ≤ m.len := by
  by_cases hext : m.variant ∈ extQueries
  · rw [Message.len_extQuery hext]; exact Nat.le_add_right _ _
  · by_cases hrep : m.variant ∈ reports
    · have h8 : m.variant.fixedLen = 8 := by rcases List.mem_pair.mp hrep with hv | hv <;> rw [hv] <;> rfl
      rw [Message.len_report hrep, h8]; exact Nat.le_add_right _ _
    · exact (Message.len_plain hext hrep).ge

theorem Variant.eight_le_fixedLen (v : Variant) : 8 ≤ v.fixedLen := by cases v <;> decide

theorem Message.eight_le_len (m : Message) : 8 ≤ m.len := m.variant.eight_le_fixedLen.trans m.fixedLen_le_len

/-! The layouts (R91 to R99). -/

/-- What stands after the group address (R93, R98): the rest of an extended query, else nothing. -/
def Message.tail (m : Message) : List Byte := if m.variant ∈ extQueries then m.queryTail else []

theorem Message.tail_extQuery {m : Message} (h : m.variant ∈ extQueries) : m.tail = m.queryTail := if_pos h

section
variable {m : Message}

/-- The IGMP messages with a group address: in those that are no query the code byte is 0, as their field is. -/
theorem Message.wire_igmp (hm : m.Legal) (hfam : m.variant.fam = .igmp) (hrep : m.variant ∉ reports) :
    m.wire = [m.variant.tag, m.mrc.setWidth 8, 0, 0] ++ (m.group ++ m.tail) := by
  obtain ⟨-, -, -, hmrc, -⟩ := hm
  cases hv : m.variant
  case igmpv2Query | igmpv3Query => simp [Message.wire, Message.tail, Variant.tag, hv]
  case igmpv2Report | igmpv2Leave =>
    simp [Message.wire, Message.tail, Variant.tag, hv, hmrc (by rw [hv]; rfl)]
  case igmpv3Report => simp [hv] at hrep
  all_goals simp [hv, Variant.fam] at hfam

/-- The MLD messages with a group address. -/
theorem Message.wire_mld (hm : m.Legal) (hfam : m.variant.fam = .mld) (hrep : m.variant ∉ reports) :
    m.wire = [m.variant.tag, 0, 0, 0] ++ (bytes16 m.mrc.toNat ++ (bytes16 0 ++ (m.group ++ m.tail))) := by
  obtain ⟨-, -, -, hmrc, -⟩ := hm
  cases hv : m.variant
  case mldv1Query | mldv2Query => simp [Message.wire, Message.tail, Variant.tag, hv, bytes16]
  case mldv1Report | mldv1Done =>
    simp [Message.wire, Message.tail, Variant.tag, hv, bytes16, hmrc (by rw [hv]; rfl)]
  case mldv2Report => simp [hv] at hrep
  all_goals simp [hv, Variant.fam] at hfam

/-- The reports with records, of both families. -/
theorem Message.wire_report (hrep : m.variant ∈ reports) :
    m.wire = [m.variant.tag, 0, 0, 0] ++
      (bytes16 0 ++ (bytes16 m.recs.length ++ (m.recs.map encodeRecord).flatten)) := by
  rcases List.mem_pair.mp hrep with hv | hv <;> simp [Message.wire, Message.reportTail, hv, bytes16]

/-- All layouts have the tag first and 0 in the checksum field. -/
theorem Message.wire_head (hm : m.Legal) : ∃ code rest, m.wire = [m.variant.tag, code, 0, 0] ++ rest := by
  by_cases hrep : m.variant ∈ reports
  · exact ⟨_, _, Message.wire_report hrep⟩
  · cases hfam : m.variant.fam
    · exact ⟨_, _, Message.wire_igmp hm hfam hrep⟩
    · exact ⟨_, _, Message.wire_mld hm hfam hrep⟩

end

/-! Fields at their offsets. -/

/-- Two byte strings stand back to back exactly if each stands at its own offset. -/
theorem Memory.readBytes_append_iff {b : Memory} {off : Nat} {x y : List Byte} :
    b.readBytes off (x ++ y).length = x ++ y ↔
      b.readBytes off x.length = x ∧ b.readBytes (off + x.length) y.length = y := by
  rw [List.length_append, Memory.readBytes_add]
  exact ⟨fun h => List.append_inj h (Memory.length_readBytes _ _ _), fun ⟨hx, hy⟩ => by rw [hx, hy]⟩

/-- The bytes from 0 up are those of the wire form of `m`, outside the checksum field. -/
def WireAt (b : Memory) (m : Message) : Prop := ∀ k, k < m.len → k ≠ 2 → k ≠ 3 → b.read k = m.wire.getD k 0

section
variable {b : Memory} {m : Message}

/-- The parts of a layout stand in the table. -/
theorem WireAt.parts (h : WireAt b m) (hm : m.Legal) {tag code : Byte} {rest : List Byte}
    (hw : m.wire = [tag, code, 0, 0] ++ rest) :
    b.read 0 = tag ∧ b.read 1 = code ∧ b.readBytes 4 rest.length = rest := by
  have hlen : m.len = rest.length + 4 := by rw [← Message.wire_length hm, hw]; simp
  refine ⟨?_, ?_, List.ext_getElem? fun k => ?_⟩
  · rw [h 0 (by omega) (by decide) (by decide), hw]; rfl
  · rw [h 1 (by omega) (by decide) (by decide), hw]; rfl
  · rw [Memory.getElem?_readBytes]
    split_ifs with hk
    · rw [h (4 + k) (by omega) (by omega) (by omega), hw, Nat.add_comm 4 k]
      simp [hk]
    · rw [List.getElem?_eq_none (Nat.le_of_not_lt hk)]

theorem WireAt.igmp (h : WireAt b m) (hm : m.Legal) (hfam : m.variant.fam = .igmp) (hrep : m.variant ∉ reports) :
    b.read 1 = m.mrc.setWidth 8 ∧ b.readBytes 4 4 = m.group ∧ b.readBytes 8 m.tail.length = m.tail := by
  obtain ⟨-, h1, hrest⟩ := h.parts hm (Message.wire_igmp hm hfam hrep)
  obtain ⟨hgroup, -⟩ := hm
  rw [hfam] at hgroup
  obtain ⟨hg, ht⟩ := Memory.readBytes_append_iff.mp hrest
  rw [hgroup] at hg ht
  exact ⟨h1, hg, ht⟩

theorem WireAt.mld (h : WireAt b m) (hm : m.Legal) (hfam : m.variant.fam = .mld) (hrep : m.variant ∉ reports) :
    b.read 1 = 0 ∧ b.u16 4 = m.mrc.toNat ∧ b.u16 6 = 0 ∧ b.readBytes 8 16 = m.group ∧
      b.readBytes 24 m.tail.length = m.tail := by
  obtain ⟨-, h1, hrest⟩ := h.parts hm (Message.wire_mld hm hfam hrep)
  obtain ⟨hgroup, -⟩ := hm
  rw [hfam] at hgroup
  obtain ⟨hmrc, hrest⟩ := Memory.readBytes_append_iff.mp hrest
  obtain ⟨hres, hrest⟩ := Memory.readBytes_append_iff.mp hrest
  obtain ⟨hg, ht⟩ := Memory.readBytes_append_iff.mp hrest
  rw [hgroup] at hg ht
  exact ⟨h1, Memory.u16_of_readBytes hmrc m.mrc.isLt, Memory.u16_of_readBytes hres (by decide), hg, ht⟩

theorem WireAt.report (h : WireAt b m) (hm : m.Legal) (hrep : m.variant ∈ reports) :
    b.read 1 = 0 ∧ b.u16 4 = 0 ∧ b.u16 6 = m.recs.length ∧
      b.readBytes 8 (m.recs.map Record.len).sum = (m.recs.map encodeRecord).flatten := by
  obtain ⟨-, h1, hrest⟩ := h.parts hm (Message.wire_report hrep)
  obtain ⟨-, -, -, -, -, -, hcount, hrecs, -⟩ := hm
  obtain ⟨hres, hrest⟩ := Memory.readBytes_append_iff.mp hrest
  obtain ⟨hn, hbytes⟩ := Memory.readBytes_append_iff.mp hrest
  rw [encodeRecords_length fun g hg => (hrecs g hg).1] at hbytes
  exact ⟨h1, Memory.u16_of_readBytes hres (by decide),
    Memory.u16_of_readBytes hn (Nat.lt_succ_of_le hcount), hbytes⟩

/-! The fields of an extended query. -/

theorem queryFlags_toNat (s : BitVec 1) (qrv : BitVec 3) : (queryFlags s qrv).toNat = s.toNat * 8 + qrv.toNat := by
  simp only [queryFlags, BitVec.toNat_append]
  rw [← Nat.shiftLeft_add_eq_or_of_lt qrv.isLt, Nat.shiftLeft_eq]
  simp

/-- The extended queries have a group address, and their fixed part (R93, R98) ends with the four bytes after it. -/
theorem extQuery_table : ∀ v ∈ extQueries, v ∉ reports ∧ (if v.fam = .igmp then 12 else 28) = v.fixedLen ∧
    v.fixedLen = (if v.fam = .igmp then 8 else 24) + 4 := by decide

/-- The fields of the rest of an extended query, from the offset where it stands (R93, R98). -/
theorem queryTail_fields {aw p : Nat} (hsrcs : addrsLegal aw m.srcs)
    (h : b.readBytes p m.queryTail.length = m.queryTail) :
    b.read p = queryFlags m.sFlag m.qrv ∧ b.read (p + 1) = m.qqic ∧ b.u16 (p + 2) = m.srcs.length ∧
      b.readAddrs (p + 4) aw m.srcs.length = m.srcs := by
  obtain ⟨hcount, hwidth⟩ := hsrcs
  obtain ⟨hhead, haddrs⟩ := Memory.readBytes_append_iff.mp h
  obtain ⟨hcodes, hn⟩ := Memory.readBytes_append_iff.mp hhead
  rw [flatten_length hwidth] at haddrs
  obtain ⟨hflags, hqqic⟩ : b.read p = queryFlags m.sFlag m.qrv ∧ b.read (p + 1) = m.qqic := by
    simpa [Memory.readBytes] using hcodes
  exact ⟨hflags, hqqic, Memory.u16_of_readBytes hn (Nat.lt_succ_of_le hcount),
    Memory.readAddrs_of_flatten hwidth haddrs⟩

/-- In an extended query they are the last four bytes of the fixed part, and the sources after it. -/
theorem WireAt.extQuery (h : WireAt b m) (hm : m.Legal) (hext : m.variant ∈ extQueries) :
    b.read (m.variant.fixedLen - 4) = queryFlags m.sFlag m.qrv ∧ b.read (m.variant.fixedLen - 3) = m.qqic ∧
      b.u16 (m.variant.fixedLen - 2) = m.srcs.length ∧
      b.readAddrs m.variant.fixedLen m.variant.fam.aw m.srcs.length = m.srcs := by
  obtain ⟨hrep, -, hfixed⟩ := extQuery_table _ hext
  have htail := Message.tail_extQuery hext
  have hsrcs : addrsLegal m.variant.fam.aw m.srcs := by
    obtain ⟨-, -, -, -, hsrcs, -⟩ := hm
    exact hsrcs
  rw [hfixed]
  apply queryTail_fields hsrcs
  rw [← htail]
  cases hfam : m.variant.fam
  · obtain ⟨-, -, ht⟩ := h.igmp hm hfam hrep
    exact ht
  · obtain ⟨-, -, -, -, ht⟩ := h.mld hm hfam hrep
    exact ht

/-! The records of a report. -/

/-- The records stand one after the other from offset 8 up to the message's length. -/
theorem WireAt.records (h : WireAt b m) (hm : m.Legal) (hrep : m.variant ∈ reports) :
    recordOffset b m.variant.fam m.recs.length = m.len ∧ ∀ i < m.recs.length,
      ∃ g, m.recs[i]? = some g ∧ RecordAt b m.variant.fam (recordOffset b m.variant.fam i) g := by
  obtain ⟨-, -, -, hbytes⟩ := h.report hm hrep
  obtain ⟨-, -, -, -, -, -, -, hrecs, -⟩ := hm
  have hat := recordOffset_of_bytes hrecs 0 hbytes
  simp only [Nat.zero_add] at hat
  rw [Message.len_report hrep]
  exact hat

/-! What the statements say of a table. -/

theorem WireAt.tag (h : WireAt b m) (hm : m.Legal) : b.read 0 = m.variant.tag := by
  obtain ⟨code, rest, hw⟩ := Message.wire_head hm
  obtain ⟨htag, -⟩ := h.parts hm hw
  exact htag

theorem queries_not_reports : ∀ v ∈ queries, v ∉ reports := by decide

/-- A legal code of an IGMP query fits the byte that carries it. -/
theorem Message.Legal.mrc_setWidth (hm : m.Legal) (hfam : m.variant.fam = .igmp) :
    (m.mrc.setWidth 8).toNat = m.mrc.toNat := by
  obtain ⟨-, -, hmrc, -⟩ := hm
  rw [BitVec.toNat_setWidth, Nat.mod_eq_of_lt (hmrc hfam)]

/-- The wire form has every field where R91 to R100 put it. -/
theorem WireAt.messageAt (h : WireAt b m) (hm : m.Legal) : MessageAt b m := by
  refine ⟨fun hrep => ?group, fun hquery => ?mrc, fun hext => ?tuning, fun hrep => ?records⟩
  case group =>
    cases hfam : m.variant.fam
    · obtain ⟨-, hgroup, -⟩ := h.igmp hm hfam hrep
      exact hgroup.symm
    · obtain ⟨-, -, -, hgroup, -⟩ := h.mld hm hfam hrep
      exact hgroup.symm
  case mrc =>
    have hrep := queries_not_reports _ hquery
    cases hfam : m.variant.fam
    · obtain ⟨hcode, -⟩ := h.igmp hm hfam hrep
      rw [if_pos rfl, hcode, hm.mrc_setWidth hfam]
    · obtain ⟨-, hcode, -⟩ := h.mld hm hfam hrep
      exact hcode.symm
  case tuning =>
    obtain ⟨hflags, hqqic, hcount, hsrcs⟩ := h.extQuery hm hext
    obtain ⟨-, hfixed, -⟩ := extQuery_table _ hext
    have hs := m.sFlag.isLt
    have hq := m.qrv.isLt
    simp only [hfixed, hflags, queryFlags_toNat]
    refine ⟨by omega, by omega, hqqic.symm, hcount.symm, fun i hi => ?_⟩
    have hi' := b.getElem?_readAddrs m.variant.fixedLen m.variant.fam.aw m.srcs.length i
    rwa [hsrcs, if_pos hi] at hi'
  case records =>
    obtain ⟨-, -, hcount, -⟩ := h.report hm hrep
    obtain ⟨-, hat⟩ := h.records hm hrep
    exact ⟨hcount.symm, hat⟩

/-- The wire form has 0 in every reserved field (R105); the code field of an IGMP message that is no query, and the
response delay of an MLD one, is such a field. -/
theorem WireAt.reservedZero (h : WireAt b m) (hm : m.Legal) : ReservedZero b m.variant := by
  have hmrc0 : m.variant ∉ queries → m.mrc = 0 := fun hquery => by
    obtain ⟨-, -, -, hmrc, -⟩ := hm
    exact hmrc (Variant.isQuery_false_iff.mpr hquery)
  have hflags : m.variant ∈ extQueries → (b.read (m.variant.fixedLen - 4)).toNat < 16 := fun hext => by
    obtain ⟨hflags, -⟩ := h.extQuery hm hext
    have hs := m.sFlag.isLt
    have hq := m.qrv.isLt
    rw [hflags, queryFlags_toNat]
    omega
  have hv3 : m.variant = .igmpv3Query → (b.read 8).toNat < 16 := fun hv => by
    rw [hv] at hflags; exact hflags (by decide)
  have hv2 : m.variant = .mldv2Query → (b.read 24).toNat < 16 := fun hv => by
    rw [hv] at hflags; exact hflags (by decide)
  by_cases hrep : m.variant ∈ reports
  · obtain ⟨h1, h4, -⟩ := h.report hm hrep
    exact ⟨fun _ _ => h1, fun _ => h1, fun _ hn => absurd hrep hn, fun _ _ => h4, fun _ => h4, hv3, hv2⟩
  · cases hfam : m.variant.fam
    · obtain ⟨h1, -⟩ := h.igmp hm hfam hrep
      have hnot : m.variant.fam ≠ .mld := by simp [hfam]
      exact ⟨fun _ hquery => by rw [h1, hmrc0 hquery]; rfl, fun hf => absurd hf hnot, fun hf => absurd hf hnot,
        fun hf => absurd hf hnot, fun hr => absurd hr hrep, hv3, hv2⟩
    · obtain ⟨h1, h4, h6, -⟩ := h.mld hm hfam hrep
      have hnot : m.variant.fam ≠ .igmp := by simp [hfam]
      exact ⟨fun hf => absurd hf hnot, fun _ => h1, fun _ _ => h6, fun _ hquery => by rw [h4, hmrc0 hquery]; rfl,
        fun hr => absurd hr hrep, hv3, hv2⟩

/-- The span that the wire form declares is the message's length (R102). -/
theorem WireAt.declaredSpan (h : WireAt b m) (hm : m.Legal) : declaredSpan m.variant b = m.len := by
  unfold Machine.declaredSpan
  split_ifs with hext hrep
  · obtain ⟨-, -, hcount, -⟩ := h.extQuery hm hext
    rw [hcount, Message.len_extQuery hext]
  · obtain ⟨-, -, hcount, -⟩ := h.report hm hrep
    obtain ⟨hend, -⟩ := h.records hm hrep
    rw [hcount, hend]
  · exact (Message.len_plain hext hrep).symm

end

end Sys2Proof.Machine
end

section
/-! PROOFS. Encoding and parsing a message (R268, R269): the context that `MSG_ENCODE` leaves, the one message that the
bytes of a table can hold, and what `PARSE` makes of a buffer with a wire form and its checksum. -/

namespace Sys2Proof.Machine

/-! `MSG_ENCODE` (R268). -/

section
variable {s : State} {c : Context} {m : Message} {cap : Half}

theorem Context.encodeMsg_eq (c : Context) (m : Message) :
    c.encodeMsg m = { c with buf := (c.encodeMsg m).buf, bufLen := m.len } := rfl

theorem Context.wf_encodeMsg (c : Context) (m : Message) : (c.encodeMsg m).buf.wf = true :=
  Memory.wf_writeBytes (Memory.wf_ofBytes 0 m.wire) 2 _

/-- Outside the checksum field the encoded message is its wire form. -/
theorem Context.read_encodeMsg {k : Nat} (h2 : k ≠ 2) (h3 : k ≠ 3) : (c.encodeMsg m).buf.read k = m.wire.getD k 0 := by
  have hstored := Memory.read_writeBytes_outside (Memory.wf_ofBytes 0 m.wire) (a := 2) (x := k)
    (bs := bytes16 (({ c.bufReplace m.wire with bufLen := m.len } : Context).csum m.len m.variant.fam.pseudo))
    (by rw [bytes16_length]; omega)
  exact hstored.trans (by rw [Memory.read_ofBytes, if_pos (Nat.zero_le k), Nat.sub_zero])

theorem Context.wireAt_encodeMsg (c : Context) (m : Message) : WireAt (c.encodeMsg m).buf m :=
  fun _ _ h2 h3 => Context.read_encodeMsg h2 h3

/-- The checksum stored is the one of the encoded message too, as its own field is summed as 0 (R173). -/
theorem Context.u16_encodeMsg (c : Context) (m : Message) :
    (c.encodeMsg m).buf.u16 2 = (c.encodeMsg m).csum m.len m.variant.fam.pseudo := by
  have hwf : ({ c.bufReplace m.wire with bufLen := m.len } : Context).buf.wf = true := Memory.wf_ofBytes 0 m.wire
  exact (Context.u16_storeChecksum_csum hwf _ _).trans (Context.csum_storeChecksum hwf _ _ _).symm

theorem msgEncode_fits (hc : s.ctx? = some c) (hv : c.msgValid = true) (hcap : c.msg.len ≤ cap.toNat)
    (hbuf : c.msg.len ≤ s.bufCap) :
    exec (.msgEncode cap) s = .next ((s.setCtx (c.encodeMsg c.msg)).emit (0x00 :: bytes16 c.msg.len)) :=
  (msgEncode_onMessage s cap).ok hc hv rfl (if_neg (by omega))

theorem msgEncode_short (hc : s.ctx? = some c) (hv : c.msgValid = true)
    (h : cap.toNat < c.msg.len ∨ s.bufCap < c.msg.len) : exec (.msgEncode cap) s = .next (s.emit [0x01]) :=
  (msgEncode_onMessage s cap).error (e := .bufferTooShort) hc hv rfl (if_pos h)

end

/-! The bytes determine the message. -/

section
variable {b : Memory} {m m' : Message}

theorem MessageAt_group_eq (hm : m.Legal) (hm' : m'.Legal) (hv : m.variant = m'.variant) (h : MessageAt b m)
    (h' : MessageAt b m') : m.group = m'.group := by
  by_cases hrep : m.variant ∈ reports
  · obtain ⟨-, hg, -⟩ := hm
    obtain ⟨-, hg', -⟩ := hm'
    rw [hg (Variant.hasGroup_false_iff.mpr hrep), hg' (Variant.hasGroup_false_iff.mpr (hv ▸ hrep)), hv]
  · obtain ⟨hg, -⟩ := h
    obtain ⟨hg', -⟩ := h'
    rw [hg hrep, hg' (hv ▸ hrep), hv]

theorem MessageAt_mrc_eq (hm : m.Legal) (hm' : m'.Legal) (hv : m.variant = m'.variant) (h : MessageAt b m)
    (h' : MessageAt b m') : m.mrc = m'.mrc := by
  by_cases hquery : m.variant ∈ queries
  · obtain ⟨-, hc, -⟩ := h
    obtain ⟨-, hc', -⟩ := h'
    exact BitVec.eq_of_toNat_eq (by rw [hc hquery, hc' (hv ▸ hquery), hv])
  · obtain ⟨-, -, -, hc, -⟩ := hm
    obtain ⟨-, -, -, hc', -⟩ := hm'
    rw [hc (Variant.isQuery_false_iff.mpr hquery), hc' (Variant.isQuery_false_iff.mpr (hv ▸ hquery))]

theorem MessageAt_tuning_eq (hm : m.Legal) (hm' : m'.Legal) (hv : m.variant = m'.variant) (h : MessageAt b m)
    (h' : MessageAt b m') :
    m.sFlag = m'.sFlag ∧ m.qrv = m'.qrv ∧ m.qqic = m'.qqic ∧ m.srcs = m'.srcs := by
  by_cases hext : m.variant ∈ extQueries
  · obtain ⟨-, -, hq, -⟩ := h
    obtain ⟨-, -, hq', -⟩ := h'
    obtain ⟨hs, hr, hi, hn, hat⟩ := hq hext
    obtain ⟨hs', hr', hi', hn', hat'⟩ := hq' (hv ▸ hext)
    rw [← hv] at hs' hr' hi' hn' hat'
    refine ⟨BitVec.eq_of_toNat_eq (hs.trans hs'.symm), BitVec.eq_of_toNat_eq (hr.trans hr'.symm), hi.trans hi'.symm,
      List.ext_getElem?' fun k hk => ?_⟩
    rw [hn, hn', Nat.max_self] at hk
    rw [hat k (hn ▸ hk), hat' k (hn' ▸ hk)]
  · obtain ⟨-, -, -, -, -, hz, -⟩ := hm
    obtain ⟨-, -, -, -, -, hz', -⟩ := hm'
    obtain ⟨hs, hr, hi, hl⟩ := hz (Variant.isExtQuery_false_iff.mpr hext)
    obtain ⟨hs', hr', hi', hl'⟩ := hz' (Variant.isExtQuery_false_iff.mpr (hv ▸ hext))
    exact ⟨hs.trans hs'.symm, hr.trans hr'.symm, hi.trans hi'.symm, hl.trans hl'.symm⟩

theorem MessageAt_recs_eq (hm : m.Legal) (hm' : m'.Legal) (hv : m.variant = m'.variant) (h : MessageAt b m)
    (h' : MessageAt b m') : m.recs = m'.recs := by
  by_cases hrep : m.variant ∈ reports
  · obtain ⟨-, -, -, hr⟩ := h
    obtain ⟨-, -, -, hr'⟩ := h'
    obtain ⟨hn, hat⟩ := hr hrep
    obtain ⟨hn', hat'⟩ := hr' (hv ▸ hrep)
    rw [← hv] at hat'
    refine List.ext_getElem?' fun k hk => ?_
    rw [hn, hn', Nat.max_self] at hk
    obtain ⟨g, hg, hgat⟩ := hat k (hn ▸ hk)
    obtain ⟨g', hg', hgat'⟩ := hat' k (hn' ▸ hk)
    rw [hg, hg', RecordAt_unique hgat hgat']
  · obtain ⟨-, -, -, -, -, -, -, -, hz⟩ := hm
    obtain ⟨-, -, -, -, -, -, -, -, hz'⟩ := hm'
    rw [hz (Variant.isReport3_false_iff.mpr hrep), hz' (Variant.isReport3_false_iff.mpr (hv ▸ hrep))]

/-- Legal messages of one variant that the same bytes hold are equal: their present fields are read from the bytes, and
their absent ones are zero or empty (notes/assumptions/4.md). -/
theorem MessageAt_unique (hm : m.Legal) (hm' : m'.Legal) (hv : m.variant = m'.variant) (h : MessageAt b m)
    (h' : MessageAt b m') : m = m' := by
  have hgroup := MessageAt_group_eq hm hm' hv h h'
  have hmrc := MessageAt_mrc_eq hm hm' hv h h'
  obtain ⟨hs, hqrv, hqqic, hsrcs⟩ := MessageAt_tuning_eq hm hm' hv h h'
  have hrecs := MessageAt_recs_eq hm hm' hv h h'
  cases m
  cases m'
  simp only [Message.mk.injEq]
  exact ⟨hv, hgroup, hmrc, hs, hqrv, hqqic, hsrcs, hrecs⟩

end

/-! `PARSE` of a wire form (R296 to R301). -/

/-- The decoder that R291 has for the variant's tag. -/
def Variant.decoder : Variant → Byte
  | .igmpv2Query | .igmpv3Query => 1
  | .igmpv2Report => 2
  | .igmpv2Leave => 3
  | .igmpv3Report => 4
  | .mldv1Query | .mldv2Query => 5
  | .mldv1Report => 6
  | .mldv1Done => 7
  | .mldv2Report => 8

theorem Variant.decoder_mem (v : Variant) : (v.decoder, v.fam, v.tag) ∈ canonicalEntries := by cases v <;> decide

theorem Variant.decoder_ne_zero (v : Variant) : v.decoder ≠ 0 := by cases v <;> decide

/-- The decoder and a message's length select the message's variant (R297): the extended queries are longer than the
short ones of their tag. -/
theorem selectVariant_decoder (m : Message) : selectVariant m.variant.decoder m.len = .ok m.variant := by
  have hfixed := m.fixedLen_le_len
  cases hv : m.variant <;> simp only [hv, Variant.fixedLen] at hfixed
  case igmpv2Query | mldv1Query => simp [selectVariant, Variant.decoder, Message.len, hv]
  case igmpv3Query =>
    have hne : m.len ≠ 8 := by omega
    simp [selectVariant, Variant.decoder, hne, hfixed]
  case mldv2Query =>
    have hne : m.len ≠ 24 := by omega
    simp [selectVariant, Variant.decoder, hne, hfixed]
  all_goals simp [selectVariant, Variant.decoder, decVariant, Variant.fixedLen, Nat.not_lt.mpr hfixed]

section
variable {b : Memory} {m : Message}

/-- No record of a legal message has an illegal type (R31). -/
theorem MessageAt.rtypeLegal (hm : m.Legal) (h : MessageAt b m) (hrep : m.variant ∈ reports) {i : Nat}
    (hi : i < b.u16 6) : rtypeLegal (b.read (recordOffset b m.variant.fam i)) = true := by
  obtain ⟨-, -, -, -, -, -, -, hrecs, -⟩ := hm
  obtain ⟨-, -, -, hr⟩ := h
  obtain ⟨hn, hat⟩ := hr hrep
  obtain ⟨g, hg, -, hrtype, -⟩ := hat i (hn ▸ hi)
  obtain ⟨⟨hlegal, -⟩, -⟩ := hrecs g (List.mem_of_getElem? hg)
  rw [← hrtype]
  exact hlegal

/-- The fields extracted from a wire form are those of the message (R300). -/
theorem WireAt.extract (h : WireAt b m) (hm : m.Legal) : extract m.variant b m.len = .ok m := by
  have hat := h.messageAt hm
  rw [← h.declaredSpan hm]
  rcases extract_cases m.variant b with ⟨hrep, ⟨i, hi, hbad⟩, -⟩ | ⟨-, m', he, hv, hat', hm'⟩
  · rw [hat.rtypeLegal hm hrep hi] at hbad
    cases hbad
  · rw [he, MessageAt_unique hm' hm hv hat' hat]

/-- A buffer with a wire form and its checksum parses to the message (R296 to R300). -/
theorem parseMsg_wire {reg : Memory} {c : Context} (h : WireAt c.buf m) (hm : m.Legal) (hlen : c.bufLen = m.len)
    (hreg : reg.read m.variant.tag.toNat = m.variant.decoder)
    (hcsum : c.buf.u16 2 = c.csum m.len m.variant.fam.pseudo) : parseMsg reg m.variant.fam c = .ok m := by
  have h8 := m.eight_le_len
  have hpeek : peekSpan m.variant c.buf m.len = .ok m.len := by
    rw [peekSpan_eq m.fixedLen_le_len, h.declaredSpan hm, if_neg (Nat.lt_irrefl _)]
  simp only [parseMsg, hlen, h.tag hm, hreg, if_neg m.variant.decoder_ne_zero, selectVariant_decoder, hpeek]
  rw [if_neg (by omega), if_neg (not_not.mpr hcsum.symm), h.extract hm]

end

/-- Parsing the message that is held writes nothing but the seal (R301). -/
theorem parse_held {s : State} {c : Context} (hc : s.ctx? = some c) (hv : c.msgValid = true)
    (h : parseMsg (s.regOf c.msg.variant.fam) c.msg.variant.fam c = .ok c.msg) :
    exec (.parse c.msg.variant.fam.id) s = .next (s.seal.emit [0x00, c.msg.variant.id]) := by
  have hself : c.loadMsg c.msg = c := by rw [Context.loadMsg, ← hv]
  have hsame : s.seal.setCtx c = s.seal := State.setCtx_self hc
  simp only [exec, execParse, State.inCtx_some hc, familyOf_id, parseInto, h, hself, State.commit, hsame]
  rfl

end Sys2Proof.Machine
end

section
/-! PROOFS. The wire form of a message (R242, R268, R269): the settled statements of 45_message.md on encoding and
parsing back. -/

namespace Sys2Proof.Machine

/-- Settles O52: a table that agrees with the wire form on its whole length holds it (`WireAt`), with 0 where the
checksum goes. -/
theorem wireLayout : Obligations.WireLayout := by
  intro m hm
  refine ⟨Message.wire_length hm, fun b hb => ?_⟩
  have h : WireAt b m := fun k hk _ _ => hb k hk
  have h8 := m.eight_le_len
  obtain ⟨code, rest, hw⟩ := Message.wire_head hm
  have h2 : b.read 2 = 0 := by rw [hb 2 (by omega), hw]; rfl
  have h3 : b.read 3 = 0 := by rw [hb 3 (by omega), hw]; rfl
  exact ⟨h.tag hm, by rw [Memory.u16, h2, h3]; rfl, h.messageAt hm, h.reservedZero hm, h.declaredSpan hm⟩

/-- Settles O53: the new buffer is that of `Context.encodeMsg`. -/
theorem messageEncode : Obligations.MessageEncode := by
  intro s c cap hc hv hm
  refine ⟨decodeOfEncode (.msgEncode cap) rfl, fun hcap hbuf => ?_, msgEncode_short hc hv⟩
  refine ⟨(c.encodeMsg c.msg).buf, c.wf_encodeMsg c.msg, fun k h2 h3 => ?byte, ?checksum,
    msgEncode_fits hc hv hcap hbuf⟩
  case byte =>
    rw [Context.read_encodeMsg h2 h3]
    split_ifs with hk
    · rfl
    · rw [List.getD_eq_default _ _ (by rw [Message.wire_length hm]; omega)]
  case checksum =>
    rw [← Family.pseudo_eq]
    exact c.u16_encodeMsg c.msg

/-- Settles O55: the encoded message is a wire form with its checksum, so it verifies and parses to the message that is
still held (`parseMsg_wire`). -/
theorem messageRoundTrip : Obligations.MessageRoundTrip := by
  intro s c hc hv hm hbuf hcap hreg
  have h8 := c.msg.eight_le_len
  have hlen : (BitVec.ofNat 16 c.msg.len).toNat = c.msg.len := by
    rw [BitVec.toNat_ofNat, Nat.mod_eq_of_lt (by omega)]
  have hencoded := msgEncode_fits (cap := 65535) hc hv (hbuf.trans hcap) hbuf
  have hc' := State.ctx?_setCtx_emit (c' := c.encodeMsg c.msg) hc (0x00 :: bytes16 c.msg.len)
  have hparsed : parseMsg (s.regOf c.msg.variant.fam) c.msg.variant.fam (c.encodeMsg c.msg) = .ok c.msg :=
    parseMsg_wire (c.wireAt_encodeMsg c.msg) hm rfl (hreg _ (Variant.decoder_mem _) rfl) (c.u16_encodeMsg c.msg)
  refine ⟨_, c.encodeMsg c.msg, _, hencoded, hc', rfl, ?verifies, ?parses, rfl, rfl⟩
  case verifies =>
    refine csumVerify_match hc' (Family.not_one_lt_id _) ?_ ?_
    · rw [Context.ShortForField, hlen, Context.encodeMsg_eq]
      simp only
      omega
    · rw [hlen, Family.decide_id_eq_one, c.u16_encodeMsg]
  case parses =>
    refine parse_held (c := c.encodeMsg c.msg) hc' hv ?_
    rw [State.regOf_emit, State.regOf_setCtx]
    exact hparsed

end Sys2Proof.Machine
end

section
/-! PROOFS. The registry commands and `PARSE` (R291 to R302): the decoders' own entries, a table after entries are
written, the selection of a variant, and what each command does in each case of its own rules. -/

namespace Sys2Proof.Machine

/-! The decoders' own entries (R291). -/

/-- The model's `Canon(d)` and the table of R291 say the same. -/
theorem canon_iff {dec tag : Byte} {f : Family} : canon dec = some (f, tag) ↔ (dec, f, tag) ∈ canonicalEntries := by
  constructor
  · intro h
    unfold canon at h
    split at h
    case h_9 => cases h
    all_goals
      next hdec =>
        cases h
        simp [← BitVec.toNat_inj, hdec]
  · intro h
    fin_cases h <;> rfl

/-! The tables after entries are written (R292, R294). -/

/-- Both registry tables are canonical. -/
def State.RegistryWf (s : State) : Prop := ∀ f, (s.regOf f).wf = true

theorem State.registryWf_iff {s : State} : s.RegistryWf ↔ s.regIgmp.wf = true ∧ s.regMld.wf = true :=
  ⟨fun h => ⟨h .igmp, h .mld⟩, fun ⟨higmp, hmld⟩ f => by cases f <;> assumption⟩

/-- A registration leaves the other family's table as it was. -/
theorem State.regOf_regWrite_other {s : State} {f f' : Family} (h : f' ≠ f) (tag dec : Byte) :
    (s.regWrite f tag dec).regOf f' = s.regOf f' := by
  cases f with
  | igmp =>
    cases f' with
    | igmp => exact absurd rfl h
    | mld => rfl
  | mld =>
    cases f' with
    | igmp => rfl
    | mld => exact absurd rfl h

theorem State.RegistryWf.regWrite {s : State} (h : s.RegistryWf) (f : Family) (tag dec : Byte) :
    (s.regWrite f tag dec).RegistryWf := fun f' => by
  by_cases hf : f' = f
  · rw [hf, State.regWrite_regOf_self]
    exact Memory.wf_write (h f) _ _
  · rw [State.regOf_regWrite_other hf]
    exact h f'

/-- After a registration its own entry holds the decoder, and every other entry what it held. -/
theorem State.RegistryWf.read_regWrite {s : State} (h : s.RegistryWf) (f : Family) (tag dec : Byte) (f' : Family)
    (k : Nat) : ((s.regWrite f tag dec).regOf f').read k =
      if f' = f ∧ k = tag.toNat then dec else (s.regOf f').read k := by
  by_cases hf : f' = f
  · rw [hf, State.regWrite_regOf_self, Memory.read_write (h f)]
    simp
  · rw [State.regOf_regWrite_other hf, if_neg fun hk => hf hk.1]

/-- A registration writes nothing but the tables. -/
theorem State.regWrite_frame (s : State) (f : Family) (tag dec : Byte) :
    s.regWrite f tag dec =
      { s with regIgmp := (s.regWrite f tag dec).regIgmp, regMld := (s.regWrite f tag dec).regMld } := by
  cases f <;> rfl

/-- Several registrations, in order; an entry is a decoder, a family and a tag. -/
def State.regWriteAll (s : State) (l : List (Byte × Family × Byte)) : State :=
  l.foldl (fun t e => t.regWrite e.2.1 e.2.2 e.1) s

/-- `REG_BUILD` is the registration of the table of R291. -/
theorem State.regBuild_eq (s : State) : s.regBuild = s.regWriteAll canonicalEntries := rfl

theorem State.regWriteAll_cons (s : State) (e : Byte × Family × Byte) (l : List (Byte × Family × Byte)) :
    s.regWriteAll (e :: l) = (s.regWrite e.2.1 e.2.2 e.1).regWriteAll l := rfl

section
variable {s : State} {l : List (Byte × Family × Byte)}

theorem State.RegistryWf.regWriteAll (h : s.RegistryWf) : (s.regWriteAll l).RegistryWf := by
  induction l generalizing s with
  | nil => exact h
  | cons e l ih => exact ih (h.regWrite e.2.1 e.2.2 e.1)

/-- An entry that is not registered keeps what it held. -/
theorem State.RegistryWf.read_regWriteAll_other (h : s.RegistryWf) {f : Family} {k : Nat}
    (hother : ∀ e ∈ l, e.2.1 = f → e.2.2.toNat ≠ k) : ((s.regWriteAll l).regOf f).read k = (s.regOf f).read k := by
  induction l generalizing s with
  | nil => rfl
  | cons e l ih =>
    rw [State.regWriteAll_cons, ih (h.regWrite _ _ _) fun e' he' => hother e' (List.mem_cons_of_mem _ he'),
      h.read_regWrite, if_neg fun hk => hother e List.mem_cons_self hk.1.symm hk.2.symm]

/-- Where no entry is registered twice, each holds its decoder. -/
theorem State.RegistryWf.read_regWriteAll (h : s.RegistryWf)
    (hdistinct : l.Pairwise fun e e' => e'.2.1 = e.2.1 → e'.2.2.toNat ≠ e.2.2.toNat) :
    ∀ e ∈ l, (s.regWriteAll l).regRead e.2.1 e.2.2 = e.1 := by
  induction l generalizing s with
  | nil => exact fun e he => absurd he List.not_mem_nil
  | cons e l ih =>
    obtain ⟨hlater, hrest⟩ := List.pairwise_cons.mp hdistinct
    have hwf := h.regWrite e.2.1 e.2.2 e.1
    rw [State.regWriteAll_cons]
    refine List.forall_mem_cons.mpr ⟨?_, ih hwf hrest⟩
    rw [State.regRead, hwf.read_regWriteAll_other hlater, h.read_regWrite, if_pos ⟨rfl, rfl⟩]

end

/-! The registry commands (R292 to R295). -/

section
variable {s : State} {c : Context} {fam tag dec : Byte} {f : Family}

theorem regRegister_illegalFamily (hc : s.ctx? = some c) (h : 1 < fam.toNat) :
    exec (.regRegister fam tag dec) s = .next (s.emit [0x14]) := by
  simp only [exec, execRegRegister, State.inCtx_some hc, familyOf_illegal h]
  rfl

/-- The checks of a registration of a legal family, in their order. -/
theorem regRegister_legalFamily (hc : s.ctx? = some c) (hf : familyOf fam = some f) :
    exec (.regRegister fam tag dec) s =
      if 8 < dec.toNat then .next (s.emit [0x14])
      else if dec ≠ 0 ∧ (dec, f, tag) ∉ canonicalEntries then .next (s.emit [0x17])
      else if s.isSealed = true then .next ({ s with fault := true, faultCause := 1 }.emit [0xFF, 1])
      else .next ((s.regWrite f tag dec).emit [0x00]) := by
  simp only [exec, execRegRegister, State.inCtx_some hc, hf, ← canon_iff]
  rfl

theorem regLookup_illegalFamily (hc : s.ctx? = some c) (h : 1 < fam.toNat) :
    exec (.regLookup fam tag) s = .next (s.emit [0x14]) := by
  simp only [exec, execRegLookup, State.inCtx_some hc, familyOf_illegal h]
  rfl

theorem regLookup_legalFamily (hc : s.ctx? = some c) (hf : familyOf fam = some f) :
    exec (.regLookup fam tag) s = .next (s.emit [0x00, s.regRead f tag]) := by
  simp only [exec, execRegLookup, State.inCtx_some hc, hf]
  rfl

theorem regBuild_sealed (hc : s.ctx? = some c) (h : s.isSealed = true) :
    exec .regBuild s = .next ({ s with fault := true, faultCause := 1 }.emit [0xFF, 1]) := by
  simp only [exec, execRegBuild, State.inCtx_some hc, if_pos h]
  rfl

theorem regBuild_unsealed (hc : s.ctx? = some c) (h : s.isSealed = false) :
    exec .regBuild s = .next (s.regBuild.emit [0x00]) := by
  simp only [exec, execRegBuild, State.inCtx_some hc, h]
  rfl

theorem regSeal_seals (hc : s.ctx? = some c) : exec .regSeal s = .next (s.seal.emit [0x00]) := by
  simp only [exec, execRegSeal, State.inCtx_some hc]
  rfl

end

/-! The selection of a variant (R297). -/

theorem selectVariant_unknown (n : Nat) : selectVariant 0 n = .error .unknownMessageType := rfl

theorem selectVariant_igmpQuery_ambiguous {n : Nat} (h8 : n ≠ 8) (h12 : n < 12) :
    selectVariant 1 n = .error .ambiguousLengthVariant :=
  (if_pos rfl).trans ((if_neg h8).trans (if_neg (Nat.not_le.mpr h12)))

theorem selectVariant_mldQuery_ambiguous {n : Nat} (h24 : n ≠ 24) (h28 : n < 28) :
    selectVariant 5 n = .error .ambiguousLengthVariant :=
  (if_neg (by decide)).trans ((if_pos rfl).trans ((if_neg h24).trans (if_neg (Nat.not_le.mpr h28))))

/-- A decoder of one variant takes every length from the variant's fixed length up. -/
theorem selectVariant_oneVariant {dec : Byte} {v : Variant} (h : decVariant dec = some v) (n : Nat) :
    selectVariant dec n = if n < v.fixedLen then .error .bufferTooShort else .ok v := by
  have h1 : dec ≠ 1 := by rintro rfl; cases h
  have h5 : dec ≠ 5 := by rintro rfl; cases h
  simp only [selectVariant, if_neg h1, if_neg h5, h]

/-- The lengths for which a variant's decoder selects it: of the two queries of a tag the short one has one length. -/
def Variant.Selects (v : Variant) (n : Nat) : Prop :=
  if v = .igmpv2Query then n = 8 else if v = .mldv1Query then n = 24 else v.fixedLen ≤ n

theorem Variant.Selects.fixedLen_le {v : Variant} {n : Nat} (h : v.Selects n) : v.fixedLen ≤ n := by
  unfold Variant.Selects at h
  split_ifs at h with h1 h2
  · rw [h1, h]; decide
  · rw [h2, h]; decide
  · exact h

theorem Variant.Selects.selectVariant {v : Variant} {n : Nat} (h : v.Selects n) :
    selectVariant v.decoder n = .ok v := by
  have hfixed := h.fixedLen_le
  cases v
  case igmpv2Query | mldv1Query => obtain rfl : n = _ := h; rfl
  case igmpv3Query =>
    have hne : n ≠ 8 := fun h8 => by rw [h8] at hfixed; exact absurd hfixed (by decide)
    exact (if_pos rfl).trans ((if_neg hne).trans (if_pos hfixed))
  case mldv2Query =>
    have hne : n ≠ 24 := fun h24 => by rw [h24] at hfixed; exact absurd hfixed (by decide)
    exact (if_neg (by decide)).trans ((if_pos rfl).trans ((if_neg hne).trans (if_pos hfixed)))
  all_goals exact (selectVariant_oneVariant rfl n).trans (if_neg (Nat.not_lt.mpr hfixed))

/-! Parsing (R296 to R300). -/

section
variable {reg : Memory} {f : Family} {c : Context} {v : Variant}

theorem parseMsg_empty (h : c.bufLen = 0) : parseMsg reg f c = .error .bufferTooShort :=
  if_pos (by omega)

/-- Where the tag's decoder and the length select no variant, their error is the answer; an entry 0 is a decoder that
selects none. -/
theorem parseMsg_unselected {e : ErrorStatus} (hlen : 0 < c.bufLen)
    (h : selectVariant (reg.read (c.buf.read 0).toNat) c.bufLen = .error e) : parseMsg reg f c = .error e := by
  rw [parseMsg, if_neg (by omega)]
  by_cases hd : reg.read (c.buf.read 0).toNat = 0
  · rw [hd, selectVariant_unknown] at h
    simp only [hd, if_true]
    exact congrArg Except.error (Except.error.inj h)
  · simp only [if_neg hd, h]

/-- Past the selection: the declared span, the checksum, the fields. -/
theorem parseMsg_selected (hreg : reg.read (c.buf.read 0).toNat = v.decoder) (h : v.Selects c.bufLen) :
    parseMsg reg f c =
      if c.bufLen < declaredSpan v c.buf then .error .bufferTooShort
      else if c.csum (declaredSpan v c.buf) f.pseudo ≠ c.buf.u16 2 then .error .checksumMismatch
      else extract v c.buf (declaredSpan v c.buf) := by
  have hfixed := h.fixedLen_le
  have h8 := v.eight_le_fixedLen
  rw [parseMsg, if_neg (by omega)]
  simp only [hreg, if_neg v.decoder_ne_zero, h.selectVariant, peekSpan_eq hfixed]
  by_cases hspan : c.bufLen < declaredSpan v c.buf
  · simp only [if_pos hspan]
  · simp only [if_neg hspan]

/-- A parse looks at no message register. -/
theorem parseMsg_loadMsg (reg : Memory) (f : Family) (c : Context) (m : Message) :
    parseMsg reg f (c.loadMsg m) = parseMsg reg f c := rfl

end

/-! `PARSE` (R301). -/

theorem State.seal_of_sealed {s : State} (h : s.isSealed = true) : s.seal = s := by rw [State.seal, ← h]

section
variable {s : State} {c : Context} {fam : Byte} {f : Family}

theorem parse_illegalFamily (hc : s.ctx? = some c) (hf : familyOf fam = none) :
    exec (.parse fam) s = .next (s.emit [0x14]) := by
  simp only [exec, execParse, State.inCtx_some hc, hf]
  rfl

theorem parse_error {e : ErrorStatus} (hc : s.ctx? = some c) (hf : familyOf fam = some f)
    (h : parseMsg (s.regOf f) f c = .error e) : exec (.parse fam) s = .next (s.seal.emit [e.code]) := by
  simp only [exec, execParse, State.inCtx_some hc, hf, parseInto, h]
  rfl

/-- The decoder found for the tag selects no variant (R297). -/
theorem parse_unselected {d : Byte} {e : ErrorStatus} (hc : s.ctx? = some c) (hf : familyOf fam = some f)
    (hlen : 0 < c.bufLen) (hd : s.regRead f (c.buf.read 0) = d) (h : selectVariant d c.bufLen = .error e) :
    exec (.parse fam) s = .next (s.seal.emit [e.code]) := by
  subst hd
  exact parse_error hc hf (parseMsg_unselected hlen h)

/-- The decoder found is one of one variant, which the buffer is too short for (R297). -/
theorem parse_short {d : Byte} {v : Variant} (hc : s.ctx? = some c) (hf : familyOf fam = some f)
    (hlen : 0 < c.bufLen) (hd : s.regRead f (c.buf.read 0) = d) (hv : decVariant d = some v)
    (h : c.bufLen < v.fixedLen) : exec (.parse fam) s = .next (s.seal.emit [0x01]) :=
  parse_unselected (e := .bufferTooShort) hc hf hlen hd ((selectVariant_oneVariant hv _).trans (if_pos h))

theorem parse_ok {m : Message} (hc : s.ctx? = some c) (hf : familyOf fam = some f)
    (h : parseMsg (s.regOf f) f c = .ok m) :
    exec (.parse fam) s = .next ((s.seal.setCtx (c.loadMsg m)).emit [0x00, m.variant.id]) := by
  simp only [exec, execParse, State.inCtx_some hc, hf, parseInto, h]
  rfl

/-- A parse that fails fails again, with the registry sealed already. -/
theorem parse_error_again {e : ErrorStatus} (hc : s.ctx? = some c) (hf : familyOf fam = some f)
    (hsealed : s.isSealed = true) (h : parseMsg (s.regOf f) f c = .error e) :
    exec (.parse fam) s = .next (s.emit [e.code]) := by
  rw [parse_error hc hf h, State.seal_of_sealed hsealed]

/-- A parse of the message that is held already writes nothing more. -/
theorem parse_ok_again {m : Message} (hc : s.ctx? = some (c.loadMsg m)) (hf : familyOf fam = some f)
    (hsealed : s.isSealed = true) (h : parseMsg (s.regOf f) f c = .ok m) :
    exec (.parse fam) s = .next (s.emit [0x00, m.variant.id]) := by
  have hsame : s.setCtx ((c.loadMsg m).loadMsg m) = s := State.setCtx_self hc
  rw [parse_ok hc hf ((parseMsg_loadMsg _ _ _ _).trans h), State.seal_of_sealed hsealed, hsame]

end

end Sys2Proof.Machine
end

section
/-! PROOFS. The parser registry and `PARSE` (R291 to R302): the settled statements of 46_registry.md. Each command's
bytes decode to it because they are its encoding (`decodeOfEncode`). -/

namespace Sys2Proof.Machine

/-! The registry. -/

/-- Settles O56: the checks of the statement are those of `regRegister_legalFamily`, in the same order; an illegal
family is answered as an illegal decoder is. -/
theorem registryRegister : Obligations.RegistryRegister := by
  intro s c fam tag dec f hc higmp hmld hf
  refine ⟨decodeOfEncode (.regRegister fam tag dec) rfl, ?_⟩
  have hwf : s.RegistryWf := State.registryWf_iff.mpr ⟨higmp, hmld⟩
  by_cases hfam : 1 < fam.toNat
  · rw [if_pos (.inl hfam)]
    exact regRegister_illegalFamily hc hfam
  · rw [regRegister_legalFamily hc (familyOf_legal hfam hf)]
    simp only [hfam, false_or]
    split_ifs with hdec hentry hsealed
    case neg =>
      have hwf' := hwf.regWrite f tag dec
      exact ⟨s.regWrite f tag dec, s.regWrite_frame f tag dec, hwf' .igmp, hwf' .mld, hwf.read_regWrite f tag dec,
        rfl⟩
    all_goals rfl

/-- Settles O57: `REG_BUILD` registers the table of R291, which has no entry twice. -/
theorem registryLookupBuildSeal : Obligations.RegistryLookupBuildSeal := by
  intro s c fam tag hc higmp hmld
  have hwf : s.RegistryWf := State.registryWf_iff.mpr ⟨higmp, hmld⟩
  refine ⟨decodeOfEncode (.regLookup fam tag) rfl, decodeOfEncode .regBuild rfl, decodeOfEncode .regSeal rfl,
    regLookup_illegalFamily hc, ?igmp, ?mld, regBuild_sealed hc, fun hopen => ?build, regSeal_seals hc⟩
  case igmp => rintro rfl; exact regLookup_legalFamily hc (familyOf_id .igmp)
  case mld => rintro rfl; exact regLookup_legalFamily hc (familyOf_id .mld)
  case build =>
    obtain ⟨higmp', hmld'⟩ := State.registryWf_iff.mp (hwf.regWriteAll (l := canonicalEntries))
    exact ⟨s.regBuild, rfl, higmp', hmld', hwf.read_regWriteAll (by decide),
      fun f k hother => hwf.read_regWriteAll_other hother, regBuild_unsealed hc hopen⟩

/-! `PARSE`. -/

/-- Each decoder of R291 with each variant it can yield. -/
abbrev dispatchTable : List (Byte × Variant) :=
  [(1, .igmpv2Query), (1, .igmpv3Query), (2, .igmpv2Report), (3, .igmpv2Leave), (4, .igmpv3Report), (5, .mldv1Query),
   (5, .mldv2Query), (6, .mldv1Report), (7, .mldv1Done), (8, .mldv2Report)]

/-- The rows are the variants' decoders. -/
theorem dispatchTable_row : ∀ e ∈ dispatchTable, e.1 = e.2.decoder := by decide

/-- Settles O58: each clause past the empty buffer is an error of `selectVariant`. -/
theorem parseDispatchErrors : Obligations.ParseDispatchErrors := by
  intro s c fam f hc hf
  refine ⟨decodeOfEncode (.parse fam) rfl, fun h => parse_illegalFamily hc (familyOf_illegal h), fun hfam => ?_⟩
  have hf := familyOf_legal (Nat.not_lt.mpr hfam) hf
  refine ⟨fun hempty => ?empty, fun hlen hd => ?unknown, fun hlen hd h8 h12 => ?igmpQuery,
    fun hlen hd h24 h28 => ?mldQuery, fun hlen hd hn => ?fixed8, fun hlen hd hn => ?fixed24⟩
  case empty => exact parse_error (e := .bufferTooShort) hc hf (parseMsg_empty hempty)
  case unknown => exact parse_unselected (e := .unknownMessageType) hc hf hlen hd (selectVariant_unknown _)
  case igmpQuery =>
    exact parse_unselected (e := .ambiguousLengthVariant) hc hf hlen hd (selectVariant_igmpQuery_ambiguous h8 h12)
  case mldQuery =>
    exact parse_unselected (e := .ambiguousLengthVariant) hc hf hlen hd (selectVariant_mldQuery_ambiguous h24 h28)
  case fixed8 => rcases hd with hd | hd | hd | hd <;> exact parse_short hc hf hlen hd rfl hn
  case fixed24 => rcases hd with hd | hd <;> exact parse_short hc hf hlen hd rfl hn

/-- Settles O59: past the selection `parseMsg` checks span and checksum, and the extraction of the fields can fail on a
record type only (`extract_cases`). -/
theorem parseMessage : Obligations.ParseMessage := by
  intro s c v dec hc hrow hreg hselects
  obtain rfl : dec = v.decoder := dispatchTable_row _ hrow
  intro span sealed
  have hf := familyOf_id v.fam
  have hparse := parseMsg_selected (f := v.fam) hreg hselects
  rw [← Family.pseudo_eq]
  by_cases hspan : c.bufLen < span
  · rw [if_pos hspan] at hparse ⊢
    exact parse_error hc hf hparse
  rw [if_neg hspan] at hparse ⊢
  by_cases hcsum : c.csum span v.fam.pseudo ≠ c.buf.u16 2
  · rw [if_pos hcsum] at hparse ⊢
    exact parse_error hc hf hparse
  rw [if_neg hcsum] at hparse ⊢
  rcases extract_cases v c.buf with ⟨hrep, hbad, he⟩ | ⟨hgood, m, he, rfl, hat, -⟩
  · rw [if_pos ⟨hrep, hbad⟩]
    exact parse_error hc hf (hparse.trans he)
  · rw [if_neg hgood]
    exact ⟨m, rfl, hat, parse_ok hc hf (hparse.trans he)⟩

/-- Settles O60: what a parse looks at, `PARSE` leaves unchanged, and what it writes is written already. -/
theorem parseRepeats : Obligations.ParseRepeats := by
  intro s t fam r hexec hr hctx
  rcases execParse_cases hexec with ⟨hnone, -⟩ | ⟨hf, rfl⟩ | ⟨f, c, e, hf, hc, hp, rfl⟩ | ⟨f, c, m, hf, hc, hp, rfl⟩
  · exact absurd hnone hctx
  · obtain ⟨c, hc⟩ := Option.ne_none_iff_exists'.mp hctx
    obtain rfl : [0x14] = r := by simpa using hr
    exact parse_illegalFamily (c := c) hc hf
  · obtain rfl : [e.code] = r := by simpa using hr
    exact parse_error_again (c := c) hc hf rfl (by simpa using hp)
  · obtain rfl : [0x00, m.variant.id] = r := by simpa using hr
    exact parse_ok_again (State.ctx?_setCtx_emit (s := s.seal) hc _) hf rfl (by simpa using hp)

end Sys2Proof.Machine
end

section
/-! PROOFS. Errors, faults and responses (R320 to R330): the settled statements of 60_exceptions.md. What a command's
response tells of the state it leaves is said once (`exec_response_cases`); that every command answers at all comes
from the non-interference of the contexts, read for a block and itself. -/

namespace Sys2Proof.Machine

/-! The response of a command. -/

/-- The error statuses of R118 as a list. -/
theorem ErrorStatus.code_mem (e : ErrorStatus) :
    e.code ∈ ([1, 2, 3, 4, 5, 6, 7, 0x10, 0x11, 0x12, 0x13, 0x14, 0x15, 0x16, 0x17] : List Byte) := by
  cases e <;> decide

/-- A command of a context that does not exist is the fault IllegalCommand, whatever the command (R110). -/
theorem exec_noContext {s : State} (hc : s.ctx? = none) (i : Instr) : exec i s = s.takeFault .illegalCommand := by
  rcases exec_local i with ⟨rule, hrule⟩ | ⟨fam, tag, dec, rfl⟩ | ⟨fam, tag, rfl⟩ | rfl | rfl | ⟨fam, rfl⟩
  · rw [hrule]
    exact State.inCtx_none hc _
  all_goals exact State.inCtx_none hc _

/-- Every command has a next state, in every state. -/
theorem exec_answers (i : Instr) (s : State) : ∃ t, exec i s = .next t := by
  cases hc : s.ctx? with
  | none => exact ⟨_, exec_noContext hc i⟩
  | some c =>
    have halike : Alike c s s := ⟨⟨rfl, rfl, rfl, rfl, rfl, rfl⟩, hc, hc⟩
    obtain ⟨t, -, -, ht, -⟩ := halike.exec i
    exact ⟨t, ht⟩

/-- All that the response of a command can tell: Faulted and the cause now recorded; OK; or an error, and then that
response is all that was written, but for the seal of `PARSE`. -/
theorem exec_response_cases {i : Instr} {s t : State} (h : exec i s = .next t) :
    t.responses = s.responses ++ [[0xFF, t.faultCause]] ∨
    (∃ payload, t.responses = s.responses ++ [0x00 :: payload]) ∨
    ∃ e : ErrorStatus, t = s.emit [e.code] ∨ ((∃ fam, i = .parse fam) ∧ t = s.seal.emit [e.code]) := by
  rcases exec_cases h with ⟨-, rfl⟩ | ⟨c, -, ⟨e, rfl⟩ | ⟨c', p, rfl⟩ | ⟨-, -, rfl⟩ | ⟨-, f, tag, dec, -, rfl⟩ |
    ⟨-, rfl⟩ | ⟨hi, e, rfl⟩ | ⟨-, c', p, rfl⟩⟩
  · exact .inl rfl
  · exact .inr (.inr ⟨e, .inl rfl⟩)
  · exact .inr (.inl ⟨p, rfl⟩)
  · exact .inl rfl
  · exact .inr (.inl ⟨[], by simp⟩)
  · exact .inr (.inl ⟨[], rfl⟩)
  · exact .inr (.inr ⟨e, .inr ⟨hi, rfl⟩⟩)
  · exact .inr (.inl ⟨p, rfl⟩)

/-- Settles O11: of the three kinds of response, Faulted has a second byte and OK is excluded. -/
theorem errorsWriteNothing : Obligations.ErrorsWriteNothing := by
  intro i s t status h hr hstatus
  rcases exec_response_cases h with hfaulted | ⟨p, hok⟩ | ⟨e, rfl | ⟨hi, rfl⟩⟩
  · simp [hfaulted] at hr
  · obtain ⟨rfl, -⟩ : 0x00 = status ∧ p = [] := by simpa [hok] using hr
    exact absurd rfl hstatus
  · obtain rfl : e.code = status := by simpa using hr
    exact .inl rfl
  · obtain rfl : e.code = status := by simpa using hr
    exact .inr ⟨hi, rfl⟩

/-! The response to a frame. -/

/-- The responses of R117 and R118, when FAULT_CAUSE holds `cause`. -/
inductive IsResponse (cause : Byte) : List Byte → Prop
  | ok (payload : List Byte) : IsResponse cause (0x00 :: payload)
  | error (e : ErrorStatus) : IsResponse cause [e.code]
  | faulted : IsResponse cause [0xFF, cause]

/-- From `s` to `t` the block has given exactly one response, after the earlier ones, and taken no input. -/
structure Answered (s t : State) : Prop where
  inputs : t.inputs = s.inputs
  response : ∃ r, t.responses = s.responses ++ [r] ∧ IsResponse t.faultCause r

theorem exec_answered {i : Instr} {s t : State} (h : exec i s = .next t) : Answered s t := by
  obtain ⟨-, -, -, hin, -⟩ := commandKeepsOtherContexts i s t h
  refine ⟨hin, ?_⟩
  rcases exec_response_cases h with hfaulted | ⟨p, hok⟩ | ⟨e, rfl | ⟨-, rfl⟩⟩
  · exact ⟨_, hfaulted, .faulted⟩
  · exact ⟨_, hok, .ok p⟩
  · exact ⟨_, rfl, .error e⟩
  · exact ⟨_, rfl, .error e⟩

/-- Every frame is answered: by the old fault, by a new one, or by its command. -/
theorem runFrame_answered (f : Frame) (s : State) : ∃ t, runFrame f s = .next t ∧ Answered s t := by
  rcases runFrame_cases f s with ⟨-, hrun⟩ | ⟨-, -, hrun⟩ | ⟨-, -, i, -, hrun⟩
  · exact ⟨_, hrun, rfl, _, rfl, .faulted⟩
  · exact ⟨_, hrun, rfl, _, rfl, .faulted⟩
  · obtain ⟨t, ht⟩ := exec_answers i { s with cur := f.ctx }
    obtain ⟨hin, hresp⟩ := exec_answered ht
    exact ⟨t, hrun.trans ht, hin, hresp⟩

/-! One step. -/

theorem step_reset {s : State} {rest : List HostInput} (h : s.inputs = .reset :: rest) :
    step s = .next { s with inputs := rest }.applyReset := by
  simp only [step, runInput, h]

/-- Settles O10, by the three kinds of step: with no input and on the reset signal there is no frame to answer; a frame
is answered, and each kind of response is one of the statement's. -/
theorem oneResponsePerFrame : Obligations.OneResponsePerFrame := by
  intro s
  match hin : s.inputs with
  | [] => exact ⟨s, step_idle hin, fun f rest hframe => by cases hframe⟩
  | .reset :: rest => exact ⟨_, step_reset hin, fun f rest hframe => by cases hframe⟩
  | .frame f :: rest =>
    obtain ⟨t, hrun, hinputs, r, hresp, hr⟩ := runFrame_answered f { s with inputs := rest }
    refine ⟨t, (step_frame hin).trans hrun, fun f' rest' hframe => ?_⟩
    cases hframe
    refine ⟨hinputs, ?_⟩
    cases hr with
    | ok payload => exact ⟨_, payload, hresp, .inl rfl⟩
    | error e => exact ⟨_, [], hresp, .inr (.inl ⟨e.code_mem, rfl⟩)⟩
    | faulted => exact ⟨_, _, hresp, .inr (.inr ⟨rfl, rfl⟩)⟩

/-- Settles O9: a faulted block leaves only the first case of `runFrame_cases`, whatever the frame. -/
theorem faultedBlockOnlyAnswers : Obligations.FaultedBlockOnlyAnswers := by
  intro s f rest hfault
  refine ⟨fun hin => ?frame, fun hin => ⟨_, step_reset hin, rfl, rfl⟩⟩
  case frame =>
    rw [step_frame hin]
    rcases runFrame_cases f { s with inputs := rest } with ⟨-, hrun⟩ | ⟨hclear, -⟩ | ⟨hclear, -⟩
    · exact hrun
    · cases hclear.symm.trans hfault
    · cases hclear.symm.trans hfault

end Sys2Proof.Machine
end

section
/-! PROOFS. Reset (R350): what the reset signal and the machine's own start leave in every register, and the invariant
right after reset. -/

namespace Sys2Proof.Machine

/-- Every entry of the registry reads 0. -/
theorem State.regRead_of_empty {s : State} (higmp : s.regIgmp = []) (hmld : s.regMld = []) (f : Family) (tag : Byte) :
    s.regRead f tag = 0 := by
  cases f with
  | igmp => simp [State.regRead, State.regOf, higmp, Memory.read]
  | mld => simp [State.regRead, State.regOf, hmld, Memory.read]

/-- What R350 says of one context. -/
theorem Context.of_mem_replicate_reset {n : Nat} {c : Context} (h : c ∈ List.replicate n Context.reset) :
    (∀ k, c.buf.read k = 0) ∧ c.bufLen = 0 ∧ c.src = zeros 16 ∧ c.dst = zeros 16 ∧ c.msgValid = false ∧
      c.grValid = false := by
  obtain rfl := List.eq_of_mem_replicate h
  exact ⟨fun _ => rfl, rfl, rfl, rfl, rfl, rfl⟩

/-- Settles O1: both leave empty registry tables and as many reset contexts as the block has. -/
theorem resetState : Obligations.ResetState := by
  refine ⟨fun s rest hin => ⟨_, step_reset hin, ?_⟩, ?_⟩
  · exact ⟨State.regRead_of_empty rfl rfl, rfl, rfl, rfl, State.nCtx_applyReset _, rfl, rfl, rfl,
      fun _ => Context.of_mem_replicate_reset⟩
  · exact ⟨State.regRead_of_empty rfl rfl, rfl, rfl, rfl, fun _ => Context.of_mem_replicate_reset⟩

/-- Right after reset the block has the parameters it was given. -/
theorem State.paramsLegal_resetWith {p : Config.Params} (h : p.legal = true) : (State.resetWith p).ParamsLegal := by
  simpa [Config.Params.legal, State.ParamsLegal, State.nCtx, State.resetWith] using h

/-- The reset signal finds nothing to change right after reset. -/
theorem State.applyReset_resetWith (p : Config.Params) : (State.resetWith p).applyReset = State.resetWith p := by
  simp [State.applyReset, State.resetWith, State.nCtx]

theorem State.resetWith_inv {p : Config.Params} (h : p.legal = true) : (State.resetWith p).Inv := by
  rw [← State.applyReset_resetWith p]
  exact applyReset_inv (State.paramsLegal_resetWith h)

/-- Settles O2: the parameters of `State.reset` are a legal choice too. -/
theorem resetSatisfiesInvariant : Obligations.ResetSatisfiesInvariant :=
  ⟨State.resetWith_inv (p := Config.assumed) rfl, fun _ hp => State.resetWith_inv hp⟩

end Sys2Proof.Machine
end

section
/-! PROOFS. The contents of invalid registers are unobservable (R27, R30, R350): forgetting them before a step and
forgetting them after it come to the same. The equation is proved for each operation that commands are built from,
then for every command, for a frame and for a step. -/

namespace Sys2Proof.Machine

/-! A context. -/

@[simp] theorem Context.forget_buf (c : Context) : c.forget.buf = c.buf := rfl
@[simp] theorem Context.forget_bufLen (c : Context) : c.forget.bufLen = c.bufLen := rfl
@[simp] theorem Context.bufRead_forget (c : Context) (off n : Nat) : c.forget.bufRead off n = c.bufRead off n := rfl
@[simp] theorem parseMsg_forget (reg : Memory) (f : Family) (c : Context) : parseMsg reg f c.forget = parseMsg reg f c :=
  rfl

section
variable {c : Context}

theorem Context.forget_msg_of_valid (hv : c.msgValid = true) : c.forget.msg = c.msg := if_pos hv

theorem Context.forget_gr_of_valid (hv : c.grValid = true) : c.forget.gr = c.gr := if_pos hv

/-- What is written to a valid message register is not forgotten. -/
theorem Context.forget_setMsg (hv : c.msgValid = true) (m : Message) :
    { c.forget with msg := m } = ({ c with msg := m } : Context).forget := by
  simp [Context.forget, hv]

/-- What is written to a valid record register is not forgotten. -/
theorem Context.forget_setGr (hv : c.grValid = true) (g : Record) :
    { c.forget with gr := g } = ({ c with gr := g } : Context).forget := by
  simp [Context.forget, hv]

end

/-! Results and outcomes, with the invalid registers forgotten. -/

/-- A command's result with the invalid registers of the context that it commits forgotten. -/
def forgetResult : CmdResult → CmdResult
  | .error e => .error e
  | .ok (c, p) => .ok (c.forget, p)

/-- A step's outcome with the invalid registers of the next state forgotten. -/
def forgetOutcome : StepResult → StepResult
  | .next s => .next s.observable
  | .fault r => .fault r
  | .refused r => .refused r

/-- A check that sees no invalid register. -/
theorem forgetResult_guard {b : Prop} [Decidable b] (e : ErrorStatus) {r r' : CmdResult} (h : r' = forgetResult r) :
    (if b then .error e else r') = forgetResult (if b then .error e else r) := by
  by_cases hb : b
  · simp [hb, forgetResult]
  · simpa [hb] using h

theorem forgetOutcome_ite {b : Prop} [Decidable b] {x x' y y' : StepResult} (hx : x' = forgetOutcome x)
    (hy : y' = forgetOutcome y) : (if b then x' else y') = forgetOutcome (if b then x else y) := by
  by_cases hb : b
  · simpa [hb] using hx
  · simpa [hb] using hy

/-! The rules of the commands confined to their context. -/

section
variable {c : Context}

/-- Past the checks of R240 the message is the one held. -/
theorem forgetResult_withMsg (present : Variant → Bool) {run run' : Message → CmdResult}
    (h : c.msgValid = true → run' c.msg = forgetResult (run c.msg)) :
    c.forget.withMsg present run' = forgetResult (c.withMsg present run) := by
  cases hv : c.msgValid with
  | false => rw [Context.withMsg_noMessage _ hv, Context.withMsg_noMessage _ (c := c.forget) hv]; rfl
  | true =>
    have hmsg := Context.forget_msg_of_valid hv
    cases hp : present c.msg.variant with
    | false =>
      rw [Context.withMsg_fieldNotPresent hv hp,
        Context.withMsg_fieldNotPresent (c := c.forget) hv (by rw [hmsg, hp])]
      rfl
    | true =>
      rw [Context.withMsg_run hv hp, Context.withMsg_run (c := c.forget) hv (by rw [hmsg, hp]), hmsg]
      exact h hv

/-- Past the check of R210 the record is the one held. -/
theorem forgetResult_withRec {run run' : Record → CmdResult}
    (h : c.grValid = true → run' c.gr = forgetResult (run c.gr)) :
    c.forget.withRec run' = forgetResult (c.withRec run) := by
  cases hv : c.grValid with
  | false => rw [Context.withRec_noRecord hv, Context.withRec_noRecord (c := c.forget) hv]; rfl
  | true =>
    rw [Context.withRec_run hv, Context.withRec_run (c := c.forget) hv, Context.forget_gr_of_valid hv]
    exact h hv

/-- A command that edits the message register edits the one held. -/
theorem forgetResult_editMsg (hv : c.msgValid = true) (m : Message) :
    .ok ({ c.forget with msg := m }, []) = forgetResult (.ok ({ c with msg := m }, [])) := by
  rw [Context.forget_setMsg hv]; rfl

/-- A command that edits the record register edits the one held. -/
theorem forgetResult_editGr (hv : c.grValid = true) (g : Record) :
    .ok ({ c.forget with gr := g }, []) = forgetResult (.ok ({ c with gr := g }, [])) := by
  rw [Context.forget_setGr hv]; rfl

theorem forgetResult_getField (off n : Nat) : c.forget.getField off n = forgetResult (c.getField off n) := by
  by_cases hle : off + n ≤ c.bufLen
  · rw [Context.getField_ok hle, Context.getField_ok (c := c.forget) hle]; rfl
  · have hlt := Nat.lt_of_not_le hle
    rw [Context.getField_short hlt, Context.getField_short (c := c.forget) hlt]; rfl

theorem forgetResult_setField (off : Nat) (bs : List Byte) :
    c.forget.setField off bs = forgetResult (c.setField off bs) := by
  by_cases hle : off + bs.length ≤ c.bufLen
  · rw [Context.setField_ok hle, Context.setField_ok (c := c.forget) hle]; rfl
  · have hlt := Nat.lt_of_not_le hle
    rw [Context.setField_short hlt, Context.setField_short (c := c.forget) hlt]; rfl

/-- A command that answers from the message register answers from the one held. -/
theorem forgetResult_readMsg (present : Variant → Bool) (answer : Message → List Byte) :
    (c.forget.withMsg present fun m => .ok (c.forget, answer m)) =
      forgetResult (c.withMsg present fun m => .ok (c, answer m)) :=
  forgetResult_withMsg _ fun _ => rfl

/-- A command that answers from the record register answers from the one held. -/
theorem forgetResult_readRec (answer : Record → List Byte) :
    (c.forget.withRec fun g => .ok (c.forget, answer g)) =
      forgetResult (c.withRec fun g => .ok (c, answer g)) :=
  forgetResult_withRec fun _ => rfl

end

/-! The state. -/

section
variable (s : State)

theorem State.ctx?_observable : s.observable.ctx? = s.ctx?.map Context.forget := List.getElem?_map

theorem State.setCtx_observable (c : Context) : s.observable.setCtx c.forget = (s.setCtx c).observable := by
  simp [State.setCtx, State.observable, List.map_set]

theorem State.regWrite_observable (f : Family) (tag dec : Byte) :
    s.observable.regWrite f tag dec = (s.regWrite f tag dec).observable := by
  cases f <;> rfl

theorem State.commit_forgetResult (r : CmdResult) :
    s.observable.commit (forgetResult r) = forgetOutcome (s.commit r) := by
  match r with
  | .error e => rfl
  | .ok (c, p) =>
    show (s.observable.setCtx c.forget).respond p = _
    rw [State.setCtx_observable]; rfl

variable {s}

/-- The frame's context exists in both states or in neither (R110). -/
theorem State.inCtx_observable {run run' : Context → StepResult} (h : ∀ c, run' c.forget = forgetOutcome (run c)) :
    s.observable.inCtx run' = forgetOutcome (s.inCtx run) := by
  have hctx := s.ctx?_observable
  cases hc : s.ctx? with
  | none => rw [State.inCtx_none hc, State.inCtx_none (by rw [hctx, hc]; rfl)]; rfl
  | some c => rw [State.inCtx_some hc, State.inCtx_some (by rw [hctx, hc]; rfl)]; exact h c

end

/-! Commands. -/

/-- The command commutes with forgetting the invalid registers. -/
def SeesNoInvalid (i : Instr) : Prop := ∀ s, exec i s.observable = forgetOutcome (exec i s)

/-- A command confined to its context commutes with forgetting if its rule does. -/
theorem SeesNoInvalid.of_rule {i : Instr} {rule : State → Context → CmdResult} (hi : ∀ s, exec i s = s.runCtx (rule s))
    (hrule : ∀ s c, rule s.observable c.forget = forgetResult (rule s c)) : SeesNoInvalid i := by
  intro s
  rw [hi, hi]
  refine State.inCtx_observable fun c => ?_
  rw [hrule, State.commit_forgetResult]

/-! The field codec. -/

theorem fldGetBits_seesNoInvalid (off : Half) (sh w : Byte) : SeesNoInvalid (.fldGetBits off sh w) :=
  .of_rule (fun _ => rfl) fun _ c => forgetResult_guard _ <| by
    rw [Context.bufRead_forget]
    cases c.bufRead off.toNat 1 with
    | error e => rfl
    | ok _ => rfl

theorem fldGetBytes_seesNoInvalid (off n : Half) : SeesNoInvalid (.fldGetBytes off n) :=
  .of_rule (fun _ => rfl) fun _ c => by
    rw [Context.bufRead_forget]
    cases c.bufRead off.toNat n.toNat with
    | error e => rfl
    | ok bytes => rfl

/-! The group record codec. -/

theorem grGetSrc_seesNoInvalid (k : Half) : SeesNoInvalid (.grGetSrc k) :=
  .of_rule (fun _ => rfl) fun _ c => forgetResult_withRec fun _ => by
    cases c.gr.srcs[k.toNat]? with
    | none => rfl
    | some addr => rfl

theorem grDecode_seesNoInvalid (off : Half) (fam : Byte) : SeesNoInvalid (.grDecode off fam) :=
  .of_rule (fun _ => rfl) fun _ c => by
    cases familyOf fam with
    | none => rfl
    | some f =>
      simp only [Context.forget_buf, Context.forget_bufLen]
      cases decodeRecord c.buf off.toNat f c.bufLen with
      | error e => rfl
      | ok r => rfl

theorem grEncode_seesNoInvalid (off : Half) : SeesNoInvalid (.grEncode off) :=
  .of_rule (fun _ => rfl) fun _ c => forgetResult_withRec fun _ => by
    by_cases hle : off.toNat + (encodeRecord c.gr).length ≤ c.bufLen
    · rw [Context.bufWrite_ok hle, Context.bufWrite_ok (c := c.forget) hle]; rfl
    · have hlt := Nat.lt_of_not_le hle
      rw [Context.bufWrite_short hlt, Context.bufWrite_short (c := c.forget) hlt]; rfl

theorem grPeekLength_seesNoInvalid (off : Half) (fam : Byte) : SeesNoInvalid (.grPeekLength off fam) :=
  .of_rule (fun _ => rfl) fun _ c => by
    cases familyOf fam with
    | none => rfl
    | some f =>
      simp only [Context.forget_buf, Context.forget_bufLen]
      cases peekRecordLength c.buf off.toNat f c.bufLen with
      | error e => rfl
      | ok l => rfl

/-! The message register. -/

theorem msgNew_seesNoInvalid (v : Byte) : SeesNoInvalid (.msgNew v) :=
  .of_rule (fun _ => rfl) fun _ _ => by
    cases variantOf v with
    | none => rfl
    | some v => rfl

theorem msgGetSrc_seesNoInvalid (k : Half) : SeesNoInvalid (.msgGetSrc k) :=
  .of_rule (fun _ => rfl) fun _ c => forgetResult_withMsg _ fun _ => by
    cases c.msg.srcs[k.toNat]? with
    | none => rfl
    | some addr => rfl

theorem msgGetRec_seesNoInvalid (k : Half) : SeesNoInvalid (.msgGetRec k) :=
  .of_rule (fun _ => rfl) fun _ c => forgetResult_withMsg _ fun _ => by
    cases c.msg.recs[k.toNat]? with
    | none => rfl
    | some g => rfl

/-- `MSG_ADD_REC` copies the record register past the check that it is valid (R265). -/
theorem msgAddRec_seesNoInvalid : SeesNoInvalid .msgAddRec :=
  .of_rule (fun _ => rfl) fun _ _ => forgetResult_withMsg _ fun hv => forgetResult_withRec fun _ =>
    forgetResult_guard _ <| forgetResult_guard _ <| forgetResult_editMsg hv _

/-! The registry. -/

theorem regRegister_seesNoInvalid (fam tag dec : Byte) : SeesNoInvalid (.regRegister fam tag dec) :=
  fun s => State.inCtx_observable fun _ => by
    cases familyOf fam with
    | none => rfl
    | some f =>
      refine forgetOutcome_ite rfl (forgetOutcome_ite rfl (forgetOutcome_ite rfl ?_))
      rw [State.regWrite_observable]; rfl

theorem regLookup_seesNoInvalid (fam tag : Byte) : SeesNoInvalid (.regLookup fam tag) :=
  fun s => State.inCtx_observable fun _ => by
    cases familyOf fam with
    | none => rfl
    | some f => cases f <;> rfl

theorem regBuild_seesNoInvalid : SeesNoInvalid .regBuild :=
  fun _ => State.inCtx_observable fun _ => forgetOutcome_ite rfl rfl

theorem regSeal_seesNoInvalid : SeesNoInvalid .regSeal := fun _ => State.inCtx_observable fun _ => rfl

theorem forgetResult_parseInto (reg : Memory) (f : Family) (c : Context) :
    parseInto reg f c.forget = forgetResult (parseInto reg f c) := by
  unfold parseInto
  rw [parseMsg_forget]
  cases parseMsg reg f c with
  | error e => rfl
  | ok m => rfl

theorem parse_seesNoInvalid (fam : Byte) : SeesNoInvalid (.parse fam) :=
  fun s => State.inCtx_observable fun c => by
    cases familyOf fam with
    | none => rfl
    | some f =>
      have hreg : s.observable.regOf f = s.regOf f := by cases f <;> rfl
      simp only [hreg, forgetResult_parseInto]
      exact s.seal.commit_forgetResult _

/-! All 69 commands. -/

theorem exec_seesNoInvalid (i : Instr) : SeesNoInvalid i := by
  cases i with
  -- 41_fields.md
  | bufLoad _ | bufSetlen _ => exact .of_rule (fun _ => rfl) fun _ _ => forgetResult_guard _ rfl
  | bufGetlen => exact .of_rule (fun _ => rfl) fun _ _ => rfl
  | fldGetU8 _ | fldGetU16 _ | fldGetU32 _ => exact .of_rule (fun _ => rfl) fun _ _ => forgetResult_getField _ _
  | fldSetU8 _ _ | fldSetU16 _ _ | fldSetU32 _ _ | fldSetBytes _ _ =>
    exact .of_rule (fun _ => rfl) fun _ _ => forgetResult_setField _ _
  | fldGetBits off sh w => exact fldGetBits_seesNoInvalid off sh w
  | fldSetBits _ _ _ _ =>
    exact .of_rule (fun _ => rfl) fun _ _ => forgetResult_guard _ (forgetResult_setField _ _)
  | fldGetBytes off n => exact fldGetBytes_seesNoInvalid off n
  -- 42_checksum.md
  | ctxSetSrc _ | ctxSetDst _ => exact .of_rule (fun _ => rfl) fun _ _ => forgetResult_guard _ rfl
  | csumCompute _ p | csumVerify _ p | csumWrite _ p =>
    exact .of_rule (fun _ => rfl) fun _ _ => by
      cases pseudoOf p with
      | none => rfl
      | some ph => exact forgetResult_guard _ rfl
  -- 43_timecode.md
  | tc8Decode _ | tc8Encode _ | tc16Decode _ | tc16Encode _ => exact .of_rule (fun _ => rfl) fun _ _ => rfl
  -- 44_group_record.md
  | grNew fam _ =>
    exact .of_rule (fun _ => rfl) fun _ _ => by
      cases familyOf fam with
      | none => rfl
      | some f => exact forgetResult_guard _ rfl
  | grGetType | grGetGroup | grGetNsrc | grGetAuxlen | grGetAux | grLength =>
    exact .of_rule (fun _ => rfl) fun _ _ => forgetResult_readRec _
  | grGetSrc k => exact grGetSrc_seesNoInvalid k
  | grSetType _ | grSetGroup _ | grSetAux _ =>
    exact .of_rule (fun _ => rfl) fun _ _ => forgetResult_withRec fun hv =>
      forgetResult_guard _ <| forgetResult_editGr hv _
  | grAddSrc _ =>
    exact .of_rule (fun _ => rfl) fun _ _ => forgetResult_withRec fun hv =>
      forgetResult_guard _ <| forgetResult_guard _ <| forgetResult_editGr hv _
  | grClearSrc =>
    exact .of_rule (fun _ => rfl) fun _ _ => forgetResult_withRec fun hv => forgetResult_editGr hv _
  | grDecode off fam => exact grDecode_seesNoInvalid off fam
  | grEncode off => exact grEncode_seesNoInvalid off
  | grPeekLength off fam => exact grPeekLength_seesNoInvalid off fam
  -- 45_message.md
  | msgNew v => exact msgNew_seesNoInvalid v
  | msgGetVariant | msgGetGroup | msgGetMaxrespCode | msgGetMaxrespTime | msgGetS | msgGetQrv | msgGetQqic | msgGetQqi
  | msgGetNsrc | msgGetNrec | msgLength => exact .of_rule (fun _ => rfl) fun _ _ => forgetResult_readMsg _ _
  | msgSetMaxrespCode _ | msgSetMaxrespTime _ | msgSetS _ | msgSetQrv _ | msgSetQqic _ | msgSetQqi _ | msgClearSrc
  | msgClearRec =>
    exact .of_rule (fun _ => rfl) fun _ _ => forgetResult_withMsg _ fun hv => forgetResult_editMsg hv _
  | msgSetGroup _ =>
    exact .of_rule (fun _ => rfl) fun _ _ => forgetResult_withMsg _ fun hv =>
      forgetResult_guard _ <| forgetResult_editMsg hv _
  | msgAddSrc _ =>
    exact .of_rule (fun _ => rfl) fun _ _ => forgetResult_withMsg _ fun hv =>
      forgetResult_guard _ <| forgetResult_guard _ <| forgetResult_editMsg hv _
  | msgGetSrc k => exact msgGetSrc_seesNoInvalid k
  | msgGetRec k => exact msgGetRec_seesNoInvalid k
  | msgAddRec => exact msgAddRec_seesNoInvalid
  | msgEncode _ =>
    exact .of_rule (fun _ => rfl) fun _ _ => forgetResult_withMsg _ fun _ => forgetResult_guard _ rfl
  -- 46_registry.md
  | regRegister fam tag dec => exact regRegister_seesNoInvalid fam tag dec
  | regLookup fam tag => exact regLookup_seesNoInvalid fam tag
  | regBuild => exact regBuild_seesNoInvalid
  | regSeal => exact regSeal_seesNoInvalid
  | parse fam => exact parse_seesNoInvalid fam

/-! The machine. -/

theorem State.nCtx_observable (s : State) : s.observable.nCtx = s.nCtx := List.length_map _

/-- The checks of a frame (R325) look at no message or record register. -/
theorem runFrame_observable (f : Frame) (s : State) :
    runFrame f s.observable = forgetOutcome (runFrame f s) := by
  refine forgetOutcome_ite rfl ?_
  rw [State.nCtx_observable]
  refine forgetOutcome_ite rfl ?_
  cases decode f.cmd with
  | error e => rfl
  | ok i => exact exec_seesNoInvalid i { s with cur := f.ctx }

/-- The reset signal leaves a state that tells nothing of the registers before it, and has nothing to forget. -/
theorem State.applyReset_observable (s : State) : s.observable.applyReset = s.applyReset.observable := by
  have hreset : Context.reset.forget = Context.reset := rfl
  simp [State.applyReset, State.resetWith, State.nCtx, State.observable, hreset]

/-- A step commutes with forgetting the invalid registers, by its three kinds: no input, the reset signal, a frame. -/
theorem step_observable (s : State) : step s.observable = forgetOutcome (step s) := by
  match hin : s.inputs with
  | [] => rw [step_idle hin, step_idle (s := s.observable) hin]; rfl
  | .reset :: rest =>
    rw [step_reset hin, step_reset (s := s.observable) hin]
    exact congrArg _ (State.applyReset_observable { s with inputs := rest })
  | .frame f :: rest =>
    rw [step_frame hin, step_frame (s := s.observable) hin]
    exact runFrame_observable f { s with inputs := rest }

/-- Settles O16: both steps, their invalid registers forgotten, are the step from the one state that the two look like
when theirs are. -/
theorem invalidRegistersUnobservable : Obligations.InvalidRegistersUnobservable := by
  intro s s' heq
  obtain ⟨t, ht, -⟩ := oneResponsePerFrame s
  obtain ⟨t', ht', -⟩ := oneResponsePerFrame s'
  refine ⟨t, t', ht, ht', ?_⟩
  have hsteps : Host.Outcome.next t.observable = .next t'.observable := calc
    Host.Outcome.next t.observable = forgetOutcome (step s) := by rw [ht]; rfl
    _ = step s.observable := (step_observable s).symm
    _ = step s'.observable := by rw [heq]
    _ = forgetOutcome (step s') := step_observable s'
    _ = .next t'.observable := by rw [ht']; rfl
  exact Host.Outcome.next.inj hsteps

end Sys2Proof.Machine
end
